-- ==== Sys2Proof/Word.lean ====
section
/-! DEFINITION. The word types of the block (10_state.md, 20_memory.md R80) and the names of its lines, channels,
hoops, sources, ports, engines and error codes. -/

namespace Sys2Proof

/-- One byte. -/
abbrev Byte := BitVec 8

/-- One host data word: DATA_W = 32 (00_scope.md R10). -/
abbrev Word := BitVec 32

/-- One host byte address: ADDR_W = 16 (00_scope.md R10, 20_memory.md R80). -/
abbrev Addr := BitVec 16

/-- A display channel: N_DSP = 3 (00_scope.md R10, 10_state.md R48). -/
inductive Chan where
  | c0
  | c1
  | c2
deriving DecidableEq, Repr, Inhabited

/-- A hoop: N_HOOP = 2 (00_scope.md R10, 42_event_dispatcher.md R221). -/
inductive Hoop where
  | h0
  | h1
deriving DecidableEq, Repr, Inhabited

/-- An event source: N_IRQ = 3, the sensor of each hoop and the timer (00_scope.md R10, R17). -/
inductive Source where
  | sensor (h : Hoop)
  | timer
deriving DecidableEq, Repr, Inhabited

/-- The port an LED frame goes out on (00_scope.md R17). -/
inductive Port where
  | hardware
  | software
deriving DecidableEq, Repr, Inhabited

/-- The two push-pull lines of the software port (10_state.md R60). -/
inductive LedPin where
  | dat
  | clk
deriving DecidableEq, Repr, Inhabited

/-- The open-drain lines of the displays (10_state.md R60). -/
inductive DspPin where
  | dclk (k : Chan)
  | ddio (k : Chan)
deriving DecidableEq, Repr, Inhabited

/-- The two engines, as the `Hold` event names them (00_scope.md R15). -/
inductive Engine where
  | lfs
  | dpe
deriving DecidableEq, Repr, Inhabited

/-- The error codes (60_exceptions.md R261). -/
inductive ErrCode where
  | none
  | illegalOp
  | rsvdBits
  | badCh
  | badLen
  | busy
  | unmapped
  | misaligned
deriving DecidableEq, Repr, Inhabited

/-- One value per hoop, or one per team, told apart by one bit. -/
structure Two (α : Type) where
  x0 : α
  x1 : α
deriving DecidableEq, Repr, Inhabited

/-- One value per display channel. -/
structure Three (α : Type) where
  c0 : α
  c1 : α
  c2 : α
deriving DecidableEq, Repr, Inhabited

/-- The value at a bit: 0 for `x0`, 1 for `x1`. -/
def Two.get {α : Type} (p : Two α) : Bool → α
  | false => p.x0
  | true => p.x1

/-- The pair with one value replaced. -/
def Two.set {α : Type} (p : Two α) (i : Bool) (v : α) : Two α :=
  match i with
  | false => { p with x0 := v }
  | true => { p with x1 := v }

/-- The value of a channel. -/
def Three.get {α : Type} (p : Three α) : Chan → α
  | .c0 => p.c0
  | .c1 => p.c1
  | .c2 => p.c2

/-- The triple with one channel's value replaced. -/
def Three.set {α : Type} (p : Three α) (k : Chan) (v : α) : Three α :=
  match k with
  | .c0 => { p with c0 := v }
  | .c1 => { p with c1 := v }
  | .c2 => { p with c2 := v }

/-- The index bit of a hoop. -/
def Hoop.bit : Hoop → Bool
  | .h0 => false
  | .h1 => true

end Sys2Proof
end

