-- ==== Sys2Proof/Syntax.lean ====
section
/-! DEFINITION. The commands: one constructor per row of the opcode table (30_encoding.md R111, R113). -/

namespace Sys2Proof

/-- A host command with the fields of its word (30_encoding.md R113). Fields keep the width of the word, so CH = 3 and
LEN > 4 can be written down and `WellFormed` refuses them. -/
inductive Instr where
  /-- OP 0x0 (40_led_serializer.md R150) -/
  | nop
  /-- OP 0x1 (40_led_serializer.md R151) -/
  | ledInit
  /-- OP 0x2: port S, pixel count N (40_led_serializer.md R152) -/
  | ledTx (port : Port) (n : BitVec 10)
  /-- OP 0x3: port S, pixel count N (40_led_serializer.md R153) -/
  | ledFill (port : Port) (n : BitVec 10)
  /-- OP 0x4: CH, ADDR, LEN, COLON (41_display_engine.md R198) -/
  | dspSegs (ch : BitVec 2) (addr : BitVec 2) (len : BitVec 3) (colon : Bool)
  /-- OP 0x5: CH (41_display_engine.md R200) -/
  | dspNum (ch : BitVec 2)
  /-- OP 0x6: CH, COLON (41_display_engine.md R201) -/
  | dspClock (ch : BitVec 2) (colon : Bool)
deriving DecidableEq, Repr, Inhabited

end Sys2Proof
end

