-- ==== Sys2Proof/WellFormed.lean ====
section
/-! DEFINITION. Which commands have a word that decodes to them (30_encoding.md R113, R114). -/

namespace Sys2Proof

/-- CH is 0 to 2; "3 rejected" (30_encoding.md R113). -/
abbrev chanOk (ch : BitVec 2) : Bool := ch ≠ 3#2

/-- LEN is 0 to 4; "5 to 7 rejected" (30_encoding.md R113). -/
abbrev lenOk (len : BitVec 3) : Bool := len.toNat ≤ 4

/-- Every operand is in the range of 30_encoding.md R113. -/
def Instr.wellFormed : Instr → Bool
  | .nop => true
  | .ledInit => true
  | .ledTx _ _ => true
  | .ledFill _ _ => true
  | .dspSegs ch _ len _ => chanOk ch && lenOk len
  | .dspNum ch => chanOk ch
  | .dspClock ch _ => chanOk ch

end Sys2Proof
end

