-- ==== Sys2Proof/Decode.lean ====
section
/-! DEFINITION. From command words to commands and back (30_encoding.md R110 to R114, R126). -/

namespace Sys2Proof

/-- The command formats (30_encoding.md R112). -/
inductive Format where
  | z
  | l
  | s
  | d
  | k
deriving DecidableEq, Repr

/-- What a word decodes to: a command, or a rejection by the name of its code (30_encoding.md R114). -/
inductive Decoded where
  | command (i : Instr)
  | reject (c : ErrCode)
deriving DecidableEq, Repr

/-- OP = w[31:28] (30_encoding.md R110). -/
def opField (w : Word) : BitVec 4 := w.extractLsb' 28 4

/-- S = w[27]: 1 software port, 0 hardware port (30_encoding.md R113). -/
def portField (w : Word) : Port := if w.getLsbD 27 then .software else .hardware

/-- N = w[9:0]. -/
def countField (w : Word) : BitVec 10 := w.extractLsb' 0 10

/-- CH = w[25:24]. -/
def chField (w : Word) : BitVec 2 := w.extractLsb' 24 2

/-- ADDR = w[17:16]. -/
def addrField (w : Word) : BitVec 2 := w.extractLsb' 16 2

/-- LEN = w[10:8]. -/
def lenField (w : Word) : BitVec 3 := w.extractLsb' 8 3

/-- COLON = w[0]. -/
def colonField (w : Word) : Bool := w.getLsbD 0

/-- The format of an opcode; none for the reserved opcodes 0x7 to 0xF (30_encoding.md R111). -/
def formatOf (op : BitVec 4) : Option Format :=
  match op.toNat with
  | 0 => some .z
  | 1 => some .z
  | 2 => some .l
  | 3 => some .l
  | 4 => some .s
  | 5 => some .d
  | 6 => some .k
  | _ => none

/-- The reserved-bit masks (30_encoding.md R112). -/
def rsvdMask : Format → Word
  | .z => 0x0FFFFFFF#32
  | .l => 0x07FFFC00#32
  | .s => 0x0CFCF8FE#32
  | .d => 0x0CFFFFFF#32
  | .k => 0x0CFFFFFE#32

/-- The command a word stands for once its opcode and reserved bits have passed; still without the range checks of
CH and LEN. -/
def assembleFields (w : Word) : Option Instr :=
  match (opField w).toNat with
  | 0 => some .nop
  | 1 => some .ledInit
  | 2 => some (.ledTx (portField w) (countField w))
  | 3 => some (.ledFill (portField w) (countField w))
  | 4 => some (.dspSegs (chField w) (addrField w) (lenField w) (colonField w))
  | 5 => some (.dspNum (chField w))
  | 6 => some (.dspClock (chField w) (colonField w))
  | _ => none

/-- BAD_CH before BAD_LEN (30_encoding.md R114); none where the command is well formed. -/
def rangeError : Instr → Option ErrCode
  | .nop => none
  | .ledInit => none
  | .ledTx _ _ => none
  | .ledFill _ _ => none
  | .dspSegs ch _ len _ => if !chanOk ch then some .badCh else if !lenOk len then some .badLen else none
  | .dspNum ch => if !chanOk ch then some .badCh else none
  | .dspClock ch _ => if !chanOk ch then some .badCh else none

/-- The decoder, total on 32-bit words, with the order of checks of 30_encoding.md R114. -/
def decode (w : Word) : Decoded :=
  match formatOf (opField w), assembleFields w with
  | some f, some i =>
    if w &&& rsvdMask f ≠ 0#32 then .reject .rsvdBits
    else match rangeError i with
      | some c => .reject c
      | none => .command i
  | _, _ => .reject .illegalOp

/-- The S bit of a port (30_encoding.md R113). -/
def portBit : Port → BitVec 1
  | .hardware => 0#1
  | .software => 1#1

/-- The word of a command, written from the patterns of 30_encoding.md R112, bit 31 on the left. -/
def encode : Instr → Word
  | .nop => 0x0#4 ++ 0#28
  | .ledInit => 0x1#4 ++ 0#28
  | .ledTx p n => 0x2#4 ++ portBit p ++ 0#17 ++ n
  | .ledFill p n => 0x3#4 ++ portBit p ++ 0#17 ++ n
  | .dspSegs ch a len c => 0x4#4 ++ 0#2 ++ ch ++ 0#6 ++ a ++ 0#5 ++ len ++ 0#7 ++ BitVec.ofBool c
  | .dspNum ch => 0x5#4 ++ 0#2 ++ ch ++ 0#24
  | .dspClock ch c => 0x6#4 ++ 0#2 ++ ch ++ 0#23 ++ BitVec.ofBool c

/-- An assembler line of 30_encoding.md R126, its operands still unbounded numbers. -/
inductive Asm where
  | nop
  | ledInit
  | ledTx (port : Port) (n : Nat)
  | ledFill (port : Port) (n : Nat)
  | dspSegs (ch addr len : Nat) (colon : Bool)
  | dspNum (ch : Nat)
  | dspClock (ch : Nat) (colon : Bool)
deriving DecidableEq, Repr

/-- The command of an assembler line; none is the assembly error of an operand out of its field's range
(30_encoding.md R126: "the assembler never truncates"). -/
def Asm.instr? : Asm → Option Instr
  | .nop => some .nop
  | .ledInit => some .ledInit
  | .ledTx p n => if n < 1024 then some (.ledTx p (BitVec.ofNat 10 n)) else none
  | .ledFill p n => if n < 1024 then some (.ledFill p (BitVec.ofNat 10 n)) else none
  | .dspSegs ch a len c =>
    if ch < 3 ∧ a < 4 ∧ len < 5 then some (.dspSegs (BitVec.ofNat 2 ch) (BitVec.ofNat 2 a) (BitVec.ofNat 3 len) c)
    else none
  | .dspNum ch => if ch < 3 then some (.dspNum (BitVec.ofNat 2 ch)) else none
  | .dspClock ch c => if ch < 3 then some (.dspClock (BitVec.ofNat 2 ch) c) else none

/-- The word an assembler line assembles to (30_encoding.md R126). -/
def Asm.assemble (a : Asm) : Option Word := a.instr?.map encode

/-- The command the decoder reads from the table's bits `w`, a command being one 32-bit word (30_encoding.md R110). -/
def decodeTableWord (nbits w : Nat) : Option Instr :=
  match decode (BitVec.ofNat 32 (w % 2 ^ nbits)) with
  | .command i => some i
  | .reject _ => none

end Sys2Proof
end

