-- ==== Sys2Proof/Config.lean ====
section
/-! DEFINITION. What an implementation fixes (the parameters of 00_scope.md R10), what the outside may do in one
turn (00_scope.md R8), and the free values. A free value is an opaque constant: nothing proves a value of it. -/

namespace Sys2Proof

/-- The OPEN parameters of 00_scope.md R10 ("the model takes it as an argument"). State carries them in a field no
step changes, because `step` has no other argument (log 5). P_ARB is not here: it is a draw of each turn (log 6).
`timerPeriodMs` and `base` are read by no rule (I28, R282). -/
structure Params where
  /-- P_HDR_MARKER -/
  hdrMarker : BitVec 3
  /-- P_DEFAULT_BRIGHTNESS -/
  defaultBrightness : BitVec 5
  /-- SEG_ROM, 19 segment bytes (41_display_engine.md R195, R196) -/
  segRom : Vector Byte 19
  /-- P_SETTLE_MS -/
  settleMs : Nat
  /-- P_SENS_IDLE -/
  sensIdle : Bool
  /-- P_TIMER_PERIOD_MS -/
  timerPeriodMs : Nat
  /-- P_BASE -/
  base : Nat
deriving DecidableEq, Repr, Inhabited

/-- The levels the outside puts on the block's inputs (10_state.md R60 to R62, 41_display_engine.md R178). -/
structure Inputs where
  /-- TICK_MS -/
  tick : Word
  /-- SENS0, SENS1 -/
  sens : Two Bool
  /-- whether the display of a channel pulls its DDIO line low -/
  dioPull : Three Bool
  /-- RST asserted -/
  rst : Bool
deriving DecidableEq, Repr, Inhabited

/-- One host access: one word read or written at a byte offset (20_memory.md R83, R85, R86). -/
inductive Access where
  | read (a : Addr)
  | write (a : Addr) (v : Word)
deriving DecidableEq, Repr, Inhabited

/-- The agent that steps in a turn (00_scope.md R8). `evd` carries the arbitration's draw P_ARB (60_exceptions.md
R275); `env` is a turn in which no agent of the block steps. -/
inductive Move where
  | host (acc : Access)
  | evd (pick : Source)
  | lfs
  | dpe
  | env
deriving DecidableEq, Repr, Inhabited

/-- What ENV does (00_scope.md R8; RST: 70_reset_and_hazards.md R300). `tick ms` advances the counter by a
non-negative amount modulo 2^32 (10_state.md R62). -/
inductive EnvEvent where
  | tick (ms : Word)
  | sensor (h : Hoop) (lvl : Bool)
  | timerPulse
  | display (k : Chan) (pull : Bool)
  | hwDone
  | toneDone
  | rst (asserted : Bool)
deriving DecidableEq, Repr, Inhabited

/-- One step of the whole: the agent that steps and what ENV does at that step (log 1, log 10). -/
structure Turn where
  move : Move
  events : List EnvEvent
deriving DecidableEq, Repr, Inhabited

namespace Config

/-- P_DWELL_MIN, fixed (00_scope.md R10). -/
def dwellMin : Nat := 10

/-- P_DWELL_ONE, fixed (00_scope.md R10). -/
def dwellOne : Nat := 65

/-- T_LED_US, fixed (00_scope.md R10). -/
def ledHoldUs : Nat := 1

/-- FREE VALUE: the OPEN parameters of the block that `State.reset` describes (log 5). -/
opaque params : Params

/-- FREE VALUE: the input levels at reset release (log 8). -/
opaque powerOn : Inputs

/-- FREE VALUE: the turn taken when the agenda is used up (log 1). -/
opaque freeTurn : Nat → Turn

/-- FREE VALUE: a read of a pixel word with unwritten bytes (10_state.md R51, log 7). -/
opaque freePixel : Nat → Word

end Config

end Sys2Proof
end

