-- ==== Sys2Proof/Machine/State.lean ====
section
/-! DEFINITION. The state of the block (10_state.md), plain data, and its value right after reset (R76, R301). -/

namespace Sys2Proof.Machine

open Sys2Proof

/-- Why the machine stops. No error and no event of the block stops it (60_exceptions.md R260). -/
inductive Fault where
  /-- Raised by a turn (Step.lean) in which the host accesses the block while RST is asserted, which "is not part of the
  model" (70_reset_and_hazards.md R302, 93_implementation_defined.md I22; log 11). Safe: the model stops, and proves
  nothing about what the hardware would do. -/
  | hostAccessInReset
deriving DecidableEq, Repr

/-- Why a command has no meaning. Every command has one. -/
inductive Refusal where
  /-- Raised by an arm of `exec` for a command not modelled yet; no arm is. Safe. -/
  | notModelled (mnemonic : String)
deriving DecidableEq, Repr

/-! ## Lines -/

/-- The state of an open-drain line: pulled low, or released (10_state.md R60). -/
inductive Drain where
  | low
  | z
deriving DecidableEq, Repr

/-- A push-pull output with output enable (10_state.md R60). -/
structure LedLine where
  oe : Bool
  lvl : Bool
deriving DecidableEq, Repr

/-- The lines the block drives (10_state.md R60). -/
structure Lines where
  ledDat : LedLine
  ledClk : LedLine
  dclk : Three Drain
  ddio : Three Drain
deriving DecidableEq, Repr

/-- The line-event history's events (00_scope.md R15). `tone` carries the points, 1 or 2 (10_state.md R64). -/
inductive Event where
  | drive (l : LedPin) (lvl : Bool)
  | pullLow (l : DspPin)
  | release (l : DspPin)
  | hold (u : Engine) (us : Nat)
  | sample (l : DspPin) (lvl : Bool)
  | enable (l : LedPin)
  | hwXfer (bytes : List Byte)
  | hwDone
  | tone (h : Hoop) (pts : Nat)
  | toneDone
  | regRead (a : Addr) (v : Word)
  | regWrite (a : Addr) (v : Word)
deriving DecidableEq, Repr

/-- A handshake with an outside unit (10_state.md R63, R64). -/
inductive Handshake where
  | idle
  | waiting
deriving DecidableEq, Repr

/-! ## Engines -/

/-- Who asked for an operation (10_state.md R70, R72). -/
inductive Requester where
  | host
  | evd
deriving DecidableEq, Repr

/-- An LFS operation with its operands (40_led_serializer.md R151 to R153). -/
inductive LfsOp where
  | init
  | tx (port : Port) (n : BitVec 10)
  | fill (port : Port) (n : BitVec 10) (color : BitVec 24)
deriving DecidableEq, Repr

/-- Where a frame's pixels come from (40_led_serializer.md R141). -/
inductive PixSrc where
  | ram
  | fill (w : Word)
deriving DecidableEq, Repr

/-- One micro-step of the LFS (40_led_serializer.md R142 to R145, R151). -/
inductive LfsAct where
  /-- set a line's level -/
  | drive (l : LedPin) (lvl : Bool)
  /-- set a line's output enable -/
  | enable (l : LedPin)
  /-- hold T_LED_US -/
  | hold
  /-- take pixel `i`; its 32 bits are sent next (software port) -/
  | sendPixel (i : Nat)
  /-- take pixel `i` and append its four bytes to the frame being assembled (hardware port) -/
  | packPixel (i : Nat)
  /-- append the end frame of `n` pixels and hand the frame over -/
  | handOver (n : Nat)
  /-- wait for HwDone -/
  | awaitDone
deriving DecidableEq, Repr

/-- A busy LFS (10_state.md R70). `todo` is its position: the micro-steps still to do, next one first. -/
structure LfsRun where
  op : LfsOp
  owner : Requester
  src : PixSrc
  todo : List LfsAct
  /-- the frame assembled so far, on the hardware port (40_led_serializer.md R144) -/
  frame : List Byte
deriving DecidableEq, Repr

/-- A DPE operation with its operands (41_display_engine.md R198, R200, R201). -/
inductive DpeOp where
  | segs (k : Chan) (addr : BitVec 2) (bytes : List Byte) (colon : Bool)
  | num (k : Chan) (v : Word)
  | clock (k : Chan) (s : Word) (colon : Bool)
deriving DecidableEq, Repr

/-- One micro-step of the DPE (41_display_engine.md R171 to R175, R190, R200). -/
inductive DpeAct where
  | pullClk
  | pullDio
  | relClk
  | relDio
  /-- hold the copied bit-delay -/
  | hold
  /-- sample DDIO as the acknowledge -/
  | sample
  /-- write DACK and DNACK -/
  | record
  /-- the only step of an operation that sends nothing -/
  | skip
deriving DecidableEq, Repr

/-- A busy DPE (10_state.md R70, R74). `todo` is its position; `acks` the acknowledges so far, oldest first. -/
structure DpeRun where
  op : DpeOp
  owner : Requester
  chan : Chan
  bitDly : BitVec 16
  todo : List DpeAct
  acks : List Bool
deriving DecidableEq, Repr

/-! ## The event dispatcher -/

/-- The points of a dwell: "pts (0, 1 or 2)" (10_state.md R71). -/
inductive Points where
  | zero
  | one
  | two
deriving DecidableEq, Repr

/-- The next step of the sensor handler: steps 1 to 8 and the end (42_event_dispatcher.md R225). -/
inductive SensorPos where
  | clear
  | settle
  | await
  | dwell
  | classify
  | score
  | tone
  | render
  | finish
deriving DecidableEq, Repr

/-- The next step of the timer handler: steps 1 to 6 and the end (42_event_dispatcher.md R235). -/
inductive TimerPos where
  | clear
  | flip
  | strip1
  | strip2
  | render0
  | render1
  | finish
deriving DecidableEq, Repr

/-- A running sensor handler with its locals (10_state.md R71). `tExit` lives from step 3 to step 4 and `v` from step 6
to step 8 (42_event_dispatcher.md R225). -/
structure SensorRun where
  hoop : Hoop
  pos : SensorPos
  tEntry : Word
  tExit : Word
  d : Word
  pts : Points
  v : Word
deriving DecidableEq, Repr

/-- A running timer handler; `c2` lives from step 3 to step 4 (42_event_dispatcher.md R235). -/
structure TimerRun where
  pos : TimerPos
  c2 : Word
deriving DecidableEq, Repr

/-- The EVD (10_state.md R71). -/
inductive Evd where
  | idle
  | sensor (r : SensorRun)
  | timer (r : TimerRun)
deriving DecidableEq, Repr

/-! ## The whole state -/

/-- The stored registers (10_state.md R32 to R52); ID, TICK, the busy bits of STATUS and SEGROM have no storage. -/
structure Regs where
  irqEn : Word
  irqPend : Word
  err : Bool
  errCode : ErrCode
  dnack : Bool
  /-- the CMD read view -/
  cmd : Word
  arg : Word
  errInfo : Word
  tstart : Word
  lastDwell : Word
  dack : Word
  /-- SCORE0, SCORE1, by team bit -/
  score : Two Word
  team : Word
  color1 : Word
  color2 : Word
  ledcfg : Word
  dcfg : Three Word
  segbuf : Word
deriving DecidableEq, Repr

/-- An accepted host command with its copies (10_state.md R73). -/
structure HostCmd where
  word : Word
  arg : Word
  segbuf : Word
deriving DecidableEq, Repr

/-- The state of the block, the levels of its inputs, its history, and the model's own fields. -/
structure State where
  /-- the OPEN parameters, changed by no step (log 5) -/
  par : Params
  /-- the input levels ENV drives -/
  env : Inputs
  regs : Regs
  /-- the written bytes of the pixel RAM by address, addresses strictly rising (10_state.md R50) -/
  ram : List Host.Cell
  lines : Lines
  /-- PREV0, PREV1, by hoop (10_state.md R75) -/
  prev : Two Bool
  hostSlot : Option HostCmd
  lfsHostReq : Option LfsOp
  lfsEvdReq : Option LfsOp
  dpeHostReq : Option DpeOp
  dpeEvdReq : Option DpeOp
  lfs : Option LfsRun
  dpe : Option DpeRun
  evd : Evd
  hwx : Handshake
  tone : Handshake
  /-- the line-event history, oldest first (00_scope.md R15) -/
  hist : List Event
  /-- the turns to come, next one first (log 1) -/
  agenda : List Turn
  /-- how many free turns were taken (log 1) -/
  turns : Nat
  /-- how many free pixel words were read (log 7) -/
  draws : Nat
deriving DecidableEq, Repr

/-- The registers right after reset release with TICK_MS = `tick` (10_state.md R76). -/
def Regs.reset (p : Params) (tick : Word) : Regs where
  irqEn := 0
  irqPend := 0
  err := false
  errCode := .none
  dnack := false
  cmd := 0
  arg := 0
  errInfo := 0
  tstart := tick
  lastDwell := 0
  dack := 0
  score := ⟨0, 0⟩
  team := 0x00000002#32
  color1 := 0
  color2 := 0
  ledcfg := 0#3 ++ p.defaultBrightness ++ 0x020000#24
  dcfg := ⟨0, 0, 0⟩
  segbuf := 0

/-- The lines at reset (10_state.md R60, R76). -/
def Lines.reset : Lines where
  ledDat := ⟨false, false⟩
  ledClk := ⟨false, false⟩
  dclk := ⟨.z, .z, .z⟩
  ddio := ⟨.z, .z, .z⟩

/-- The block right after the step that releases RST, for given parameters and input levels (10_state.md R76,
70_reset_and_hazards.md R300, R301). -/
def State.resetWith (p : Params) (i : Inputs) : State where
  par := p
  env := { i with rst := false }
  regs := Regs.reset p i.tick
  ram := []
  lines := Lines.reset
  prev := ⟨p.sensIdle, p.sensIdle⟩
  hostSlot := none
  lfsHostReq := none
  lfsEvdReq := none
  dpeHostReq := none
  dpeEvdReq := none
  lfs := none
  dpe := none
  evd := .idle
  hwx := .idle
  tone := .idle
  hist := []
  agenda := []
  turns := 0
  draws := 0

/-- The machine right after reset: the parameters and the input levels are free (log 5, log 8). -/
def State.reset : State := State.resetWith Config.params Config.powerOn

end Sys2Proof.Machine
end

