-- ==== Sys2Proof/Machine/Operands.lean ====
section
/-! DEFINITION. Operands and wire data: fields of registers, pixel bytes and LED frames (30_encoding.md R113, R120,
R121), segment bytes (41_display_engine.md R185 to R202) and the dwell classes (42_event_dispatcher.md R230). -/

namespace Sys2Proof.Machine

open Sys2Proof

/-! ## Bytes of words -/

/-- Byte `j` of a word is bits 8j+7 to 8j (20_memory.md R88). -/
def byteOf (w : Word) (j : Nat) : Byte := w.extractLsb' (8 * j) 8

/-- The four bytes of a word in serialization order (20_memory.md R88, 30_encoding.md R120). -/
def wordBytes (w : Word) : List Byte := [byteOf w 0, byteOf w 1, byteOf w 2, byteOf w 3]

/-- The word of four bytes, byte 0 in the low bits (20_memory.md R88). -/
def wordOf (b0 b1 b2 b3 : Byte) : Word := b3 ++ b2 ++ b1 ++ b0

/-- `signed32` (00_scope.md R13). -/
def signed32 (v : Word) : Int := v.toInt

/-- The channel of a CH field; none for 3 (30_encoding.md R113). -/
def chanOf (ch : BitVec 2) : Option Chan :=
  match ch.toNat with
  | 0 => some .c0
  | 1 => some .c1
  | 2 => some .c2
  | _ => none

/-- The number of a channel. -/
def chanBits : Chan → BitVec 2
  | .c0 => 0#2
  | .c1 => 1#2
  | .c2 => 2#2

/-- The display channel of a hoop (42_event_dispatcher.md R221). -/
def hoopChan : Hoop → Chan
  | .h0 => .c0
  | .h1 => .c1

/-! ## Register fields -/

/-- LEDCFG.N_LED (10_state.md R46). -/
def nLed (r : Regs) : BitVec 10 := r.ledcfg.extractLsb' 0 10

/-- The port bit S1PORT or S2PORT: "0 software port, 1 hardware port" (10_state.md R46). -/
def stripPort (bit : Bool) : Port := if bit then .hardware else .software

/-- The port of strip 1 (10_state.md R46). -/
def s1Port (r : Regs) : Port := stripPort (r.ledcfg.getLsbD 16)

/-- The port of strip 2 (10_state.md R46). -/
def s2Port (r : Regs) : Port := stripPort (r.ledcfg.getLsbD 17)

/-- LEDCFG.DEFBRI (10_state.md R46). -/
def defBri (r : Regs) : BitVec 5 := r.ledcfg.extractLsb' 24 5

/-- DCFG[3:0], the brightness nibble of a channel (10_state.md R47). -/
def nibbleOf (r : Regs) (k : Chan) : BitVec 4 := (r.dcfg.get k).extractLsb' 0 4

/-- DCFG.BITDLY of a channel (10_state.md R47). -/
def bitDlyOf (r : Regs) (k : Chan) : BitVec 16 := (r.dcfg.get k).extractLsb' 8 16

/-- The team of a hoop, TEAM.Hh (10_state.md R43, R44). -/
def teamOf (r : Regs) : Hoop → Bool
  | .h0 => r.team.getLsbD 0
  | .h1 => r.team.getLsbD 1

/-- A colour register's [23:0]: red, green, blue (10_state.md R45). -/
def colorOf (w : Word) : BitVec 24 := w.extractLsb' 0 24

/-! ## LED frames -/

/-- A pixel word with its header forced (10_state.md R50, 20_memory.md R86). -/
def withHeader (hdr : BitVec 3) (w : Word) : Word := w.extractLsb' 8 24 ++ hdr ++ w.extractLsb' 0 5

/-- The fill word of a colour {r, g, b} (40_led_serializer.md R141). -/
def fillWord (hdr : BitVec 3) (bri : BitVec 5) (color : BitVec 24) : Word := color ++ hdr ++ bri

/-- The number of end-frame bytes, ceil(n/16) + 1 (30_encoding.md R121, 40_led_serializer.md R143, 90_conflicts.md C2). -/
def endLen (n : Nat) : Nat := (n + 15) / 16 + 1

/-- The start frame (30_encoding.md R121). -/
def startFrame : List Byte := List.replicate 4 0x00#8

/-- The end frame of `n` pixels (30_encoding.md R121). -/
def endFrame (n : Nat) : List Byte := List.replicate (endLen n) 0xFF#8

/-- The LED frame of some pixel words (30_encoding.md R121). -/
def ledFrame (ws : List Word) : List Byte := startFrame ++ ws.flatMap wordBytes ++ endFrame ws.length

/-! ## Segment bytes -/

/-- SEG(i), entry i of the digit table (41_display_engine.md R195, R196); no entry past 18. -/
def seg (rom : Vector Byte 19) (i : Nat) : Byte := if h : i < 19 then rom[i] else 0x00#8

/-- The decimal digits of a number below 10000, most significant first, no leading zeros (41_display_engine.md R199). -/
def decDigits (v : Nat) : List Nat :=
  if v < 10 then [v]
  else if v < 100 then [v / 10, v % 10]
  else if v < 1000 then [v / 100, v / 10 % 10, v % 10]
  else [v / 1000, v / 100 % 10, v / 10 % 10, v % 10]

/-- `render_num` for v ≥ 0 (41_display_engine.md R199). -/
def renderNum (rom : Vector Byte 19) (v : Nat) : List Byte :=
  if 9999 ≤ v then [seg rom 9, seg rom 9, seg rom 9, seg rom 9]
  else List.replicate (4 - (decDigits v).length) 0x00#8 ++ (decDigits v).map (seg rom)

/-- The clamp of `convert_to_clock` to 0 to 5999 seconds (41_display_engine.md R202, 90_conflicts.md C9). -/
def clampSeconds (s : Int) : Nat := if s < 1 then 0 else if 5999 < s then 5999 else s.toNat

/-- `convert_to_clock` (41_display_engine.md R202). -/
def convertToClock (rom : Vector Byte 19) (s : Int) : List Byte :=
  let c := clampSeconds s
  [seg rom (c / 60 / 10), seg rom (c / 60 % 10), seg rom (c % 60 / 10), seg rom (c % 60 % 10)]

/-- A segment byte OR'd with 0x80 when the colon is asked for (41_display_engine.md R188). -/
def withColon (colon : Bool) (b : Byte) : Byte := if colon then b ||| 0x80#8 else b

/-- The first `len` bytes of a SEGBUF copy (41_display_engine.md R198). -/
def segBytes (segbuf : Word) (len : BitVec 3) : List Byte := (wordBytes segbuf).take len.toNat

/-- The bytes of the three phases of a segment write (41_display_engine.md R185 to R188). -/
def segPhases (addr : BitVec 2) (segs : List Byte) (colon : Bool) (nibble : BitVec 4) : List (List Byte) :=
  [[0x40#8], (0xC0#8 ||| addr.setWidth 8) :: segs.map (withColon colon), [0x80#8 ||| nibble.setWidth 8]]

/-! ## Dwell -/

/-- The class of a dwell (42_event_dispatcher.md R230). -/
def pointsOf (d : Word) : Points :=
  if d.toNat < Config.dwellMin then .zero else if d.toNat < Config.dwellOne then .two else .one

/-- The number of points. -/
def Points.num : Points → Nat
  | .zero => 0
  | .one => 1
  | .two => 2

end Sys2Proof.Machine
end

