-- ==== Sys2Proof/Machine/Flags.lean ====
section
/-! DEFINITION. Flags and status words: IRQ_EN and IRQ_PEND bits, the STATUS word, the acknowledge record
(10_state.md R32 to R34, R41). -/

namespace Sys2Proof.Machine

open Sys2Proof

/-- The number of a source: sensor 0, sensor 1, timer (10_state.md R32, R33). -/
def sourceNum : Source → Nat
  | .sensor .h0 => 0
  | .sensor .h1 => 1
  | .timer => 2

/-- P<s> (10_state.md R33). -/
def pending (r : Regs) (x : Source) : Bool := r.irqPend.getLsbD (sourceNum x)

/-- EN<s> (10_state.md R32). -/
def enabled (r : Regs) (x : Source) : Bool := r.irqEn.getLsbD (sourceNum x)

/-- GIE (10_state.md R32). -/
def gie (r : Regs) : Bool := r.irqEn.getLsbD 31

/-- "Source s is dispatchable exactly when P<s> = 1, IRQ_EN.EN<s> = 1 and IRQ_EN.GIE = 1" (60_exceptions.md R272). -/
def dispatchable (r : Regs) (x : Source) : Bool := pending r x && enabled r x && gie r

/-- P<s> <- 1. -/
def setPending (r : Regs) (x : Source) : Regs := { r with irqPend := r.irqPend ||| (1#32 <<< sourceNum x) }

/-- P<s> <- 0. -/
def clearPending (r : Regs) (x : Source) : Regs := { r with irqPend := r.irqPend &&& ~~~(1#32 <<< sourceNum x) }

/-- For each source, writing 1 to its bit clears it (10_state.md R33, 20_memory.md R86). -/
def writeOneClear (r : Regs) (v : Word) : Regs := { r with irqPend := r.irqPend &&& ~~~(v &&& 0x00000007#32) }

/-- The code numbers (60_exceptions.md R261). -/
def errNum : ErrCode → BitVec 4
  | .none => 0#4
  | .illegalOp => 1#4
  | .rsvdBits => 2#4
  | .badCh => 3#4
  | .badLen => 4#4
  | .busy => 5#4
  | .unmapped => 6#4
  | .misaligned => 7#4

/-- STATUS.EVD_ACT (10_state.md R34, R71). -/
def evdAct : Evd → Bool
  | .idle => false
  | .sensor _ => true
  | .timer _ => true

/-- The source whose handler runs. -/
def evdSource : Evd → Option Source
  | .idle => none
  | .sensor r => some (.sensor r.hoop)
  | .timer _ => some .timer

/-- STATUS.EVD_SRC, 0 when no handler runs (10_state.md R34). -/
def evdSrc (e : Evd) : BitVec 2 :=
  match evdSource e with
  | none => 0#2
  | some x => BitVec.ofNat 2 (sourceNum x)

/-- STATUS.HBUSY: "1 exactly while the slot is full" (10_state.md R73). -/
def hbusy (s : State) : Bool := s.hostSlot.isSome

/-- The STATUS word, reserved bits 0, bit 31 on the left (10_state.md R34). -/
def statusWord (s : State) : Word :=
  0#15 ++ BitVec.ofBool s.regs.dnack ++ errNum s.regs.errCode ++ 0#3 ++ BitVec.ofBool s.regs.err ++ 0#2 ++
    evdSrc s.evd ++ BitVec.ofBool (evdAct s.evd) ++ BitVec.ofBool s.dpe.isSome ++ BitVec.ofBool s.lfs.isSome ++
    BitVec.ofBool (hbusy s)

/-- The number whose bit i is element i of a list. -/
def bitsNat : List Bool → Nat
  | [] => 0
  | b :: bs => b.toNat + 2 * bitsNat bs

/-- DACK of an operation on a channel: ACK, NB, CH, bit 31 on the left (10_state.md R41, 41_display_engine.md R190). -/
def dackWord (acks : List Bool) (k : Chan) : Word :=
  0#18 ++ chanBits k ++ 0#1 ++ BitVec.ofNat 3 acks.length ++ 0#1 ++ BitVec.ofNat 7 (bitsNat acks)

/-- The acknowledge record: DACK written, DNACK set if some byte was not acknowledged (41_display_engine.md R190). -/
def recordAcks (r : Regs) (acks : List Bool) (k : Chan) : Regs :=
  { r with dack := dackWord acks k, dnack := r.dnack || acks.any (fun a => !a) }

/-- The writes to STATUS: 1 to ERR clears ERR and ERRCODE, 1 to DNACK clears DNACK (10_state.md R34, 20_memory.md R86). -/
def writeStatus (r : Regs) (v : Word) : Regs :=
  { r with
    err := if v.getLsbD 8 then false else r.err
    errCode := if v.getLsbD 8 then .none else r.errCode
    dnack := if v.getLsbD 16 then false else r.dnack }

end Sys2Proof.Machine
end

