-- ==== Sys2Proof/Machine/Memory.lean ====
section
/-! DEFINITION. The pixel RAM as bytes by address (10_state.md R50, R51, 20_memory.md R92), in one canonical form:
addresses strictly rising. An unlisted byte is one nothing has written since reset; it reads as no fixed value
(log 7), so no written byte is ever left out of the list. -/

namespace Sys2Proof.Machine

open Sys2Proof

/-- What an unlisted byte reads as: no fixed value (10_state.md R51). -/
def Memory.unlisted : Option Byte := none

/-- The byte at an address, or `Memory.unlisted`. -/
def Memory.read (m : List Host.Cell) (a : Nat) : Option Byte :=
  match m with
  | [] => Memory.unlisted
  | c :: cs => if c.1 = a then some c.2 else Memory.read cs a

/-- Write one byte, keeping the addresses rising. -/
def Memory.write (m : List Host.Cell) (a : Nat) (b : Byte) : List Host.Cell :=
  match m with
  | [] => [(a, b)]
  | c :: cs =>
    if a < c.1 then (a, b) :: c :: cs
    else if a = c.1 then (a, b) :: cs
    else c :: Memory.write cs a b

/-- Every address of a list is above a bound, and they rise strictly. -/
def Memory.risesFrom (lo : Nat) (m : List Host.Cell) : Bool :=
  match m with
  | [] => true
  | c :: cs => decide (lo ≤ c.1) && Memory.risesFrom (c.1 + 1) cs

/-- The canonical form of the pixel RAM: addresses strictly rising from 0x1000 and below 0x2000, and no entry equal to
what an unlisted byte reads as. -/
def Memory.wf (m : List Host.Cell) : Bool :=
  Memory.risesFrom 0x1000 m && m.all (fun c => decide (c.1 < 0x2000)) && m.all (fun c => some c.2 ≠ Memory.unlisted)

/-- The byte address of byte 0 of pixel word `i` (10_state.md R50). -/
def pixAddr (i : Nat) : Nat := 0x1000 + 4 * i

/-- Write the four bytes of a word at a byte address, byte 0 first (20_memory.md R88). -/
def Memory.writeWord (m : List Host.Cell) (a : Nat) (w : Word) : List Host.Cell :=
  Memory.write (Memory.write (Memory.write (Memory.write m a (byteOf w 0)) (a + 1) (byteOf w 1)) (a + 2) (byteOf w 2))
    (a + 3) (byteOf w 3)

/-- Byte `j` of pixel word `i`, with the byte of a free word where nothing has written it. -/
def pixByte (m : List Host.Cell) (free : Word) (i j : Nat) : Byte :=
  (Memory.read m (pixAddr i + j)).getD (byteOf free j)

/-- Whether all four bytes of pixel word `i` have been written since reset. -/
def pixWritten (m : List Host.Cell) (i : Nat) : Bool :=
  (Memory.read m (pixAddr i)).isSome && (Memory.read m (pixAddr i + 1)).isSome &&
    (Memory.read m (pixAddr i + 2)).isSome && (Memory.read m (pixAddr i + 3)).isSome

/-- Pixel word `i` as it reads now, with HDR = P_HDR_MARKER (20_memory.md R92). -/
def pixWord (s : State) (i : Nat) : Word :=
  let f := Config.freePixel s.draws
  withHeader s.par.hdrMarker (wordOf (pixByte s.ram f i 0) (pixByte s.ram f i 1) (pixByte s.ram f i 2) (pixByte s.ram f i 3))

/-- The state after PixRead(i): a read of an unwritten word uses up one free value, nothing else changes
(20_memory.md R85, R92, log 7). -/
def afterPixRead (s : State) (i : Nat) : State :=
  if pixWritten s.ram i then s else { s with draws := s.draws + 1 }

/-- The host's write of pixel word `i`: {v[31:8], P_HDR_MARKER, v[4:0]} (20_memory.md R86). -/
def pixWrite (s : State) (i : Nat) (v : Word) : State :=
  { s with ram := Memory.writeWord s.ram (pixAddr i) (withHeader s.par.hdrMarker v) }

end Sys2Proof.Machine
end

