-- ==== Sys2Proof/Machine/Ops.lean ====
section
/-! DEFINITION. The shared operations: the event history, the error record, line actions, requests and completion,
submitting a command, dispatch and return, and reset. -/

namespace Sys2Proof.Machine

open Sys2Proof

/-- `emit(event)`: append to the line-event history (00_scope.md R14, R15). -/
def State.emit (s : State) (e : Event) : State := { s with hist := s.hist ++ [e] }

/-- The block's one exception mechanism, `raise CmdError(code, info)`: STATUS.ERR, ERRCODE and ERRINFO take the first
error since the last clear, and nothing else changes (60_exceptions.md R262). -/
def raiseError (c : ErrCode) (info : Word) (s : State) : State :=
  if s.regs.err then s
  else { s with regs := { s.regs with err := true, errCode := c, errInfo := info } }

/-! ## Line actions (00_scope.md R14) -/

/-- A push-pull line. -/
def Lines.led (l : Lines) : LedPin → LedLine
  | .dat => l.ledDat
  | .clk => l.ledClk

/-- Replace a push-pull line. -/
def Lines.setLed (l : Lines) (p : LedPin) (v : LedLine) : Lines :=
  match p with
  | .dat => { l with ledDat := v }
  | .clk => { l with ledClk := v }

/-- The state of an open-drain line. -/
def Lines.drain (l : Lines) : DspPin → Drain
  | .dclk k => l.dclk.get k
  | .ddio k => l.ddio.get k

/-- Set the state of an open-drain line. -/
def Lines.setDrain (l : Lines) (p : DspPin) (v : Drain) : Lines :=
  match p with
  | .dclk k => { l with dclk := l.dclk.set k v }
  | .ddio k => { l with ddio := l.ddio.set k v }

/-- `drive(line, lvl)`: set LVL and emit, whatever OE is (40_led_serializer.md R142, R147). -/
def driveLed (l : LedPin) (lvl : Bool) (s : State) : State :=
  ({ s with lines := s.lines.setLed l { s.lines.led l with lvl := lvl } }).emit (.drive l lvl)

/-- Set OE and emit (40_led_serializer.md R151). -/
def enableLed (l : LedPin) (s : State) : State :=
  ({ s with lines := s.lines.setLed l { s.lines.led l with oe := true } }).emit (.enable l)

/-- `pull_low(line)` (41_display_engine.md R171). -/
def pullLow (l : DspPin) (s : State) : State :=
  ({ s with lines := s.lines.setDrain l .low }).emit (.pullLow l)

/-- `release(line)` (41_display_engine.md R171). -/
def release (l : DspPin) (s : State) : State :=
  ({ s with lines := s.lines.setDrain l .z }).emit (.release l)

/-- `hold(t)`: the event carries the lower bound (00_scope.md R14, R15). -/
def holdFor (u : Engine) (us : Nat) (s : State) : State := s.emit (.hold u us)

/-- The level of a DDIO line: 0 if the block or the display pulls it low, else 1 (10_state.md R61,
41_display_engine.md R178). -/
def dioLevel (s : State) (k : Chan) : Bool :=
  match s.lines.ddio.get k with
  | .low => false
  | .z => !s.env.dioPull.get k

/-- The level of a DCLK line: the display never drives it (10_state.md R61). -/
def dclkLevel (s : State) (k : Chan) : Bool :=
  match s.lines.dclk.get k with
  | .low => false
  | .z => true

/-- The level an LED line shows outside, none while it is not driven (10_state.md R61). -/
def ledLevel (s : State) (l : LedPin) : Option Bool :=
  if (s.lines.led l).oe then some (s.lines.led l).lvl else none

/-- `tick()`: the current value of TICK_MS (00_scope.md R14, 10_state.md R62). -/
def tickNow (s : State) : Word := s.env.tick

/-- Whether SENSh is at P_SENS_IDLE (42_event_dispatcher.md R228). -/
def sensorIdle (s : State) (h : Hoop) : Bool := s.env.sens.get h.bit == s.par.sensIdle

/-! ## Requests and completion (10_state.md R72, R73) -/

/-- The EVD's `request(LFS, op)`. -/
def requestLfs (op : LfsOp) (s : State) : State := { s with lfsEvdReq := some op }

/-- The EVD's `request(DPE, op)`. -/
def requestDpe (op : DpeOp) (s : State) : State := { s with dpeEvdReq := some op }

/-- The EVD's `request(TONE, Tone(h, pts))` (10_state.md R64). -/
def requestTone (h : Hoop) (p : Points) (s : State) : State := ({ s with tone := .waiting }).emit (.tone h p.num)

/-- Telling the requester that its operation is done: the host slot empties (10_state.md R73); the EVD goes on because
nothing of its own is outstanding any more (`evdBlocked`). -/
def complete (o : Requester) (s : State) : State :=
  match o with
  | .host => { s with hostSlot := none }
  | .evd => s

/-- Whether an LFS run is for a requester. -/
def lfsRunsFor (s : State) (o : Requester) : Bool :=
  match s.lfs with
  | some r => r.owner = o
  | none => false

/-- Whether a DPE run is for a requester. -/
def dpeRunsFor (s : State) (o : Requester) : Bool :=
  match s.dpe with
  | some r => r.owner = o
  | none => false

/-- How many operations of the host wait or run. -/
def hostInFlight (s : State) : Nat :=
  s.lfsHostReq.isSome.toNat + s.dpeHostReq.isSome.toNat + (lfsRunsFor s .host).toNat + (dpeRunsFor s .host).toNat

/-- How many requests of the EVD wait or run. -/
def evdInFlight (s : State) : Nat :=
  s.lfsEvdReq.isSome.toNat + s.dpeEvdReq.isSome.toNat + (lfsRunsFor s .evd).toNat + (dpeRunsFor s .evd).toNat +
    (decide (s.tone = .waiting)).toNat

/-- "the EVD has no enabled step until unit reports the op complete" (10_state.md R72; log 30). -/
def evdBlocked (s : State) : Bool := evdInFlight s ≠ 0

/-! ## Submitting a command (60_exceptions.md R263) -/

/-- The submission of a decoded command: BUSY if the host slot is full, then the range codes of 30_encoding.md R114,
else the CMD read view and what the command does at acceptance. -/
def submitCommand (i : Instr) (s : State) (accepted : State → State) : State :=
  if s.hostSlot.isSome then raiseError .busy (encode i) s
  else match rangeError i with
    | some c => raiseError c (encode i) s
    | none => accepted { s with regs := { s.regs with cmd := encode i } }

/-- The host slot takes the word and the copies of ARG and SEGBUF (10_state.md R73). -/
def fillHostSlot (w : Word) (s : State) : State :=
  { s with hostSlot := some { word := w, arg := s.regs.arg, segbuf := s.regs.segbuf } }

/-- An accepted command for the LFS. -/
def queueLfs (w : Word) (op : LfsOp) (s : State) : State := { fillHostSlot w s with lfsHostReq := some op }

/-- An accepted command for the DPE. -/
def queueDpe (w : Word) (op : DpeOp) (s : State) : State := { fillHostSlot w s with dpeHostReq := some op }

/-! ## Dispatch and return (60_exceptions.md R274 to R276) -/

/-- The EVD at the first step of a source's handler. The locals are written before they are read. -/
def handlerOf : Source → Evd
  | .sensor h => .sensor { hoop := h, pos := .clear, tEntry := 0, tExit := 0, d := 0, pts := .zero, v := 0 }
  | .timer => .timer { pos := .clear, c2 := 0 }

/-- The arbitration: the draw if it is dispatchable, else the lowest source number that is (60_exceptions.md R275,
log 6); none if no source is dispatchable. -/
def arbitrate (r : Regs) (pick : Source) : Option Source :=
  if dispatchable r pick then some pick
  else if dispatchable r (.sensor .h0) then some (.sensor .h0)
  else if dispatchable r (.sensor .h1) then some (.sensor .h1)
  else if dispatchable r .timer then some .timer
  else none

/-- Dispatch: EVD_ACT and EVD_SRC show the handler; nothing is saved and P<s> is not cleared (60_exceptions.md R274). -/
def dispatch (x : Source) (s : State) : State := { s with evd := handlerOf x }

/-- Return: the EVD is idle, nothing is restored (60_exceptions.md R276). -/
def endHandler (s : State) : State := { s with evd := .idle }

/-! ## Reset (70_reset_and_hazards.md R300) -/

/-- Every piece of state of the block takes its reset value; the parameters, the input levels, the history and the
model's own fields stay (log 17). -/
def resetBlock (s : State) : State :=
  { State.resetWith s.par s.env with
    env := s.env, hist := s.hist, agenda := s.agenda, turns := s.turns, draws := s.draws }

end Sys2Proof.Machine
end

