-- ==== Sys2Proof/Machine/DisplayCommands.lean ====
section
/-! DEFINITION. The meanings of DSP_SEGS, DSP_NUM and DSP_CLOCK at their CMD write (60_exceptions.md R263). The
operation a command leaves in the DPE request slot is carried out by `dpeStep` (Machine/Dpe.lean), one micro-step a
turn (00_scope.md R8; log 3). -/

namespace Sys2Proof.Machine

open Sys2Proof

/-- An accepted display command on the channel of its CH field. CH = 3 never gets here (`rangeError`). -/
def queueOnChan (ch : BitVec 2) (w : Word) (op : Chan → DpeOp) (s : State) : State :=
  match chanOf ch with
  | some k => queueDpe w (op k) s
  | none => s

/-- DSP_SEGS goes to the DPE with the first LEN bytes of SEGBUF, copied now (41_display_engine.md R198, 10_state.md
R73). -/
def execDspSegs (ch addr : BitVec 2) (len : BitVec 3) (colon : Bool) (s : State) : Host.Outcome State Fault Refusal :=
  .next (submitCommand (.dspSegs ch addr len colon) s
    (queueOnChan ch (encode (.dspSegs ch addr len colon)) fun k => .segs k addr (segBytes s.regs.segbuf len) colon))

/-- DSP_NUM goes to the DPE with ARG, copied now (41_display_engine.md R200, 10_state.md R73). -/
def execDspNum (ch : BitVec 2) (s : State) : Host.Outcome State Fault Refusal :=
  .next (submitCommand (.dspNum ch) s (queueOnChan ch (encode (.dspNum ch)) fun k => .num k s.regs.arg))

/-- DSP_CLOCK goes to the DPE with ARG, copied now (41_display_engine.md R201, 10_state.md R73). -/
def execDspClock (ch : BitVec 2) (colon : Bool) (s : State) : Host.Outcome State Fault Refusal :=
  .next (submitCommand (.dspClock ch colon) s
    (queueOnChan ch (encode (.dspClock ch colon)) fun k => .clock k s.regs.arg colon))

end Sys2Proof.Machine
end

