-- ==== Sys2Proof/Machine/LedCommands.lean ====
section
/-! DEFINITION. The meanings of NOP, LED_INIT, LED_TX and LED_FILL at their CMD write (60_exceptions.md R263). The
operation a command leaves in the LFS request slot is carried out by `lfsStep` (Machine/Lfs.lean), one micro-step a
turn (00_scope.md R8; log 3). -/

namespace Sys2Proof.Machine

open Sys2Proof

/-- NOP completes at acceptance: only the CMD read view changes (40_led_serializer.md R150). -/
def execNop (s : State) : Host.Outcome State Fault Refusal :=
  .next (submitCommand .nop s id)

/-- LED_INIT goes to the LFS (40_led_serializer.md R151). -/
def execLedInit (s : State) : Host.Outcome State Fault Refusal :=
  .next (submitCommand .ledInit s (queueLfs (encode .ledInit) .init))

/-- LED_TX goes to the LFS with S and N (40_led_serializer.md R152). -/
def execLedTx (port : Port) (n : BitVec 10) (s : State) : Host.Outcome State Fault Refusal :=
  .next (submitCommand (.ledTx port n) s (queueLfs (encode (.ledTx port n)) (.tx port n)))

/-- LED_FILL goes to the LFS with S, N and the colour ARG[23:0], copied now (40_led_serializer.md R153, 10_state.md
R73). -/
def execLedFill (port : Port) (n : BitVec 10) (s : State) : Host.Outcome State Fault Refusal :=
  .next (submitCommand (.ledFill port n) s
    (queueLfs (encode (.ledFill port n)) (.fill port n (colorOf s.regs.arg))))

end Sys2Proof.Machine
end

