-- ==== Sys2Proof/Machine/Dispatch.lean ====
section
/-! DEFINITION. What each command does at its CMD write: one arm per row of the opcode table. -/

namespace Sys2Proof.Machine

open Sys2Proof

-- One direct call of a meaning per constructor (30_encoding.md R111).
def exec (i : Instr) (s : State) : Host.Outcome State Fault Refusal :=
  match i with
  | .nop => Sys2Proof.Machine.execNop s
  | .ledInit => Sys2Proof.Machine.execLedInit s
  | .ledTx port n => Sys2Proof.Machine.execLedTx port n s
  | .ledFill port n => Sys2Proof.Machine.execLedFill port n s
  | .dspSegs ch addr len colon => Sys2Proof.Machine.execDspSegs ch addr len colon s
  | .dspNum ch => Sys2Proof.Machine.execDspNum ch s
  | .dspClock ch colon => Sys2Proof.Machine.execDspClock ch colon s

end Sys2Proof.Machine
end

