-- ==== Sys2Proof/Machine/Bus.lean ====
section
/-! DEFINITION. The host bus (20_memory.md R80 to R92): the address map, MemRead, MemWrite, and the submission of a
command word (60_exceptions.md R263). -/

namespace Sys2Proof.Machine

open Sys2Proof

/-- The registers of the map (20_memory.md R81). -/
inductive RegName where
  | id
  | irqEn
  | irqPend
  | status
  | cmd
  | arg
  | errInfo
  | tick
  | tstart
  | lastDwell
  | dack
  | score0
  | score1
  | team
  | color1
  | color2
  | ledcfg
  | dcfg (k : Chan)
  | segbuf
  | segrom (j : Fin 5)
deriving DecidableEq, Repr

/-- What a word address is (20_memory.md R81, R82). -/
inductive Target where
  | reg (r : RegName)
  | pixel (i : Nat)
  | reserved
deriving DecidableEq, Repr

/-- The offset of CMD. -/
def cmdAddr : Addr := 0x010#16

/-- The address map, by word-aligned offset (20_memory.md R81). -/
def targetOf (a : Addr) : Target :=
  match a.toNat with
  | 0x000 => .reg .id
  | 0x004 => .reg .irqEn
  | 0x008 => .reg .irqPend
  | 0x00C => .reg .status
  | 0x010 => .reg .cmd
  | 0x014 => .reg .arg
  | 0x018 => .reg .errInfo
  | 0x01C => .reg .tick
  | 0x020 => .reg .tstart
  | 0x024 => .reg .lastDwell
  | 0x028 => .reg .dack
  | 0x040 => .reg .score0
  | 0x044 => .reg .score1
  | 0x048 => .reg .team
  | 0x04C => .reg .color1
  | 0x050 => .reg .color2
  | 0x054 => .reg .ledcfg
  | 0x060 => .reg (.dcfg .c0)
  | 0x064 => .reg (.dcfg .c1)
  | 0x068 => .reg (.dcfg .c2)
  | 0x070 => .reg .segbuf
  | 0x080 => .reg (.segrom 0)
  | 0x084 => .reg (.segrom 1)
  | 0x088 => .reg (.segrom 2)
  | 0x08C => .reg (.segrom 3)
  | 0x090 => .reg (.segrom 4)
  | n => if 0x1000 ≤ n ∧ n < 0x2000 then .pixel ((n - 0x1000) / 4) else .reserved

/-- addr[1:0] ≠ 0 (20_memory.md R84). -/
def misaligned (a : Addr) : Bool := a.extractLsb' 0 2 ≠ 0#2

/-- SEGROM<j>: bytes 4j to 4j+3 of the digit table, 0 past its end (10_state.md R49). -/
def segromWord (rom : Vector Byte 19) (j : Fin 5) : Word :=
  wordOf (seg rom (4 * j.val)) (seg rom (4 * j.val + 1)) (seg rom (4 * j.val + 2)) (seg rom (4 * j.val + 3))

/-- The bits of a register that hold RW, RO or W1C fields; the others are RO0 (10_state.md R32 to R52). -/
def fieldMask : RegName → Word
  | .irqEn => 0x80000007#32
  | .irqPend => 0x00000007#32
  | .dack => 0x0000377F#32
  | .team => 0x00000003#32
  | .color1 => 0x00FFFFFF#32
  | .color2 => 0x00FFFFFF#32
  | .ledcfg => 0x1F0303FF#32
  | .dcfg _ => 0x00FFFF0F#32
  | .status => 0x0001F13F#32
  | .id => 0xFFFFFFFF#32
  | .cmd => 0xFFFFFFFF#32
  | .arg => 0xFFFFFFFF#32
  | .errInfo => 0xFFFFFFFF#32
  | .tick => 0xFFFFFFFF#32
  | .tstart => 0xFFFFFFFF#32
  | .lastDwell => 0xFFFFFFFF#32
  | .score0 => 0xFFFFFFFF#32
  | .score1 => 0xFFFFFFFF#32
  | .segbuf => 0xFFFFFFFF#32
  | .segrom _ => 0xFFFFFFFF#32

/-- What a register holds or shows (10_state.md R31 to R52). -/
def regValue (r : RegName) (s : State) : Word :=
  match r with
  | .id => 0x4D420007#32
  | .irqEn => s.regs.irqEn
  | .irqPend => s.regs.irqPend
  | .status => statusWord s
  | .cmd => s.regs.cmd
  | .arg => s.regs.arg
  | .errInfo => s.regs.errInfo
  | .tick => tickNow s
  | .tstart => s.regs.tstart
  | .lastDwell => s.regs.lastDwell
  | .dack => s.regs.dack
  | .score0 => s.regs.score.x0
  | .score1 => s.regs.score.x1
  | .team => s.regs.team
  | .color1 => s.regs.color1
  | .color2 => s.regs.color2
  | .ledcfg => s.regs.ledcfg
  | .dcfg k => s.regs.dcfg.get k
  | .segbuf => s.regs.segbuf
  | .segrom j => segromWord s.par.segRom j

/-- A register read: "with every RO0 field as 0" (20_memory.md R85). -/
def readReg (r : RegName) (s : State) : Word := regValue r s &&& fieldMask r

/-- MemRead(addr, 4): the value (20_memory.md R85). -/
def memReadValue (a : Addr) (s : State) : Word :=
  if misaligned a then 0#32
  else match targetOf a with
    | .reserved => 0#32
    | .pixel i => pixWord s i
    | .reg r => readReg r s

/-- MemRead(addr, 4): the state after it; a bus error is recorded, nothing else of the block changes (20_memory.md
R82, R84, R85). -/
def afterMemRead (a : Addr) (s : State) : State :=
  if misaligned a then raiseError .misaligned (a.setWidth 32) s
  else match targetOf a with
    | .reserved => raiseError .unmapped (a.setWidth 32) s
    | .pixel i => afterPixRead s i
    | .reg _ => s

/-- The host's read with its event (20_memory.md R85; log 12). -/
def hostRead (a : Addr) (s : State) : State := (afterMemRead a s).emit (.regRead a (memReadValue a s))

/-- A host write of CMD: BUSY before decoding, then the decoder's rejection, then the command's meaning
(60_exceptions.md R263, R264). -/
def submit (w : Word) (s : State) : Host.Outcome State Fault Refusal :=
  if s.hostSlot.isSome then .next (raiseError .busy w s)
  else match decode w with
    | .reject c => .next (raiseError c w s)
    | .command i => exec i s

/-- A write of a register other than CMD (20_memory.md R86): "every RW field <- the same bits of v". -/
def writeReg (r : RegName) (v : Word) (s : State) : State :=
  match r with
  | .irqEn => { s with regs := { s.regs with irqEn := v &&& fieldMask .irqEn } }
  | .irqPend => { s with regs := writeOneClear s.regs v }
  | .status => { s with regs := writeStatus s.regs v }
  | .arg => { s with regs := { s.regs with arg := v } }
  | .tstart => { s with regs := { s.regs with tstart := v } }
  | .score0 => { s with regs := { s.regs with score := s.regs.score.set false v } }
  | .score1 => { s with regs := { s.regs with score := s.regs.score.set true v } }
  | .team => { s with regs := { s.regs with team := v &&& fieldMask .team } }
  | .color1 => { s with regs := { s.regs with color1 := v &&& fieldMask .color1 } }
  | .color2 => { s with regs := { s.regs with color2 := v &&& fieldMask .color2 } }
  | .ledcfg => { s with regs := { s.regs with ledcfg := v &&& fieldMask .ledcfg } }
  | .dcfg k => { s with regs := { s.regs with dcfg := s.regs.dcfg.set k (v &&& fieldMask (.dcfg k)) } }
  | .segbuf => { s with regs := { s.regs with segbuf := v } }
  | .id => s
  | .errInfo => s
  | .tick => s
  | .lastDwell => s
  | .dack => s
  | .segrom _ => s
  | .cmd => s

/-- MemWrite(addr, 4, v) (20_memory.md R86). -/
def memWrite (a : Addr) (v : Word) (s : State) : Host.Outcome State Fault Refusal :=
  if misaligned a then .next (raiseError .misaligned (a.setWidth 32) s)
  else match targetOf a with
    | .reserved => .next (raiseError .unmapped (a.setWidth 32) s)
    | .pixel i => .next (pixWrite s i v)
    | .reg .cmd => submit v s
    | .reg r => .next (writeReg r v s)

/-- The host's write with its event (20_memory.md R86; log 12). -/
def hostWrite (a : Addr) (v : Word) (s : State) : Host.Outcome State Fault Refusal :=
  memWrite a v (s.emit (.regWrite a v))

/-- One host access. -/
def hostAccess (acc : Access) (s : State) : Host.Outcome State Fault Refusal :=
  match acc with
  | .read a => .next (hostRead a s)
  | .write a v => hostWrite a v s

end Sys2Proof.Machine
end

