-- ==== Sys2Proof/Machine/Dpe.lean ====
section
/-! DEFINITION. The two-wire display protocol engine (41_display_engine.md): the micro-steps of its operations and its
step. -/

namespace Sys2Proof.Machine

open Sys2Proof

/-- Start(k) (41_display_engine.md R172). -/
def startActs : List DpeAct := [.relDio, .hold, .pullDio, .hold, .pullClk, .hold]

/-- One bit of SendBits(k, b): 1 released, 0 pulled low (41_display_engine.md R173). -/
def dspBitActs (b : Bool) : List DpeAct := [.pullClk, if b then .relDio else .pullDio, .hold, .relClk, .hold]

/-- SendBits(k, b), bit 0 first (41_display_engine.md R173, 30_encoding.md R124). -/
def sendBitsActs (b : Byte) : List DpeAct :=
  dspBitActs (b.getLsbD 0) ++ dspBitActs (b.getLsbD 1) ++ dspBitActs (b.getLsbD 2) ++ dspBitActs (b.getLsbD 3) ++
    dspBitActs (b.getLsbD 4) ++ dspBitActs (b.getLsbD 5) ++ dspBitActs (b.getLsbD 6) ++ dspBitActs (b.getLsbD 7)

/-- Ack(k) (41_display_engine.md R174). -/
def ackActs : List DpeAct := [.pullClk, .relDio, .hold, .relClk, .hold, .sample]

/-- WriteByte(k, b) (41_display_engine.md R176). -/
def writeByteActs (b : Byte) : List DpeAct := sendBitsActs b ++ ackActs

/-- Stop(k) (41_display_engine.md R175). -/
def stopActs : List DpeAct := [.pullClk, .pullDio, .hold, .relClk, .hold, .relDio, .hold]

/-- Phase(k, bytes) (41_display_engine.md R177). -/
def phaseActs (bytes : List Byte) : List DpeAct := startActs ++ bytes.flatMap writeByteActs ++ stopActs

/-- SetSegments: its three phases, then the acknowledge record (41_display_engine.md R185). -/
def segWriteActs (addr : BitVec 2) (segs : List Byte) (colon : Bool) (nibble : BitVec 4) : List DpeAct :=
  (segPhases addr segs colon nibble).flatMap phaseActs ++ [.record]

/-- The micro-steps of an operation, the nibble being the copy taken at its start. A negative number sends nothing
(41_display_engine.md R198, R200, R201; log 14). -/
def dpeActs (rom : Vector Byte 19) (nibble : BitVec 4) : DpeOp → List DpeAct
  | .segs _ addr bytes colon => segWriteActs addr bytes colon nibble
  | .num _ v =>
    if signed32 v < 0 then [.skip] else segWriteActs 0#2 (renderNum rom (signed32 v).toNat) false nibble
  | .clock _ s colon => segWriteActs 0#2 (convertToClock rom (signed32 s)) colon nibble

/-- The channel of an operation. -/
def dpeChan : DpeOp → Chan
  | .segs k _ _ _ => k
  | .num k _ => k
  | .clock k _ _ => k

/-- The DPE starts an operation: DCFG of its channel is copied, no line moves (10_state.md R72, R74,
41_display_engine.md R170). -/
def dpeStart (op : DpeOp) (o : Requester) (s : State) : State :=
  { s with
    dpe := some
      { op := op, owner := o, chan := dpeChan op, bitDly := bitDlyOf s.regs (dpeChan op),
        todo := dpeActs s.par.segRom (nibbleOf s.regs (dpeChan op)) op, acks := [] } }

/-- After a micro-step: the DPE goes on, or it is idle and tells the requester (41_display_engine.md R192). -/
def dpeAdvance (r : DpeRun) (rest : List DpeAct) (s : State) : State :=
  match rest with
  | [] => complete r.owner { s with dpe := none }
  | a :: as => { s with dpe := some { r with todo := a :: as } }

/-- The next micro-step of a busy DPE. -/
def dpeMicro (r : DpeRun) (s : State) : State :=
  match r.todo with
  | [] => complete r.owner { s with dpe := none }
  | .pullClk :: rest => dpeAdvance r rest (pullLow (.dclk r.chan) s)
  | .pullDio :: rest => dpeAdvance r rest (pullLow (.ddio r.chan) s)
  | .relClk :: rest => dpeAdvance r rest (release (.dclk r.chan) s)
  | .relDio :: rest => dpeAdvance r rest (release (.ddio r.chan) s)
  | .hold :: rest => dpeAdvance r rest (holdFor .dpe r.bitDly.toNat s)
  | .sample :: rest =>
    dpeAdvance { r with acks := r.acks ++ [!dioLevel s r.chan] } rest
      (s.emit (.sample (.ddio r.chan) (dioLevel s r.chan)))
  | .record :: rest => dpeAdvance r rest { s with regs := recordAcks s.regs r.acks r.chan }
  | .skip :: rest => dpeAdvance r rest s

/-- One turn of the DPE: "the EVD slot if full, else the host slot" (10_state.md R72, 41_display_engine.md R170). An idle
DPE with no request has no step (log 4). -/
def dpeStep (s : State) : State :=
  match s.dpe with
  | some r => dpeMicro r s
  | none =>
    match s.dpeEvdReq with
    | some op => dpeStart op .evd { s with dpeEvdReq := none }
    | none =>
      match s.dpeHostReq with
      | some op => dpeStart op .host { s with dpeHostReq := none }
      | none => s

/-- `k` DPE turns with nothing between them. -/
def dpeSteps : Nat → State → State
  | 0, s => s
  | k + 1, s => dpeSteps k (dpeStep s)

end Sys2Proof.Machine
end

