-- ==== Sys2Proof/Machine/Env.lean ====
section
/-! DEFINITION. What ENV does to the block's inputs, and the edge detector (00_scope.md R8, 10_state.md R75,
60_exceptions.md R270, R271, 70_reset_and_hazards.md R300). -/

namespace Sys2Proof.Machine

open Sys2Proof

/-- A pulse on TMR_EVT: "sets P2 <- 1, whatever IRQ_EN holds" (60_exceptions.md R271). -/
def timerPulse (s : State) : State := { s with regs := setPending s.regs .timer }

/-- HwDone completes an outstanding hand-off; one that arrives while none is outstanding is ignored (10_state.md R63,
70_reset_and_hazards.md R300; log 16). That the late completion of a hand-off abandoned by reset, when it arrives while a
new one is outstanding, completes the new one is the model's choice (log 32). -/
def hwDone (s : State) : State :=
  match s.hwx with
  | .waiting => ({ s with hwx := .idle }).emit .hwDone
  | .idle => s

/-- ToneDone completes an outstanding tone; one that arrives while none is outstanding is ignored (10_state.md R64,
70_reset_and_hazards.md R300; log 16). The late completion of a tone abandoned by reset is taken for that of a new one as
in `hwDone`, the model's choice (log 32). -/
def toneDone (s : State) : State :=
  match s.tone with
  | .waiting => ({ s with tone := .idle }).emit .toneDone
  | .idle => s

/-- RST asserted: every piece of state takes its reset value at once (70_reset_and_hazards.md R300). -/
def assertReset (s : State) : State := resetBlock { s with env := { s.env with rst := true } }

/-- RST released: TICK_MS is read once into TSTART (70_reset_and_hazards.md R300, 10_state.md R39). -/
def releaseReset (s : State) : State :=
  if s.env.rst then
    { s with env := { s.env with rst := false }, regs := { s.regs with tstart := s.env.tick } }
  else s

/-- One thing ENV does. While RST is asserted a pulse or a completion finds the block in reset and does nothing. -/
def envApply (e : EnvEvent) (s : State) : State :=
  match e with
  | .tick ms => { s with env := { s.env with tick := s.env.tick + ms } }
  | .sensor h lvl => { s with env := { s.env with sens := s.env.sens.set h.bit lvl } }
  | .timerPulse => if s.env.rst then s else timerPulse s
  | .display k pull => { s with env := { s.env with dioPull := s.env.dioPull.set k pull } }
  | .hwDone => if s.env.rst then s else hwDone s
  | .toneDone => if s.env.rst then s else toneDone s
  | .rst true => assertReset s
  | .rst false => releaseReset s

/-- A change from P_SENS_IDLE to the other level on the sensor line of a hoop (60_exceptions.md R270). -/
def sensorEdge (h : Hoop) (s : State) : Bool :=
  s.prev.get h.bit == s.par.sensIdle && s.env.sens.get h.bit != s.par.sensIdle

/-- The edge detector of one hoop: an edge sets P<h>, and PREV<h> follows the line (60_exceptions.md R270). -/
def observeHoop (h : Hoop) (s : State) : State :=
  { s with
    regs := { s.regs with
      irqPend := if sensorEdge h s then (setPending s.regs (.sensor h)).irqPend else s.regs.irqPend }
    prev := s.prev.set h.bit (s.env.sens.get h.bit) }

/-- The edge detectors of both hoops. -/
def observe (s : State) : State := observeHoop .h1 (observeHoop .h0 s)

/-- An observation of the sensor lines; none is made while RST is asserted, so that PREV stays P_SENS_IDLE
(70_reset_and_hazards.md R300, R303). -/
def observeLines (s : State) : State := if s.env.rst then s else observe s

/-- Whether an event is one of RST. -/
def isReset : EnvEvent → Bool
  | .tick _ => false
  | .sensor _ _ => false
  | .timerPulse => false
  | .display _ _ => false
  | .hwDone => false
  | .toneDone => false
  | .rst _ => true

/-- One thing ENV does, with the lines observed before and after it, so that every change is seen (60_exceptions.md R270).
The observation before it finds no change but a level that was active at reset release; right after an event of RST none
is made, so that nothing is pending right after release and the next observation is the first one
(70_reset_and_hazards.md R301, R303; log 17). -/
def envStep (e : EnvEvent) (s : State) : State :=
  let t := envApply e (observeLines s)
  if isReset e then t else observeLines t

/-- All ENV does in a turn, in order. -/
def envApplyAll (es : List EnvEvent) (s : State) : State :=
  match es with
  | [] => s
  | e :: rest => envApplyAll rest (envStep e s)

/-- The end of a turn: an observation of the sensor lines, then ENV's events. The agent's effect came before, so a clear
and a set in one step end at 1 (10_state.md R33; log 10). -/
def endTurn (es : List EnvEvent) (s : State) : State := envApplyAll es (observeLines s)

end Sys2Proof.Machine
end

