-- ==== Sys2Proof/Machine/Evd.lean ====
section
/-! DEFINITION. The event dispatcher and its two handlers (42_event_dispatcher.md, 60_exceptions.md R274 to R276). Each
numbered step of a handler is one EVD step, and so is its `end` (log 13). -/

namespace Sys2Proof.Machine

open Sys2Proof

/-- One step of the sensor handler (42_event_dispatcher.md R225 to R232). -/
def sensorStep (r : SensorRun) (s : State) : State :=
  match r.pos with
  | .clear => { s with regs := clearPending s.regs (.sensor r.hoop), evd := .sensor { r with pos := .settle } }
  | .settle =>
    if (tickNow s - s.regs.tstart).toNat < s.par.settleMs then
      { s with evd := .sensor { r with tEntry := tickNow s, pos := .finish } }
    else { s with evd := .sensor { r with tEntry := tickNow s, pos := .await } }
  | .await =>
    if sensorIdle s r.hoop then { s with evd := .sensor { r with tExit := tickNow s, pos := .dwell } } else s
  | .dwell =>
    { s with
      regs := { s.regs with lastDwell := r.tExit - r.tEntry },
      evd := .sensor { r with d := r.tExit - r.tEntry, pos := .classify } }
  | .classify =>
    { s with
      evd := .sensor { r with pts := pointsOf r.d, pos := if pointsOf r.d = .zero then .finish else .score } }
  | .score =>
    let t := teamOf s.regs r.hoop
    let v := s.regs.score.get t + BitVec.ofNat 32 r.pts.num
    { s with regs := { s.regs with score := s.regs.score.set t v }, evd := .sensor { r with v := v, pos := .tone } }
  | .tone => requestTone r.hoop r.pts { s with evd := .sensor { r with pos := .render } }
  | .render => requestDpe (.num (hoopChan r.hoop) r.v) { s with evd := .sensor { r with pos := .finish } }
  | .finish => endHandler s

/-- The colours of strip 1 and strip 2, keyed on TEAM.H0 (42_event_dispatcher.md R238). -/
def stripColors (r : Regs) : Word × Word :=
  if teamOf r .h0 then (r.color2, r.color1) else (r.color1, r.color2)

/-- One step of the timer handler (42_event_dispatcher.md R235 to R240). -/
def timerStep (r : TimerRun) (s : State) : State :=
  match r.pos with
  | .clear => { s with regs := clearPending s.regs .timer, evd := .timer { r with pos := .flip } }
  | .flip =>
    { s with regs := { s.regs with team := s.regs.team ^^^ 0x00000003#32 }, evd := .timer { r with pos := .strip1 } }
  | .strip1 =>
    requestLfs (.fill (s1Port s.regs) (nLed s.regs) (colorOf (stripColors s.regs).1))
      { s with evd := .timer { pos := .strip2, c2 := (stripColors s.regs).2 } }
  | .strip2 =>
    requestLfs (.fill (s2Port s.regs) (nLed s.regs) (colorOf r.c2)) { s with evd := .timer { r with pos := .render0 } }
  | .render0 =>
    requestDpe (.num .c0 (s.regs.score.get (teamOf s.regs .h0))) { s with evd := .timer { r with pos := .render1 } }
  | .render1 =>
    requestDpe (.num .c1 (s.regs.score.get (teamOf s.regs .h1))) { s with evd := .timer { r with pos := .finish } }
  | .finish => endHandler s

/-- One turn of the EVD: dispatch when idle, else the running handler's next step unless a request of it is outstanding
(10_state.md R72, 60_exceptions.md R274, R275). `pick` is the arbitration's draw. -/
def evdStep (pick : Source) (s : State) : State :=
  match s.evd with
  | .idle =>
    match arbitrate s.regs pick with
    | some x => dispatch x s
    | none => s
  | .sensor r => if evdBlocked s then s else sensorStep r s
  | .timer r => if evdBlocked s then s else timerStep r s

/-- `k` EVD turns with nothing between them. -/
def evdSteps (pick : Source) : Nat → State → State
  | 0, s => s
  | k + 1, s => evdSteps pick k (evdStep pick s)

end Sys2Proof.Machine
end

