-- ==== Sys2Proof/Machine/Lfs.lean ====
section
/-! DEFINITION. The LED-frame serializer (40_led_serializer.md): the micro-steps of its operations and its step. -/

namespace Sys2Proof.Machine

open Sys2Proof

/-- One bit on the software port: two line actions, a hold, a line action, a hold, as the pseudocode of
40_led_serializer.md R142 and the event list of V20 have them. R142's "four steps and two holds" and V20's "32 drive
events" for a byte do not agree with those; that three line actions are taken is the model's choice (DEDUCED, log 31). -/
def ledBitActs (b : Bool) : List LfsAct := [.drive .dat b, .drive .clk true, .hold, .drive .clk false, .hold]

/-- SendByteSW(b), bit 7 first (40_led_serializer.md R142, 30_encoding.md R122). -/
def ledByteActs (b : Byte) : List LfsAct :=
  ledBitActs (b.getLsbD 7) ++ ledBitActs (b.getLsbD 6) ++ ledBitActs (b.getLsbD 5) ++ ledBitActs (b.getLsbD 4) ++
    ledBitActs (b.getLsbD 3) ++ ledBitActs (b.getLsbD 2) ++ ledBitActs (b.getLsbD 1) ++ ledBitActs (b.getLsbD 0)

/-- SendFrameSW: the start frame, the pixels in order, the end frame (40_led_serializer.md R143). -/
def frameActsSw (n : Nat) : List LfsAct :=
  startFrame.flatMap ledByteActs ++ (List.range n).map .sendPixel ++ (endFrame n).flatMap ledByteActs

/-- SendFrameHW: the pixels in order, the hand-off, the wait (40_led_serializer.md R144). -/
def frameActsHw (n : Nat) : List LfsAct := (List.range n).map .packPixel ++ [.handOver n, .awaitDone]

/-- The micro-steps of a frame on a port. -/
def frameActs (p : Port) (n : BitVec 10) : List LfsAct :=
  match p with
  | .software => frameActsSw n.toNat
  | .hardware => frameActsHw n.toNat

/-- LED_INIT: both levels to 0, then both outputs enabled (40_led_serializer.md R151). -/
def ledInitActs : List LfsAct := [.drive .dat false, .drive .clk false, .enable .dat, .enable .clk]

/-- The micro-steps of an operation. -/
def lfsActs : LfsOp → List LfsAct
  | .init => ledInitActs
  | .tx p n => frameActs p n
  | .fill p n _ => frameActs p n

/-- The pixel source of an operation; a fill's word holds the DEFBRI copy taken at its start (40_led_serializer.md R141,
10_state.md R74). LED_INIT reads none. -/
def lfsSrc (s : State) : LfsOp → PixSrc
  | .init => .ram
  | .tx _ _ => .ram
  | .fill _ _ c => .fill (fillWord s.par.hdrMarker (defBri s.regs) c)

/-- The LFS starts an operation: copies are taken, no line moves (10_state.md R72, R74, 40_led_serializer.md R140). -/
def lfsStart (op : LfsOp) (o : Requester) (s : State) : State :=
  { s with lfs := some { op := op, owner := o, src := lfsSrc s op, todo := lfsActs op, frame := startFrame } }

/-- After a micro-step: the LFS goes on, or it is idle and tells the requester (40_led_serializer.md R148). -/
def lfsAdvance (r : LfsRun) (rest : List LfsAct) (s : State) : State :=
  match rest with
  | [] => complete r.owner { s with lfs := none }
  | a :: as => { s with lfs := some { r with todo := a :: as } }

/-- "pixel i of src" (40_led_serializer.md R143): a fill source reads no RAM (R145). -/
def srcWord (src : PixSrc) (i : Nat) (s : State) : Word :=
  match src with
  | .ram => pixWord s i
  | .fill w => w

/-- The state after a pixel was taken. -/
def afterSrcRead (src : PixSrc) (i : Nat) (s : State) : State :=
  match src with
  | .ram => afterPixRead s i
  | .fill _ => s

/-- The next micro-step of a busy LFS. `awaitDone` has no step while the hand-off is outstanding (40_led_serializer.md
R144, R148). -/
def lfsMicro (r : LfsRun) (s : State) : State :=
  match r.todo with
  | [] => complete r.owner { s with lfs := none }
  | .drive l v :: rest => lfsAdvance r rest (driveLed l v s)
  | .enable l :: rest => lfsAdvance r rest (enableLed l s)
  | .hold :: rest => lfsAdvance r rest (holdFor .lfs Config.ledHoldUs s)
  | .sendPixel i :: rest =>
    lfsAdvance r ((wordBytes (srcWord r.src i s)).flatMap ledByteActs ++ rest) (afterSrcRead r.src i s)
  | .packPixel i :: rest =>
    lfsAdvance { r with frame := r.frame ++ wordBytes (srcWord r.src i s) } rest (afterSrcRead r.src i s)
  | .handOver n :: rest =>
    lfsAdvance { r with frame := r.frame ++ endFrame n } rest
      (({ s with hwx := .waiting }).emit (.hwXfer (r.frame ++ endFrame n)))
  | .awaitDone :: rest => if s.hwx = .idle then lfsAdvance r rest s else s

/-- One turn of the LFS: "the EVD slot if full, else the host slot" (10_state.md R72, 40_led_serializer.md R140). An idle
LFS with no request has no step (log 4). -/
def lfsStep (s : State) : State :=
  match s.lfs with
  | some r => lfsMicro r s
  | none =>
    match s.lfsEvdReq with
    | some op => lfsStart op .evd { s with lfsEvdReq := none }
    | none =>
      match s.lfsHostReq with
      | some op => lfsStart op .host { s with lfsHostReq := none }
      | none => s

/-- `k` LFS turns with nothing between them. -/
def lfsSteps : Nat → State → State
  | 0, s => s
  | k + 1, s => lfsSteps k (lfsStep s)

end Sys2Proof.Machine
end

