-- ==== Sys2Proof/Machine/Turn.lean ====
section
/-! DEFINITION. One turn: the agent that steps, then what ENV does at that step (00_scope.md R8, 20_memory.md R94; log 1,
log 10). -/

namespace Sys2Proof.Machine

open Sys2Proof

/-- The agent's step. -/
def moveStep (m : Move) (s : State) : Host.Outcome State Fault Refusal :=
  match m with
  | .host acc => hostAccess acc s
  | .evd pick => .next (evdStep pick s)
  | .lfs => .next (lfsStep s)
  | .dpe => .next (dpeStep s)
  | .env => .next s

/-- Go on with the state of an outcome that has one. -/
def andThen (o : Host.Outcome State Fault Refusal) (f : State → State) : Host.Outcome State Fault Refusal :=
  match o with
  | .next s => .next (f s)
  | .fault r => .fault r
  | .refused r => .refused r

/-- Whether a move is a host access. -/
def isHostMove : Move → Bool
  | .host _ => true
  | .evd _ => false
  | .lfs => false
  | .dpe => false
  | .env => false

/-- A turn. While RST is asserted no agent of the block has a step and the state stays at its reset values
(70_reset_and_hazards.md R300); a host access then is not part of the model (R302). -/
def runTurn (t : Turn) (s : State) : Host.Outcome State Fault Refusal :=
  if s.env.rst then
    if isHostMove t.move then .fault .hostAccessInReset
    else .next (endTurn t.events (resetBlock s))
  else andThen (moveStep t.move s) (endTurn t.events)

/-- The turn that comes next: the first of the agenda, or a free one (log 1). -/
def nextTurn (s : State) : Turn :=
  match s.agenda with
  | t :: _ => t
  | [] => Config.freeTurn s.turns

/-- The state with that turn taken off. -/
def popTurn (s : State) : State :=
  match s.agenda with
  | _ :: ts => { s with agenda := ts }
  | [] => { s with turns := s.turns + 1 }

/-- The state whose next turn is a host write of a word to CMD, RST not asserted (log 2). -/
def placeCommand (w : Word) (s : State) : State :=
  { s with
    env := { s.env with rst := false },
    agenda := { move := .host (.write cmdAddr w), events := [] } :: s.agenda }

end Sys2Proof.Machine
end

