-- ==== Sys2Proof/Machine/Step.lean ====
section
/-! DEFINITION. One step of the machine: the next turn (log 1). -/

namespace Sys2Proof.Machine

open Sys2Proof

/-- One step: the next turn is taken off and run. -/
def step (s : State) : Host.Outcome State Fault Refusal := runTurn (nextTurn s) (popTurn s)

/-- The state whose very next step submits the table's word: a host write of it to CMD (10_state.md R35, log 2). -/
def State.withFetchWord (s : State) (nbits w : Nat) : State := placeCommand (BitVec.ofNat 32 (w % 2 ^ nbits)) s

end Sys2Proof.Machine
end

