-- ==== Sys2Proof/Machine/HostNotation.lean ====
section
/-! DEFINITION. The bus forms of the host-program notation and its pseudo-instructions (30_encoding.md R127, R128). The
host's own control flow (`jmp`, `jlt`, `let`) is "outside this block". -/

namespace Sys2Proof.Machine

open Sys2Proof

/-- The forms that access the bus (30_encoding.md R127); `cmd` is a write of CMD. -/
inductive HostForm where
  | wr (a : Addr) (v : Word)
  | rd (a : Addr)
  | poll (a : Addr) (mask value : Word)
deriving DecidableEq, Repr

/-- `cmd <command>` is `wr 0x010, <word of command>` (30_encoding.md R127). -/
def cmdForm (i : Instr) : HostForm := .wr cmdAddr (encode i)

/-- The access one host step of a form makes: "each read is one host step" (30_encoding.md R127). -/
def HostForm.access : HostForm → Access
  | .wr a v => .write a v
  | .rd a => .read a
  | .poll a _ _ => .read a

/-- Whether a form is done after an access that returned `v`. -/
def HostForm.done (f : HostForm) (v : Word) : Bool :=
  match f with
  | .wr _ _ => true
  | .rd _ => true
  | .poll _ mask value => v &&& mask = value

/-- `wait.idle` (30_encoding.md R128). -/
def waitIdle : List HostForm := [.poll 0x00C#16 0x1#32 0x0#32]

/-- `led.color <port>, <n>, <r>, <g>, <b>` (30_encoding.md R128). -/
def ledColor (p : Port) (n : BitVec 10) (r g b : Byte) : List HostForm :=
  [.wr 0x014#16 (0#8 ++ r ++ g ++ b), cmdForm (.ledFill p n)] ++ waitIdle

/-- `dsp.show ch<k>, <v>` (30_encoding.md R128). -/
def dspShow (k : Chan) (v : Word) : List HostForm := [.wr 0x014#16 v, cmdForm (.dspNum (chanBits k))] ++ waitIdle

/-- `dsp.time ch<k>, <s>` (30_encoding.md R128). -/
def dspTime (k : Chan) (s : Word) : List HostForm := [.wr 0x014#16 s, cmdForm (.dspClock (chanBits k) true)] ++ waitIdle

/-- The offset of DCFG<k>, 0x060 + 4*k (20_memory.md R81). -/
def dcfgAddr (k : Chan) : Addr := 0x060#16 + 4#16 * (chanBits k).setWidth 16

/-- `dsp.config ch<k>, <bright>, <on>, <delay>` (30_encoding.md R128). -/
def dspConfig (k : Chan) (bright : BitVec 3) (on : Bool) (delay : BitVec 16) : List HostForm :=
  [.wr (dcfgAddr k) (0#8 ++ delay ++ 0#4 ++ BitVec.ofBool on ++ bright)]

/-- `irq.on <mask>` (30_encoding.md R128). -/
def irqOn (mask : Word) : List HostForm := [.wr 0x004#16 (0x80000000#32 ||| mask)]

/-- `irq.off` (30_encoding.md R128). -/
def irqOff : List HostForm := [.wr 0x004#16 0x0#32, .poll 0x00C#16 0x8#32 0x0#32]

end Sys2Proof.Machine
end

