-- ==== Sys2Proof/Safety.lean ====
section
/-! DEFINITION. What a safe run is, in the terms the claims use: the invariants of the block, quiescence
(70_reset_and_hazards.md R330), the host's duties (R312 to R318, R335), what a receiver reads off the lines, and the
events an operation is meant to emit. -/

namespace Sys2Proof.Machine

open Sys2Proof

/-! ## Quiescence and duties -/

/-- Whether some source is dispatchable. -/
def anyDispatchable (r : Regs) : Bool :=
  dispatchable r (.sensor .h0) || dispatchable r (.sensor .h1) || dispatchable r .timer

/-- "The block is quiescent when the host slot and every request slot are empty, the LFS, the DPE and the EVD are idle,
and no source is dispatchable" (70_reset_and_hazards.md R330). -/
def quiescent (s : State) : Bool :=
  s.hostSlot.isNone && s.lfsHostReq.isNone && s.lfsEvdReq.isNone && s.dpeHostReq.isNone && s.dpeEvdReq.isNone &&
    s.lfs.isNone && s.dpe.isNone && !evdAct s.evd && !anyDispatchable s.regs

/-- "a handler may run (IRQ_EN.GIE = 1 with an EN bit set, or STATUS.EVD_ACT = 1)" (70_reset_and_hazards.md R314). -/
def handlerMayRun (s : State) : Bool :=
  (gie s.regs && (enabled s.regs (.sensor .h0) || enabled s.regs (.sensor .h1) || enabled s.regs .timer)) || evdAct s.evd

/-- The number of RAM pixels of a host LED_TX in progress, 0 if none is (70_reset_and_hazards.md R313). -/
def txPixels (s : State) : Nat :=
  match s.lfs, s.lfsHostReq with
  | some { op := .tx _ n, owner := .host, src := _, todo := _, frame := _ }, _ => n.toNat
  | _, some (.tx _ n) => n.toNat
  | _, _ => 0

/-- A write that keeps the host's duties: CMD only when HBUSY = 0 (R312), no pixel word an LED_TX in progress reads
(R313), no shared scoreboard state while a handler may run (R314). -/
def dutifulWrite (a : Addr) (s : State) : Bool :=
  match targetOf a with
  | .reg .cmd => !hbusy s
  | .pixel i => decide (txPixels s ≤ i)
  | .reg .score0 => !handlerMayRun s
  | .reg .score1 => !handlerMayRun s
  | .reg .team => !handlerMayRun s
  | .reg .color1 => !handlerMayRun s
  | .reg .color2 => !handlerMayRun s
  | .reg .ledcfg => !handlerMayRun s
  | _ => true

/-! ## Invariants -/

/-- Every RO0 bit of every stored register is 0 (10_state.md R32 to R52, I8). -/
def reservedZero (r : Regs) : Prop :=
  r.irqEn &&& ~~~0x80000007#32 = 0#32 ∧ r.irqPend &&& ~~~0x00000007#32 = 0#32 ∧ r.dack &&& ~~~0x0000377F#32 = 0#32 ∧
    r.team &&& ~~~0x00000003#32 = 0#32 ∧ r.color1 &&& ~~~0x00FFFFFF#32 = 0#32 ∧ r.color2 &&& ~~~0x00FFFFFF#32 = 0#32 ∧
    r.ledcfg &&& ~~~0x1F0303FF#32 = 0#32 ∧ ∀ k, r.dcfg.get k &&& ~~~0x00FFFF0F#32 = 0#32

/-- ERRCODE is NONE exactly while ERR = 0 (10_state.md R34, 60_exceptions.md R261, R262). -/
def errRecordOk (r : Regs) : Prop := r.err = false ↔ r.errCode = .none

/-- Every header bit of a written pixel word is the marker (10_state.md R50, I9). -/
def headersOk (hdr : BitVec 3) (m : List Host.Cell) : Prop :=
  ∀ c ∈ m, c.1 % 4 = 0 → c.2.extractLsb' 5 3 = hdr

/-- The pixel RAM is in its canonical form with every header the marker. -/
def ramOk (s : State) : Prop := Memory.wf s.ram = true ∧ headersOk s.par.hdrMarker s.ram

/-- The host slot is full exactly while one host operation waits or runs (10_state.md R73, 20_memory.md R95). -/
def hostSlotOk (s : State) : Prop := hostInFlight s = s.hostSlot.isSome.toNat

/-- At most one request of the EVD is outstanding, and none while it is idle (42_event_dispatcher.md R220). -/
def evdRequestsOk (s : State) : Prop := evdInFlight s ≤ 1 ∧ (evdAct s.evd = false → evdInFlight s = 0)

/-- A hand-off is followed by the wait for it, which ends the operation (40_led_serializer.md R144). -/
def handOverLast : List LfsAct → Prop
  | [] => True
  | .handOver _ :: rest => rest = [.awaitDone]
  | .drive _ _ :: rest => handOverLast rest
  | .enable _ :: rest => handOverLast rest
  | .hold :: rest => handOverLast rest
  | .sendPixel _ :: rest => handOverLast rest
  | .packPixel _ :: rest => handOverLast rest
  | .awaitDone :: rest => handOverLast rest

/-- HWX waits only for the hand-off the LFS waits for (10_state.md R63, 40_led_serializer.md R144). -/
def hwxOk (s : State) : Prop :=
  (∀ r, s.lfs = some r → handOverLast r.todo) ∧ (s.hwx = .waiting → ∃ r, s.lfs = some r ∧ r.todo = [.awaitDone])

/-- What the micro-steps left to do make of a channel's lines (DCLK, DDIO). -/
def linesAfter : List DpeAct → Drain × Drain → Drain × Drain
  | [], l => l
  | .pullClk :: rest, l => linesAfter rest (.low, l.2)
  | .relClk :: rest, l => linesAfter rest (.z, l.2)
  | .pullDio :: rest, l => linesAfter rest (l.1, .low)
  | .relDio :: rest, l => linesAfter rest (l.1, .z)
  | .hold :: rest, l => linesAfter rest l
  | .sample :: rest, l => linesAfter rest l
  | .record :: rest, l => linesAfter rest l
  | .skip :: rest, l => linesAfter rest l

/-- A channel's lines. -/
def chanLines (s : State) (k : Chan) : Drain × Drain := (s.lines.dclk.get k, s.lines.ddio.get k)

/-- The display bus: both lines of a channel are released unless an operation on it runs, and that operation's remaining
steps release them (41_display_engine.md R170, R179). -/
def busOk (s : State) : Prop :=
  ∀ k, match s.dpe with
    | none => chanLines s k = (.z, .z)
    | some r => if r.chan = k then linesAfter r.todo (chanLines s k) = (.z, .z) else chanLines s k = (.z, .z)

/-- Only LED_INIT has output-enable steps (40_led_serializer.md R147). -/
def ledEnableOk (s : State) : Prop :=
  ∀ r, s.lfs = some r → r.op ≠ .init → ∀ l, LfsAct.enable l ∉ r.todo

/-- All of them together. -/
def Inv (s : State) : Prop :=
  reservedZero s.regs ∧ errRecordOk s.regs ∧ ramOk s ∧ hostSlotOk s ∧ evdRequestsOk s ∧ hwxOk s ∧ busOk s ∧ ledEnableOk s

/-! ## What an operation is meant to emit -/

/-- The events of one bit on the software port, three line actions and two holds (40_led_serializer.md R142,
95_test_vectors.md V20; log 31). -/
def ledBitEvents (b : Bool) : List Event :=
  [.drive .dat b, .drive .clk true, .hold .lfs 1, .drive .clk false, .hold .lfs 1]

/-- The bits of a byte, bit 7 first (30_encoding.md R122). -/
def bitsMsb (b : Byte) : List Bool :=
  [b.getLsbD 7, b.getLsbD 6, b.getLsbD 5, b.getLsbD 4, b.getLsbD 3, b.getLsbD 2, b.getLsbD 1, b.getLsbD 0]

/-- The bits of a byte, bit 0 first (30_encoding.md R124). -/
def bitsLsb (b : Byte) : List Bool :=
  [b.getLsbD 0, b.getLsbD 1, b.getLsbD 2, b.getLsbD 3, b.getLsbD 4, b.getLsbD 5, b.getLsbD 6, b.getLsbD 7]

/-- The events of some bytes on the software port (40_led_serializer.md R143). -/
def ledEvents (bytes : List Byte) : List Event := (bytes.flatMap bitsMsb).flatMap ledBitEvents

/-- The events of a start on channel `k` with bit-delay `t` (41_display_engine.md R172, V40). -/
def startEvents (k : Chan) (t : Nat) : List Event :=
  [.release (.ddio k), .hold .dpe t, .pullLow (.ddio k), .hold .dpe t, .pullLow (.dclk k), .hold .dpe t]

/-- The events of one bit (41_display_engine.md R173, V40). -/
def dspBitEvents (k : Chan) (t : Nat) (b : Bool) : List Event :=
  [.pullLow (.dclk k), if b then .release (.ddio k) else .pullLow (.ddio k), .hold .dpe t, .release (.dclk k), .hold .dpe t]

/-- The events of an acknowledge that samples `lvl` (41_display_engine.md R174, V40). -/
def ackEvents (k : Chan) (t : Nat) (lvl : Bool) : List Event :=
  [.pullLow (.dclk k), .release (.ddio k), .hold .dpe t, .release (.dclk k), .hold .dpe t, .sample (.ddio k) lvl]

/-- The events of a stop (41_display_engine.md R175, V40). -/
def stopEvents (k : Chan) (t : Nat) : List Event :=
  [.pullLow (.dclk k), .pullLow (.ddio k), .hold .dpe t, .release (.dclk k), .hold .dpe t, .release (.ddio k), .hold .dpe t]

/-- The events of one byte whose acknowledge samples `lvl` (41_display_engine.md R176). -/
def dspByteEvents (k : Chan) (t : Nat) (lvl : Bool) (b : Byte) : List Event :=
  (bitsLsb b).flatMap (dspBitEvents k t) ++ ackEvents k t lvl

/-- The events of a phase (41_display_engine.md R177). -/
def phaseEvents (k : Chan) (t : Nat) (lvl : Bool) (bytes : List Byte) : List Event :=
  startEvents k t ++ bytes.flatMap (dspByteEvents k t lvl) ++ stopEvents k t

/-- The events of some phases. -/
def phasesEvents (k : Chan) (t : Nat) (lvl : Bool) (ps : List (List Byte)) : List Event :=
  ps.flatMap (phaseEvents k t lvl)

/-- How many DPE turns a segment write of `m` segment bytes takes once started: three starts of 6, three stops of 7, 46
for each of 3 + m bytes, and the record (41_display_engine.md R185). -/
def segWriteTurns (m : Nat) : Nat := 3 * 13 + 46 * (3 + m) + 1

/-- How many LFS turns a software-port frame of `n` pixels takes once started: 40 a byte, and one more for each pixel
read (40_led_serializer.md R142, R143). -/
def frameTurns (n : Nat) : Nat := 40 * (4 + 4 * n + endLen n) + n

/-- The pixel words of a frame of pixels `i`, `i + 1`, … as they are read one after the other, and the state after. -/
def readPixels : Nat → Nat → State → List Word × State
  | _, 0, s => ([], s)
  | i, k + 1, s =>
    let rest := readPixels (i + 1) k (afterPixRead s i)
    (pixWord s i :: rest.1, rest.2)

/-- The number of `Hold` events of an engine (70_reset_and_hazards.md R325). -/
def holdCount (u : Engine) : List Event → Nat
  | [] => 0
  | .hold v _ :: es => (if u = v then 1 else 0) + holdCount u es
  | _ :: es => holdCount u es

/-! ## Receivers -/

/-- What a strip shifts in: the level of LED_DAT at each rising LED_CLK (40_led_serializer.md R142). `dat` is the level
LED_DAT has before the events. -/
def ledReceive : Bool → List Event → List Bool
  | _, [] => []
  | _, .drive .dat v :: es => ledReceive v es
  | dat, .drive .clk true :: es => dat :: ledReceive dat es
  | dat, _ :: es => ledReceive dat es

/-- The bytes of bits, most significant first; what is left over is dropped. -/
def bytesMsb : List Bool → List Byte
  | b7 :: b6 :: b5 :: b4 :: b3 :: b2 :: b1 :: b0 :: rest =>
    (BitVec.ofBool b7 ++ BitVec.ofBool b6 ++ BitVec.ofBool b5 ++ BitVec.ofBool b4 ++ BitVec.ofBool b3 ++
      BitVec.ofBool b2 ++ BitVec.ofBool b1 ++ BitVec.ofBool b0) :: bytesMsb rest
  | _ => []

/-- What a display sees of its bus: start and stop conditions and the data level at each rising clock. -/
inductive BusSign where
  | start
  | bit (b : Bool)
  | stop
deriving DecidableEq, Repr

/-- A display's receiver on channel `k`, from the lines' states (DCLK released, DDIO released): a fall of the data line
while the clock is high is a start, a rise a stop, and a rise of the clock takes the data level
(41_display_engine.md R172 to R175). -/
def dspReceive (k : Chan) : Bool → Bool → List Event → List BusSign
  | _, _, [] => []
  | c, d, .pullLow (.ddio j) :: es =>
    if j = k then (if c && d then [.start] else []) ++ dspReceive k c false es else dspReceive k c d es
  | c, d, .release (.ddio j) :: es =>
    if j = k then (if c && !d then [.stop] else []) ++ dspReceive k c true es else dspReceive k c d es
  | c, d, .pullLow (.dclk j) :: es => if j = k then dspReceive k false d es else dspReceive k c d es
  | c, d, .release (.dclk j) :: es =>
    if j = k then (if !c then [.bit d] else []) ++ dspReceive k true d es else dspReceive k c d es
  | c, d, _ :: es => dspReceive k c d es

end Sys2Proof.Machine
end

