-- ==== Sys2Proof/Certificates/Slice0/Obligations.lean ====
section
/-! DEFINITION. The statements for the provers, from the numbered rules of spec/. Nothing is proved here. `s` is any
state, reachable or not, with any parameters, input levels and agenda. -/

open Sys2Proof Sys2Proof.Machine

/-! ## Encoding -/

/-- 30_encoding.md R112 to R114: no bit of an encoding is dropped. -/
def Obligations.EncodeThenDecodeReturnsTheCommand : Prop :=
  ∀ i : Instr, i.wellFormed = true → decode (encode i) = .command i

/-- 30_encoding.md R112 to R115: a word that decodes is the word of the command it decodes to, so two words never mean one
command, and every decoded command is well formed. -/
def Obligations.DecodedWordIsTheCommandsWord : Prop :=
  ∀ (w : Word) (i : Instr), decode w = .command i → i.wellFormed = true ∧ encode i = w

/-- 30_encoding.md R114: the decoder, with the checks in its order and the reserved-bit masks of R112 by opcode. -/
def Obligations.DecodeChecksInTheRulesOrder : Prop :=
  ∀ w : Word,
    let op := (w >>> 28).toNat
    let mask : Word := [0x0FFFFFFF#32, 0x0FFFFFFF#32, 0x07FFFC00#32, 0x07FFFC00#32, 0x0CFCF8FE#32, 0x0CFFFFFF#32,
      0x0CFFFFFE#32].getD op 0#32
    decode w =
      if 7 ≤ op then .reject .illegalOp
      else if w &&& mask ≠ 0#32 then .reject .rsvdBits
      else if 4 ≤ op ∧ w.extractLsb' 24 2 = 3#2 then .reject .badCh
      else if op = 4 ∧ 4 < (w.extractLsb' 8 3).toNat then .reject .badLen
      else if op = 0 then .command .nop
      else if op = 1 then .command .ledInit
      else if op = 2 then .command (.ledTx (if w.getLsbD 27 then .software else .hardware) (w.extractLsb' 0 10))
      else if op = 3 then .command (.ledFill (if w.getLsbD 27 then .software else .hardware) (w.extractLsb' 0 10))
      else if op = 4 then
        .command (.dspSegs (w.extractLsb' 24 2) (w.extractLsb' 16 2) (w.extractLsb' 8 3) (w.getLsbD 0))
      else if op = 5 then .command (.dspNum (w.extractLsb' 24 2))
      else .command (.dspClock (w.extractLsb' 24 2) (w.getLsbD 0))

/-- 30_encoding.md R116 and 95_test_vectors.md section 2.1: written-out words and what they stand for. -/
def Obligations.WrittenOutWordsDecode : Prop :=
  decode 0x00000000#32 = .command .nop ∧ decode 0x10000000#32 = .command .ledInit ∧
    decode 0x28000002#32 = .command (.ledTx .software 2#10) ∧ decode 0x20000002#32 = .command (.ledTx .hardware 2#10) ∧
    decode 0x3800000A#32 = .command (.ledFill .software 10#10) ∧
    decode 0x300003FF#32 = .command (.ledFill .hardware 1023#10) ∧
    decode 0x40010200#32 = .command (.dspSegs 0#2 1#2 2#3 false) ∧
    decode 0x42000401#32 = .command (.dspSegs 2#2 0#2 4#3 true) ∧ decode 0x51000000#32 = .command (.dspNum 1#2) ∧
    decode 0x62000001#32 = .command (.dspClock 2#2 true) ∧ decode 0x70000000#32 = .reject .illegalOp ∧
    decode 0x10000001#32 = .reject .rsvdBits ∧ decode 0x53000000#32 = .reject .badCh ∧
    decode 0x40000500#32 = .reject .badLen

/-- 30_encoding.md R126: an assembler line with every operand in range assembles to the word of its command with exactly
those operands, and any other is an error. -/
def Obligations.AssemblerNeverTruncates : Prop :=
  Asm.nop.assemble = some 0x00000000#32 ∧ Asm.ledInit.assemble = some 0x10000000#32 ∧
    (∀ p n, if n ≤ 1023 then ∃ w m, (Asm.ledTx p n).assemble = some w ∧ decode w = .command (.ledTx p m) ∧ m.toNat = n
      else (Asm.ledTx p n).assemble = none) ∧
    (∀ p n, if n ≤ 1023 then ∃ w m, (Asm.ledFill p n).assemble = some w ∧ decode w = .command (.ledFill p m) ∧ m.toNat = n
      else (Asm.ledFill p n).assemble = none) ∧
    (∀ k a l c, if k ≤ 2 ∧ a ≤ 3 ∧ l ≤ 4 then
        ∃ w ch ad len, (Asm.dspSegs k a l c).assemble = some w ∧ decode w = .command (.dspSegs ch ad len c) ∧
          ch.toNat = k ∧ ad.toNat = a ∧ len.toNat = l
      else (Asm.dspSegs k a l c).assemble = none) ∧
    (∀ k, if k ≤ 2 then ∃ w ch, (Asm.dspNum k).assemble = some w ∧ decode w = .command (.dspNum ch) ∧ ch.toNat = k
      else (Asm.dspNum k).assemble = none) ∧
    (∀ k c, if k ≤ 2 then
        ∃ w ch, (Asm.dspClock k c).assemble = some w ∧ decode w = .command (.dspClock ch c) ∧ ch.toNat = k
      else (Asm.dspClock k c).assemble = none)

/-! ## Commands

Each statement of a command says that `exec` answers a next state, which one, and, for a command with an operation, what
the engine's turns then make of it. An equation of states says the frame: what it does not name is unchanged. -/

/-- 40_led_serializer.md R150: with the host slot empty NOP changes the CMD read view and nothing else; while a command
is in flight it is BUSY; a word of opcode 0 with another bit set is RSVD_BITS. -/
def Obligations.NopChangesOnlyTheCmdReadView : Prop :=
  (∀ s : State, s.hostSlot = none → exec .nop s = .next { s with regs := { s.regs with cmd := 0x00000000#32 } }) ∧
    (∀ s c, s.hostSlot = some c → exec .nop s = .next (raiseError .busy 0x00000000#32 s)) ∧
    ∀ w : Word, w.extractLsb' 28 4 = 0#4 → w ≠ 0#32 → decode w = .reject .rsvdBits

/-- 60_exceptions.md R263, R262: every command is dropped while the host slot is full; the only trace is the error record
with code BUSY and the word, and none if an error stands. That `exec` of a command that is not well formed says so too is
the model's choice (log 24). -/
def Obligations.CommandWhileBusyIsDropped : Prop :=
  ∀ (i : Instr) (s : State) (c : HostCmd), s.hostSlot = some c →
    exec i s = .next (if s.regs.err then s
      else { s with regs := { s.regs with err := true, errCode := .busy, errInfo := encode i } })

/-- 40_led_serializer.md R151: LED_INIT is accepted, and five LFS turns (the start and its four steps) set both levels to
0, enable both outputs, emit its four events and empty the host slot. -/
def Obligations.LedInitEnablesBothOutputsAtZero : Prop :=
  ∀ s : State, s.hostSlot = none → s.lfs = none → s.lfsEvdReq = none →
    ∃ t, exec .ledInit s = .next t ∧
      t = { s with
        regs := { s.regs with cmd := 0x10000000#32 }
        hostSlot := some ⟨0x10000000#32, s.regs.arg, s.regs.segbuf⟩
        lfsHostReq := some .init } ∧
      lfsSteps 5 t = { s with
        regs := { s.regs with cmd := 0x10000000#32 }
        lfsHostReq := none
        lines := { s.lines with ledDat := ⟨true, false⟩, ledClk := ⟨true, false⟩ }
        hist := s.hist ++ [.drive .dat false, .drive .clk false, .enable .dat, .enable .clk] }

/-- 40_led_serializer.md R143, R145, R146, R152: LED_TX on the software port, for every N: the LFS's turns emit the events
of the frame of pixel words 0 to N - 1 as they read, leave LED_DAT at 1 and LED_CLK at 0, and empty the host slot. That a
bit is three line actions, on which its events and the number of turns rest, is the model's choice (log 31). -/
def Obligations.LedTxSoftwareSendsTheFrame : Prop :=
  ∀ (n : BitVec 10) (s : State), s.hostSlot = none → s.lfs = none → s.lfsEvdReq = none →
    ∃ t, exec (.ledTx .software n) s = .next t ∧
      t = { s with
        regs := { s.regs with cmd := encode (.ledTx .software n) }
        hostSlot := some ⟨encode (.ledTx .software n), s.regs.arg, s.regs.segbuf⟩
        lfsHostReq := some (.tx .software n) } ∧
      lfsSteps (1 + frameTurns n.toNat) t = { s with
        regs := { s.regs with cmd := encode (.ledTx .software n) }
        lfsHostReq := none
        lines := { s.lines with
          ledDat := { s.lines.ledDat with lvl := true }, ledClk := { s.lines.ledClk with lvl := false } }
        draws := (readPixels 0 n.toNat s).2.draws
        hist := s.hist ++ ledEvents (ledFrame (readPixels 0 n.toNat s).1) }

/-- 40_led_serializer.md R144, R148, R152: LED_TX on the hardware port, for every N: the LFS reads the pixels, hands the
frame over in one HwXfer, has no step until HwDone, and completes at the turn after it; no line moves. Every HwDone that
arrives while the hand-off waits is taken for its completion (log 32). -/
def Obligations.LedTxHardwareHandsTheFrameOver : Prop :=
  ∀ (n : BitVec 10) (s : State), s.hostSlot = none → s.lfs = none → s.lfsEvdReq = none → s.env.rst = false →
    ∃ t u, exec (.ledTx .hardware n) s = .next t ∧
      t = { s with
        regs := { s.regs with cmd := encode (.ledTx .hardware n) }
        hostSlot := some ⟨encode (.ledTx .hardware n), s.regs.arg, s.regs.segbuf⟩
        lfsHostReq := some (.tx .hardware n) } ∧
      lfsSteps (n.toNat + 2) t = u ∧ u.hwx = .waiting ∧ u.lines = s.lines ∧
      u.hist = s.hist ++ [.hwXfer (ledFrame (readPixels 0 n.toNat s).1)] ∧ lfsStep u = u ∧
      lfsStep (envApply .hwDone u) = { s with
        regs := { s.regs with cmd := encode (.ledTx .hardware n) }
        lfsHostReq := none
        hwx := .idle
        draws := (readPixels 0 n.toNat s).2.draws
        hist := s.hist ++ [.hwXfer (ledFrame (readPixels 0 n.toNat s).1), .hwDone] }

/-- 40_led_serializer.md R141, R143, R153: LED_FILL on the software port: one frame of N fill words of the colour
ARG[23:0] at the DEFBRI of the start; the pixel RAM is not read. The EVD's FILL of a colour is the same operation. The
model's choices: that a bit is three line actions, on which its events and the number of turns rest (log 31), and that a
fill has the step that takes a pixel too, on which the number of turns rests (log 15). -/
def Obligations.LedFillSoftwareSendsOneColour : Prop :=
  (∀ (n : BitVec 10) (s : State), s.hostSlot = none → s.lfs = none → s.lfsEvdReq = none →
    ∃ t, exec (.ledFill .software n) s = .next t ∧
      t = { s with
        regs := { s.regs with cmd := encode (.ledFill .software n) }
        hostSlot := some ⟨encode (.ledFill .software n), s.regs.arg, s.regs.segbuf⟩
        lfsHostReq := some (.fill .software n (s.regs.arg.extractLsb' 0 24)) } ∧
      lfsSteps (1 + frameTurns n.toNat) t = { s with
        regs := { s.regs with cmd := encode (.ledFill .software n) }
        lfsHostReq := none
        lines := { s.lines with
          ledDat := { s.lines.ledDat with lvl := true }, ledClk := { s.lines.ledClk with lvl := false } }
        hist := s.hist ++ ledEvents (ledFrame (List.replicate n.toNat
          (s.regs.arg.extractLsb' 0 24 ++ s.par.hdrMarker ++ s.regs.ledcfg.extractLsb' 24 5))) }) ∧
  ∀ (n : BitVec 10) (color : BitVec 24) (s : State), s.lfs = none → s.lfsEvdReq = some (.fill .software n color) →
    lfsSteps (1 + frameTurns n.toNat) s = { s with
      lfsEvdReq := none
      lines := { s.lines with
        ledDat := { s.lines.ledDat with lvl := true }, ledClk := { s.lines.ledClk with lvl := false } }
      hist := s.hist ++ ledEvents (ledFrame (List.replicate n.toNat
        (color ++ s.par.hdrMarker ++ s.regs.ledcfg.extractLsb' 24 5))) }

/-- 40_led_serializer.md R141, R144, R153: LED_FILL on the hardware port, and the EVD's FILL there. That a fill has the
step that takes a pixel too, on which the number of turns rests, is the model's choice (log 15), and so is that every
HwDone that arrives while the hand-off waits is taken for its completion (log 32). -/
def Obligations.LedFillHardwareHandsOneColourOver : Prop :=
  (∀ (n : BitVec 10) (s : State), s.hostSlot = none → s.lfs = none → s.lfsEvdReq = none → s.env.rst = false →
    ∃ t u, exec (.ledFill .hardware n) s = .next t ∧
      t = { s with
        regs := { s.regs with cmd := encode (.ledFill .hardware n) }
        hostSlot := some ⟨encode (.ledFill .hardware n), s.regs.arg, s.regs.segbuf⟩
        lfsHostReq := some (.fill .hardware n (s.regs.arg.extractLsb' 0 24)) } ∧
      lfsSteps (n.toNat + 2) t = u ∧ u.hwx = .waiting ∧ lfsStep u = u ∧
      lfsStep (envApply .hwDone u) = { s with
        regs := { s.regs with cmd := encode (.ledFill .hardware n) }
        lfsHostReq := none
        hwx := .idle
        hist := s.hist ++ [.hwXfer (ledFrame (List.replicate n.toNat
          (s.regs.arg.extractLsb' 0 24 ++ s.par.hdrMarker ++ s.regs.ledcfg.extractLsb' 24 5))), .hwDone] }) ∧
  ∀ (n : BitVec 10) (color : BitVec 24) (s : State), s.lfs = none → s.lfsEvdReq = some (.fill .hardware n color) →
    s.env.rst = false →
    ∃ u, lfsSteps (n.toNat + 2) s = u ∧ u.hwx = .waiting ∧ lfsStep u = u ∧
      lfsStep (envApply .hwDone u) = { s with
        lfsEvdReq := none
        hwx := .idle
        hist := s.hist ++ [.hwXfer (ledFrame (List.replicate n.toNat
          (color ++ s.par.hdrMarker ++ s.regs.ledcfg.extractLsb' 24 5))), .hwDone] }

/-- 41_display_engine.md R185 to R190, R198: DSP_SEGS on each channel, address, length and colon: the three phases of the
SEGBUF bytes go out, DACK and DNACK record the acknowledges, both lines of the channel end released, and the host slot
empties. The display answers with the same level throughout (other levels: `SampleAndRecordFollowTheRules`). -/
def Obligations.DspSegsWritesThreePhases : Prop :=
  [0#2, 1#2, 2#2, 3#2].map chanOf = [some .c0, some .c1, some .c2, none] ∧
  ∀ (ch addr : BitVec 2) (len : BitVec 3) (colon : Bool) (k : Chan) (s : State),
    chanOf ch = some k → len.toNat ≤ 4 → s.hostSlot = none → s.dpe = none → s.dpeEvdReq = none →
    let segs := (List.range len.toNat).map fun i => s.regs.segbuf.extractLsb' (8 * i) 8
    let dcfg := s.regs.dcfg.get k
    ∃ t, exec (.dspSegs ch addr len colon) s = .next t ∧
      t = { s with
        regs := { s.regs with cmd := encode (.dspSegs ch addr len colon) }
        hostSlot := some ⟨encode (.dspSegs ch addr len colon), s.regs.arg, s.regs.segbuf⟩
        dpeHostReq := some (.segs k addr segs colon) } ∧
      dpeSteps (1 + segWriteTurns len.toNat) t = { s with
        regs := recordAcks { s.regs with cmd := encode (.dspSegs ch addr len colon) }
          (List.replicate (3 + len.toNat) (s.env.dioPull.get k)) k
        dpeHostReq := none
        lines := { s.lines with dclk := s.lines.dclk.set k .z, ddio := s.lines.ddio.set k .z }
        hist := s.hist ++ phasesEvents k (dcfg.extractLsb' 8 16).toNat (!s.env.dioPull.get k)
          [[0x40#8], (0xC0#8 ||| addr.setWidth 8) :: segs.map (fun b => if colon then b ||| 0x80#8 else b),
            [0x80#8 ||| (dcfg.extractLsb' 0 4).setWidth 8]] }

/-- 41_display_engine.md R199, R200: DSP_NUM of a number v ≥ 0 writes `render_num(v)` at address 0 without colon, and the
EVD's RENDER of v is the same operation. -/
def Obligations.DspNumShowsTheNumber : Prop :=
  (∀ (ch : BitVec 2) (k : Chan) (s : State),
    chanOf ch = some k → 0 ≤ s.regs.arg.toInt → s.hostSlot = none → s.dpe = none → s.dpeEvdReq = none →
    let dcfg := s.regs.dcfg.get k
    ∃ t, exec (.dspNum ch) s = .next t ∧
      t = { s with
        regs := { s.regs with cmd := encode (.dspNum ch) }
        hostSlot := some ⟨encode (.dspNum ch), s.regs.arg, s.regs.segbuf⟩
        dpeHostReq := some (.num k s.regs.arg) } ∧
      dpeSteps (1 + segWriteTurns 4) t = { s with
        regs := recordAcks { s.regs with cmd := encode (.dspNum ch) } (List.replicate 7 (s.env.dioPull.get k)) k
        dpeHostReq := none
        lines := { s.lines with dclk := s.lines.dclk.set k .z, ddio := s.lines.ddio.set k .z }
        hist := s.hist ++ phasesEvents k (dcfg.extractLsb' 8 16).toNat (!s.env.dioPull.get k)
          [[0x40#8], 0xC0#8 :: renderNum s.par.segRom s.regs.arg.toInt.toNat,
            [0x80#8 ||| (dcfg.extractLsb' 0 4).setWidth 8]] }) ∧
  ∀ (k : Chan) (v : Word) (s : State), s.dpe = none → s.dpeEvdReq = some (.num k v) → 0 ≤ v.toInt →
    let dcfg := s.regs.dcfg.get k
    dpeSteps (1 + segWriteTurns 4) s = { s with
      regs := recordAcks s.regs (List.replicate 7 (s.env.dioPull.get k)) k
      dpeEvdReq := none
      lines := { s.lines with dclk := s.lines.dclk.set k .z, ddio := s.lines.ddio.set k .z }
      hist := s.hist ++ phasesEvents k (dcfg.extractLsb' 8 16).toNat (!s.env.dioPull.get k)
        [[0x40#8], 0xC0#8 :: renderNum s.par.segRom v.toInt.toNat, [0x80#8 ||| (dcfg.extractLsb' 0 4).setWidth 8]] }

/-- 41_display_engine.md R192, R200: DSP_NUM of a negative number, and the EVD's RENDER of one, completes without a line
action; DACK and DNACK are unchanged. That it takes one turn after the start is log 14. -/
def Obligations.DspNumOfANegativeNumberSendsNothing : Prop :=
  (∀ (ch : BitVec 2) (k : Chan) (s : State),
    chanOf ch = some k → s.regs.arg.toInt < 0 → s.hostSlot = none → s.dpe = none → s.dpeEvdReq = none →
    ∃ t, exec (.dspNum ch) s = .next t ∧ t.hostSlot = some ⟨encode (.dspNum ch), s.regs.arg, s.regs.segbuf⟩ ∧
      dpeSteps 2 t = { s with regs := { s.regs with cmd := encode (.dspNum ch) }, dpeHostReq := none }) ∧
  ∀ (k : Chan) (v : Word) (s : State), s.dpe = none → s.dpeEvdReq = some (.num k v) → v.toInt < 0 →
    dpeSteps 2 s = { s with dpeEvdReq := none }

/-- 41_display_engine.md R201, R202: DSP_CLOCK of every seconds count writes its clock digits at address 0, each OR'd with
0x80 when COLON = 1. -/
def Obligations.DspClockShowsTheClock : Prop :=
  ∀ (ch : BitVec 2) (colon : Bool) (k : Chan) (s : State),
    chanOf ch = some k → s.hostSlot = none → s.dpe = none → s.dpeEvdReq = none →
    let dcfg := s.regs.dcfg.get k
    ∃ t, exec (.dspClock ch colon) s = .next t ∧
      t = { s with
        regs := { s.regs with cmd := encode (.dspClock ch colon) }
        hostSlot := some ⟨encode (.dspClock ch colon), s.regs.arg, s.regs.segbuf⟩
        dpeHostReq := some (.clock k s.regs.arg colon) } ∧
      dpeSteps (1 + segWriteTurns 4) t = { s with
        regs := recordAcks { s.regs with cmd := encode (.dspClock ch colon) }
          (List.replicate 7 (s.env.dioPull.get k)) k
        dpeHostReq := none
        lines := { s.lines with dclk := s.lines.dclk.set k .z, ddio := s.lines.ddio.set k .z }
        hist := s.hist ++ phasesEvents k (dcfg.extractLsb' 8 16).toNat (!s.env.dioPull.get k)
          [[0x40#8],
            0xC0#8 :: (convertToClock s.par.segRom s.regs.arg.toInt).map (fun b => if colon then b ||| 0x80#8 else b),
            [0x80#8 ||| (dcfg.extractLsb' 0 4).setWidth 8]] }

/-- 30_encoding.md R114, 60_exceptions.md R261: a display command with CH = 3 only records BAD_CH, and DSP_SEGS with
LEN > 4 on a channel that exists only records BAD_LEN. No word decodes to such a command and no step runs it: that `exec`
gives its word's rejection is the model's choice (log 24). -/
def Obligations.RangeErrorsAreRecorded : Prop :=
  ∀ s : State, s.hostSlot = none →
    (exec (.dspNum 3#2) s = .next (raiseError .badCh 0x53000000#32 s)) ∧
    (∀ c, exec (.dspClock 3#2 c) s = .next (raiseError .badCh (0x63000000#32 ||| (BitVec.ofBool c).setWidth 32) s)) ∧
    (∀ a len c, exec (.dspSegs 3#2 a len c) s = .next (raiseError .badCh (encode (.dspSegs 3#2 a len c)) s)) ∧
    ∀ ch a len c, ch ≠ 3#2 → 4 < len.toNat →
      exec (.dspSegs ch a len c) s = .next (raiseError .badLen (encode (.dspSegs ch a len c)) s)

/-! ## The host bus -/

/-- Tier 1: outside reset a step is the step of the turn's agent, at the state with the turn taken off, followed by the end
of the turn: for a host write of CMD whose word decodes to a command `exec` of it, and MemWrite of any host write, once the
write's event is emitted; MemRead, with its event after; `evdStep`, `lfsStep` or `dpeStep`; and nothing for ENV's own turn
(00_scope.md R8, 10_state.md R35, 20_memory.md R85, R86, R94, 60_exceptions.md R263). The agenda is log 1, the place of an
access's event log 12, and the order in a turn log 10. -/
def Obligations.StepRunsTheDecodedCommand : Prop :=
  (∀ (s : State) (t : Turn) (ts : List Turn), s.agenda = t :: ts →
    nextTurn s = t ∧ popTurn s = { s with agenda := ts }) ∧
  (∀ s : State, s.agenda = [] → nextTurn s = Config.freeTurn s.turns ∧ popTurn s = { s with turns := s.turns + 1 }) ∧
  ∀ (s : State) (es : List EnvEvent), s.env.rst = false →
    let p := popTurn s
    let wrote := fun (a : Addr) (v : Word) => { p with hist := p.hist ++ [.regWrite a v] }
    (∀ w i, nextTurn s = ⟨.host (.write 0x010#16 w), es⟩ → decode w = .command i → i.wellFormed = true →
      ∃ t, exec i (wrote 0x010#16 w) = .next t ∧ step s = .next (endTurn es t)) ∧
    (∀ a v, nextTurn s = ⟨.host (.write a v), es⟩ →
      ∃ t, memWrite a v (wrote a v) = .next t ∧ step s = .next (endTurn es t)) ∧
    (∀ a, nextTurn s = ⟨.host (.read a), es⟩ → step s = .next (endTurn es { afterMemRead a p with
      hist := (afterMemRead a p).hist ++ [.regRead a (memReadValue a p)] })) ∧
    (∀ pick, nextTurn s = ⟨.evd pick, es⟩ → step s = .next (endTurn es (evdStep pick p))) ∧
    (nextTurn s = ⟨.lfs, es⟩ → step s = .next (endTurn es (lfsStep p))) ∧
    (nextTurn s = ⟨.dpe, es⟩ → step s = .next (endTurn es (dpeStep p))) ∧
    (nextTurn s = ⟨.env, es⟩ → step s = .next (endTurn es p))

/-- 20_memory.md R81, R85, R86, 10_state.md R31 to R52: at each register's offset, which register a write sets and with which
bits, which one a read shows, and that a read-only one ignores writes; every other register, byte of memory, line, engine
and event is unchanged. (CMD: `SubmittedWordIsAcceptedOrOnlyRecorded`; IRQ_PEND and STATUS: `WriteOneToClear`; the STATUS
and SEGROM reads: `StatusAndTableWindowShowTheBlock`.) -/
def Obligations.RegisterWriteSetsOnlyItsOwnFields : Prop :=
  ∀ (v : Word) (s : State),
    memWrite 0x004#16 v s = .next { s with regs := { s.regs with irqEn := v &&& 0x80000007#32 } } ∧
    memWrite 0x014#16 v s = .next { s with regs := { s.regs with arg := v } } ∧
    memWrite 0x020#16 v s = .next { s with regs := { s.regs with tstart := v } } ∧
    memWrite 0x040#16 v s = .next { s with regs := { s.regs with score := ⟨v, s.regs.score.x1⟩ } } ∧
    memWrite 0x044#16 v s = .next { s with regs := { s.regs with score := ⟨s.regs.score.x0, v⟩ } } ∧
    memWrite 0x048#16 v s = .next { s with regs := { s.regs with team := v &&& 0x00000003#32 } } ∧
    memWrite 0x04C#16 v s = .next { s with regs := { s.regs with color1 := v &&& 0x00FFFFFF#32 } } ∧
    memWrite 0x050#16 v s = .next { s with regs := { s.regs with color2 := v &&& 0x00FFFFFF#32 } } ∧
    memWrite 0x054#16 v s = .next { s with regs := { s.regs with ledcfg := v &&& 0x1F0303FF#32 } } ∧
    memWrite 0x060#16 v s = .next { s with regs := { s.regs with dcfg := { s.regs.dcfg with c0 := v &&& 0x00FFFF0F#32 } } } ∧
    memWrite 0x064#16 v s = .next { s with regs := { s.regs with dcfg := { s.regs.dcfg with c1 := v &&& 0x00FFFF0F#32 } } } ∧
    memWrite 0x068#16 v s = .next { s with regs := { s.regs with dcfg := { s.regs.dcfg with c2 := v &&& 0x00FFFF0F#32 } } } ∧
    memWrite 0x070#16 v s = .next { s with regs := { s.regs with segbuf := v } } ∧
    (∀ a ∈ [0x000#16, 0x018#16, 0x01C#16, 0x024#16, 0x028#16, 0x080#16, 0x084#16, 0x088#16, 0x08C#16, 0x090#16],
      memWrite a v s = .next s) ∧
    memReadValue 0x000#16 s = 0x4D420007#32 ∧ memReadValue 0x004#16 s = s.regs.irqEn &&& 0x80000007#32 ∧
    memReadValue 0x008#16 s = s.regs.irqPend &&& 0x00000007#32 ∧ memReadValue 0x010#16 s = s.regs.cmd ∧
    memReadValue 0x014#16 s = s.regs.arg ∧ memReadValue 0x018#16 s = s.regs.errInfo ∧
    memReadValue 0x01C#16 s = s.env.tick ∧ memReadValue 0x020#16 s = s.regs.tstart ∧
    memReadValue 0x024#16 s = s.regs.lastDwell ∧ memReadValue 0x028#16 s = s.regs.dack &&& 0x0000377F#32 ∧
    memReadValue 0x040#16 s = s.regs.score.x0 ∧ memReadValue 0x044#16 s = s.regs.score.x1 ∧
    memReadValue 0x048#16 s = s.regs.team &&& 0x00000003#32 ∧
    memReadValue 0x04C#16 s = s.regs.color1 &&& 0x00FFFFFF#32 ∧
    memReadValue 0x050#16 s = s.regs.color2 &&& 0x00FFFFFF#32 ∧
    memReadValue 0x054#16 s = s.regs.ledcfg &&& 0x1F0303FF#32 ∧
    memReadValue 0x060#16 s = s.regs.dcfg.c0 &&& 0x00FFFF0F#32 ∧
    memReadValue 0x064#16 s = s.regs.dcfg.c1 &&& 0x00FFFF0F#32 ∧
    memReadValue 0x068#16 s = s.regs.dcfg.c2 &&& 0x00FFFF0F#32 ∧ memReadValue 0x070#16 s = s.regs.segbuf ∧
    ∀ r r', r' ≠ r → regValue r' (writeReg r v s) = regValue r' s

/-- 10_state.md R32 to R34, 20_memory.md R86: the write-1-to-clear registers at their offsets, and which bit of IRQ_PEND and
IRQ_EN is whose. -/
def Obligations.WriteOneToClear : Prop :=
  ∀ (v : Word) (s : State),
    memWrite 0x008#16 v s = .next { s with regs := { s.regs with irqPend := s.regs.irqPend &&& ~~~(v &&& 0x00000007#32) } } ∧
    memWrite 0x00C#16 v s = .next { s with regs := { s.regs with
      err := s.regs.err && !v.getLsbD 8
      errCode := if v.getLsbD 8 = true then .none else s.regs.errCode
      dnack := s.regs.dnack && !v.getLsbD 16 } } ∧
    pending s.regs (.sensor .h0) = s.regs.irqPend.getLsbD 0 ∧ pending s.regs (.sensor .h1) = s.regs.irqPend.getLsbD 1 ∧
    pending s.regs .timer = s.regs.irqPend.getLsbD 2 ∧ enabled s.regs (.sensor .h0) = s.regs.irqEn.getLsbD 0 ∧
    enabled s.regs (.sensor .h1) = s.regs.irqEn.getLsbD 1 ∧ enabled s.regs .timer = s.regs.irqEn.getLsbD 2 ∧
    gie s.regs = s.regs.irqEn.getLsbD 31 ∧
    ∀ x, pending (writeReg .irqPend v s).regs x = (pending s.regs x && !v.getLsbD (sourceNum x))

/-- 20_memory.md R86, R92, 10_state.md R50: the host's write of pixel word i reads back as {v[31:8], P_HDR_MARKER,
v[4:0]}; every byte of memory outside its four bytes reads as before, and nothing else but the history changes. -/
def Obligations.PixelWriteReadsBackWithTheMarker : Prop :=
  ∀ (i : Nat) (v : Word) (s : State), i < 1024 →
    ∃ t, hostWrite (BitVec.ofNat 16 (0x1000 + 4 * i)) v s = .next t ∧
      memReadValue (BitVec.ofNat 16 (0x1000 + 4 * i)) t = v.extractLsb' 8 24 ++ s.par.hdrMarker ++ v.extractLsb' 0 5 ∧
      (∀ a, a < 0x1000 + 4 * i ∨ 0x1000 + 4 * i + 4 ≤ a → Memory.read t.ram a = Memory.read s.ram a) ∧
      t = { s with ram := t.ram, hist := s.hist ++ [.regWrite (BitVec.ofNat 16 (0x1000 + 4 * i)) v] }

/-- 20_memory.md R81, R82, R84, 60_exceptions.md R264: a misaligned access, whatever its address is otherwise, and an
aligned access to the reserved ranges of the map, and to no other address, read 0, write nothing and record MISALIGNED or
UNMAPPED with the address. -/
def Obligations.BusErrorsAreRecordedAndDropped : Prop :=
  ∀ a : Addr,
    let reserved := (0x02C ≤ a.toNat ∧ a.toNat < 0x040) ∨ (0x058 ≤ a.toNat ∧ a.toNat < 0x060) ∨
      (0x06C ≤ a.toNat ∧ a.toNat < 0x070) ∨ (0x074 ≤ a.toNat ∧ a.toNat < 0x080) ∨
      (0x094 ≤ a.toNat ∧ a.toNat < 0x1000) ∨ 0x2000 ≤ a.toNat
    (a.toNat % 4 ≠ 0 → ∀ (v : Word) (s : State),
      memReadValue a s = 0#32 ∧ afterMemRead a s = raiseError .misaligned (a.setWidth 32) s ∧
        memWrite a v s = .next (raiseError .misaligned (a.setWidth 32) s)) ∧
    (a.toNat % 4 = 0 → (targetOf a = .reserved ↔ reserved)) ∧
    (a.toNat % 4 = 0 → reserved → ∀ (v : Word) (s : State),
      memReadValue a s = 0#32 ∧ afterMemRead a s = raiseError .unmapped (a.setWidth 32) s ∧
        memWrite a v s = .next (raiseError .unmapped (a.setWidth 32) s))

/-- 10_state.md R34, R49, R71, R73, 60_exceptions.md R261: what STATUS and the digit-table window show at their offsets. -/
def Obligations.StatusAndTableWindowShowTheBlock : Prop :=
  ∀ s : State,
    let w := memReadValue 0x00C#16 s
    w.getLsbD 0 = s.hostSlot.isSome ∧ w.getLsbD 1 = s.lfs.isSome ∧ w.getLsbD 2 = s.dpe.isSome ∧
    (w.getLsbD 3 = true ↔ s.evd ≠ .idle) ∧
    w.extractLsb' 4 2 = (match s.evd with
      | .idle => 0#2
      | .sensor r => if r.hoop = .h0 then 0#2 else 1#2
      | .timer _ => 2#2) ∧
    w.getLsbD 8 = s.regs.err ∧
    w.extractLsb' 12 4 = (match s.regs.errCode with
      | .none => 0#4
      | .illegalOp => 1#4
      | .rsvdBits => 2#4
      | .badCh => 3#4
      | .badLen => 4#4
      | .busy => 5#4
      | .unmapped => 6#4
      | .misaligned => 7#4) ∧
    w.getLsbD 16 = s.regs.dnack ∧ w &&& 0xFFFE0EC0#32 = 0#32 ∧
    (∀ (k : Nat) (h : k < 19),
      (memReadValue (BitVec.ofNat 16 (0x080 + 4 * (k / 4))) s).extractLsb' (8 * (k % 4)) 8 = s.par.segRom[k] ∧
        seg s.par.segRom k = s.par.segRom[k]) ∧
    (memReadValue 0x090#16 s).extractLsb' 24 8 = 0#8

/-- 60_exceptions.md R262: the first error since the last clear is recorded, later ones change nothing. -/
def Obligations.FirstErrorIsKept : Prop :=
  ∀ (c : ErrCode) (info : Word) (s : State),
    (s.regs.err = false →
      raiseError c info s = { s with regs := { s.regs with err := true, errCode := c, errInfo := info } }) ∧
    (s.regs.err = true → raiseError c info s = s)

/-- 20_memory.md R85, R87: a host read of an aligned address that is not reserved changes nothing of the block; its event
carries the value. (`draws` counts free values, log 7.) -/
def Obligations.ReadsHaveNoSideEffect : Prop :=
  ∀ (a : Addr) (s : State), a.toNat % 4 = 0 → targetOf a ≠ .reserved →
    ∃ n, hostRead a s = { s with draws := n, hist := s.hist ++ [.regRead a (memReadValue a s)] }

/-- 10_state.md R35, 60_exceptions.md R263, R264: a submitted word is BUSY before it is decoded, then rejected with the
decoder's code; a rejection changes only the error record, and the CMD read view takes the word exactly when it is
accepted. -/
def Obligations.SubmittedWordIsAcceptedOrOnlyRecorded : Prop :=
  ∀ (w : Word) (s : State),
    (s.hostSlot.isSome = true → memWrite 0x010#16 w s = .next (raiseError .busy w s)) ∧
    (∀ c, s.hostSlot = none → decode w = .reject c → memWrite 0x010#16 w s = .next (raiseError c w s)) ∧
    (∀ i, s.hostSlot = none → decode w = .command i → ∃ t, memWrite 0x010#16 w s = .next t ∧ t.regs = { s.regs with cmd := w } ∧
      (i ≠ .nop → t.hostSlot = some ⟨w, s.regs.arg, s.regs.segbuf⟩) ∧ (i = .nop → t.hostSlot = none))

/-! ## Reset -/

/-- 10_state.md R76: the reset value of every item, for every parameter and input level. TSTART is
TICK_MS at release; of a pixel word only the header is specified, whatever the free value of the rest. The model's choices:
that the parameters and input levels of `State.reset` are free values (log 5, log 8) and that the pixel RAM lists nothing
(log 7; R301: it "keeps whatever it held"). -/
def Obligations.ResetGivesEveryValueOfTheTable : Prop :=
  State.reset = State.resetWith Config.params Config.powerOn ∧
  ∀ (p : Params) (i : Inputs),
    let s := State.resetWith p i
    readReg .id s = 0x4D420007#32 ∧ readReg .irqEn s = 0#32 ∧ readReg .irqPend s = 0#32 ∧ readReg .status s = 0#32 ∧
    readReg .cmd s = 0#32 ∧ readReg .arg s = 0#32 ∧ readReg .errInfo s = 0#32 ∧ readReg .tstart s = i.tick ∧
    readReg .lastDwell s = 0#32 ∧ readReg .dack s = 0#32 ∧ readReg .score0 s = 0#32 ∧ readReg .score1 s = 0#32 ∧
    readReg .team s = 0x00000002#32 ∧ readReg .color1 s = 0#32 ∧ readReg .color2 s = 0#32 ∧
    readReg .ledcfg s = (p.defaultBrightness.setWidth 32 <<< 24) ||| 0x00020000#32 ∧
    (∀ k, readReg (.dcfg k) s = 0#32) ∧ readReg .segbuf s = 0#32 ∧
    (∀ j, readReg (.segrom j) s = segromWord p.segRom j) ∧ s.ram = [] ∧
    (∀ n k, (pixWord { s with draws := n } k).extractLsb' 5 3 = p.hdrMarker) ∧
    s.lines.ledDat = ⟨false, false⟩ ∧ s.lines.ledClk = ⟨false, false⟩ ∧ (∀ k, chanLines s k = (.z, .z)) ∧
    s.prev.get false = p.sensIdle ∧ s.prev.get true = p.sensIdle ∧ s.hostSlot = none ∧ s.lfsHostReq = none ∧
    s.lfsEvdReq = none ∧ s.dpeHostReq = none ∧ s.dpeEvdReq = none ∧ s.lfs = none ∧ s.dpe = none ∧ s.evd = .idle ∧
    s.hwx = .idle ∧ s.tone = .idle

/-- 70_reset_and_hazards.md R300: asserting RST puts everything at its reset value at once; while it is asserted no agent
has a step; at release TICK_MS is read into TSTART. A host access then, "not part of the model" (R302), stops it. The model's choices: that stop (log 11), what survives (log 17), and that the
pixel RAM lists nothing after it (log 7; R301: it "keeps whatever it held"). -/
def Obligations.ResetStopsEverythingAtOnce : Prop :=
  ∀ s : State,
    (∀ acc es, s.env.rst = true → runTurn ⟨.host acc, es⟩ s = .fault .hostAccessInReset) ∧
    (envApply (.rst true) s = { State.resetWith s.par s.env with
      env := { s.env with rst := true }, hist := s.hist, agenda := s.agenda, turns := s.turns, draws := s.draws }) ∧
    (∀ m es, s.env.rst = true → isHostMove m = false →
      runTurn ⟨m, es⟩ s = .next (envApplyAll es { State.resetWith s.par s.env with
        env := s.env, hist := s.hist, agenda := s.agenda, turns := s.turns, draws := s.draws })) ∧
    (s.env.rst = true → envApply (.rst false) s =
      { s with env := { s.env with rst := false }, regs := { s.regs with tstart := s.env.tick } })

/-! ## Invariants every step keeps -/

/-- Every invariant of Safety.lean holds right after reset, for every parameter and input level. -/
def Obligations.InvariantsHoldAfterReset : Prop :=
  Inv State.reset ∧ ∀ (p : Params) (i : Inputs), Inv (State.resetWith p i)

/-- 10_state.md R32 to R52, R34, 60_exceptions.md R262: reserved register bits stay 0, and ERRCODE is NONE exactly while
ERR = 0. -/
def Obligations.RegistersStayLegal : Prop :=
  ∀ s s' : State, reservedZero s.regs ∧ errRecordOk s.regs → step s = .next s' →
    reservedZero s'.regs ∧ errRecordOk s'.regs

/-- 10_state.md R50: the pixel RAM stays in its canonical form and every header stays the marker. -/
def Obligations.PixelRamStaysCanonical : Prop :=
  ∀ s s' : State, ramOk s → step s = .next s' → ramOk s'

/-- 10_state.md R73, 20_memory.md R95: HBUSY is 1 exactly while one host operation waits or runs. -/
def Obligations.HostSlotFullExactlyWhileInFlight : Prop :=
  ∀ s s' : State, hostSlotOk s → step s = .next s' → hostSlotOk s'

/-- 42_event_dispatcher.md R220, 10_state.md R72: the EVD has at most one request outstanding, and none while idle. -/
def Obligations.EvdHasAtMostOneRequest : Prop :=
  ∀ s s' : State, evdRequestsOk s → step s = .next s' → evdRequestsOk s'

/-- 40_led_serializer.md R144, 10_state.md R63: HWX waits only while the LFS waits for it. -/
def Obligations.HandOverIsAlwaysWaitedFor : Prop :=
  ∀ s s' : State, hwxOk s → step s = .next s' → hwxOk s'

/-- 41_display_engine.md R170, R179: both lines of every channel are released between operations, and an operation moves
only its own channel's lines. -/
def Obligations.DisplayBusReturnsToIdle : Prop :=
  ∀ s s' : State, busOk s → step s = .next s' → busOk s'

/-- 40_led_serializer.md R147: only LED_INIT enables an LED output. -/
def Obligations.OnlyLedInitEnablesAnOutput : Prop :=
  ∀ s s' : State, ledEnableOk s → step s = .next s' → ledEnableOk s' ∧
    ∀ l, (s.lines.led l).oe = false → (s'.lines.led l).oe = true → ∃ r, s.lfs = some r ∧ r.op = .init

/-- 00_scope.md R9: no step changes a parameter. -/
def Obligations.ParametersNeverChange : Prop :=
  ∀ s s' : State, step s = .next s' → s'.par = s.par

/-- 20_memory.md R91, 42_event_dispatcher.md R231, R237, R243: in a turn that is no host access, and in which RST is not and
does not become asserted, no agent writes ARG, SEGBUF, CMD, IRQ_EN, TSTART, COLOR1, COLOR2, LEDCFG, DCFG or the pixel RAM,
SCORE changes only in step 6 of a sensor handler and TEAM only in step 2 of the timer handler. -/
def Obligations.OnlyTheNamedWritersChangeARegister : Prop :=
  ∀ s s' : State, isHostMove (nextTurn s).move = false → s.env.rst = false →
    (∀ e ∈ (nextTurn s).events, e ≠ .rst true) → step s = .next s' →
    (s'.regs.arg = s.regs.arg ∧ s'.regs.segbuf = s.regs.segbuf ∧ s'.regs.cmd = s.regs.cmd ∧
      s'.regs.irqEn = s.regs.irqEn ∧ s'.regs.tstart = s.regs.tstart ∧ s'.regs.color1 = s.regs.color1 ∧
      s'.regs.color2 = s.regs.color2 ∧ s'.regs.ledcfg = s.regs.ledcfg ∧ s'.regs.dcfg = s.regs.dcfg ∧ s'.ram = s.ram) ∧
      (s'.regs.score ≠ s.regs.score → ∃ r, s.evd = .sensor r ∧ r.pos = .score) ∧
      (s'.regs.team ≠ s.regs.team → ∃ r, s.evd = .timer r ∧ r.pos = .flip)

/-! ## Events and handlers -/

/-- 60_exceptions.md R272, R274, R275: a source is dispatchable exactly when its bits of IRQ_PEND and IRQ_EN and GIE are 1.
An idle EVD dispatches a dispatchable source, the one the arbitration draws if it is one: the source's handler stands before its step 1, EVD_ACT and EVD_SRC show it, no pending bit is cleared and nothing else
changes; with none dispatchable it has no step. That the turn carries the draw is log 6, and that a turn without a step
changes nothing is log 4. -/
def Obligations.DispatchStartsADispatchableSource : Prop :=
  ∀ (pick : Source) (s : State), s.evd = .idle →
    let starts := fun x : Source => ∃ e, evdStep pick s = { s with evd := e } ∧ evdAct e = true ∧ evdSource e = some x ∧
      match x with
      | .sensor h => ∃ r : SensorRun, e = .sensor r ∧ r.hoop = h ∧ r.pos = .clear
      | .timer => ∃ r : TimerRun, e = .timer r ∧ r.pos = .clear
    (∀ x, dispatchable s.regs x =
      let n := match x with
        | .sensor .h0 => 0
        | .sensor .h1 => 1
        | .timer => 2
      (s.regs.irqPend.getLsbD n && s.regs.irqEn.getLsbD n && s.regs.irqEn.getLsbD 31)) ∧
    (dispatchable s.regs pick = true → starts pick) ∧
    (∀ x, dispatchable s.regs x = true → ∃ y, dispatchable s.regs y = true ∧ starts y) ∧
    ((∀ x, dispatchable s.regs x = false) → evdStep pick s = s)

/-- 70_reset_and_hazards.md R315, 60_exceptions.md R272, R274: a handler that a step starts is that of a source whose bits
of IRQ_PEND and IRQ_EN and GIE were 1; so none starts while GIE = 0 or every EN bit is 0. -/
def Obligations.NoHandlerStartsWhileDisabled : Prop :=
  ∀ s s' : State, s.evd = .idle → step s = .next s' →
    (s'.evd ≠ .idle → ∃ x, evdSource s'.evd = some x ∧
      let n := match x with
        | .sensor .h0 => 0
        | .sensor .h1 => 1
        | .timer => 2
      s.regs.irqPend.getLsbD n = true ∧ s.regs.irqEn.getLsbD n = true ∧ s.regs.irqEn.getLsbD 31 = true) ∧
    (gie s.regs = false → s'.evd = .idle) ∧ (s.regs.irqEn.extractLsb' 0 3 = 0#3 → s'.evd = .idle)

/-- 60_exceptions.md R275, R276: a running handler is never replaced by another: after a step it still runs or the EVD is
idle. -/
def Obligations.RunningHandlerIsNeverPreempted : Prop :=
  ∀ (s s' : State) (x : Source), evdSource s.evd = some x → step s = .next s' →
    evdSource s'.evd = some x ∨ s'.evd = .idle

/-- 60_exceptions.md R270, R271, 10_state.md R75, 70_reset_and_hazards.md R301, R303: the edge detector sets P<h> exactly on
a change from the idle level to the other, PREV follows the line, nothing else changes, whatever IRQ_EN holds; a timer
pulse sets P2. Every change ENV makes in a turn is seen, unless RST becomes asserted in it; nothing is pending right
after a release, and a line active then sets P<h> at the first observation, whatever ENV does next. The inputs take
what ENV gives them and a completion ends the wait of its handshake (R60 to R64; log 16, log 32). Where in a turn the lines
are observed is log 10 and log 17. -/
def Obligations.EdgesAndPulsesLatch : Prop :=
  ∀ s : State,
    (∀ h, pending (observe s).regs (.sensor h) =
      (pending s.regs (.sensor h) || (s.prev.get h.bit == s.par.sensIdle && s.env.sens.get h.bit != s.par.sensIdle))) ∧
    pending (observe s).regs .timer = pending s.regs .timer ∧
    observe s = { s with regs := { s.regs with irqPend := (observe s).regs.irqPend }, prev := s.env.sens } ∧
    (s.env.rst = false → envApply .timerPulse s =
      { s with regs := { s.regs with irqPend := s.regs.irqPend ||| 0x00000004#32 } }) ∧
    (∀ ms, envApply (.tick ms) s = { s with env := { s.env with tick := s.env.tick + ms } }) ∧
    (∀ h lvl, envApply (.sensor h lvl) s = { s with env := { s.env with sens :=
      if h = .h0 then ⟨lvl, s.env.sens.x1⟩ else ⟨s.env.sens.x0, lvl⟩ } }) ∧
    (∀ k pull, envApply (.display k pull) s = { s with env := { s.env with dioPull := match k with
      | .c0 => { s.env.dioPull with c0 := pull }
      | .c1 => { s.env.dioPull with c1 := pull }
      | .c2 => { s.env.dioPull with c2 := pull } } }) ∧
    (s.env.rst = false → envApply .hwDone s =
      if s.hwx = .waiting then { s with hwx := .idle, hist := s.hist ++ [.hwDone] } else s) ∧
    (s.env.rst = false → envApply .toneDone s =
      if s.tone = .waiting then { s with tone := .idle, hist := s.hist ++ [.toneDone] } else s) ∧
    (s.env.rst = false → endTurn [] s = observe s ∧
      ∀ e es, isReset e = false → endTurn (e :: es) s = endTurn es (envApply e (observe s))) ∧
    (s.env.rst = false → ∀ es : List EnvEvent, (∀ e ∈ es, e ≠ .rst true) →
      (endTurn es s).prev = (endTurn es s).env.sens ∧
        ∀ h, (s.prev.get h.bit = s.par.sensIdle → EnvEvent.sensor h (!s.par.sensIdle) ∈ es →
            pending (endTurn es s).regs (.sensor h) = true) ∧
          (s.env.sens.get h.bit = s.prev.get h.bit → (∀ lvl, EnvEvent.sensor h lvl ∉ es) →
            pending (endTurn es s).regs (.sensor h) = pending s.regs (.sensor h))) ∧
    (s.env.rst = true →
      let t := endTurn [.rst false] (resetBlock s)
      t.regs.irqPend = 0#32 ∧ ∀ (es : List EnvEvent) (h : Hoop), (∀ e ∈ es, e ≠ .rst true) →
        s.env.sens.get h.bit ≠ s.par.sensIdle → pending (endTurn es t).regs (.sensor h) = true)

/-- 10_state.md R33, 42_event_dispatcher.md R226, R236, 60_exceptions.md R270, R271, V98: when step 1 of a source's handler
or a host's 1 written to its bit of IRQ_PEND clears P<s>, the step is done, and P<s> ends at 1 if the source's edge or pulse
falls in the same turn, and at 0 if nothing does. The order inside a turn is log 10. -/
def Obligations.SetBeatsClearInOneStep : Prop :=
  ∀ (s : State) (m : Move) (es : List EnvEvent) (x : Source), s.env.rst = false → nextTurn s = ⟨m, es⟩ →
    let handlerClears := evdBlocked s = false ∧ (∃ pick, m = .evd pick) ∧
      match x with
      | .sensor h => ∃ r, s.evd = .sensor r ∧ r.hoop = h ∧ r.pos = .clear
      | .timer => ∃ r, s.evd = .timer r ∧ r.pos = .clear
    let hostClears := ∃ v : Word, m = .host (.write 0x008#16 v) ∧
      v.getLsbD (match x with
        | .sensor .h0 => 0
        | .sensor .h1 => 1
        | .timer => 2) = true
    let sets :=
      match x with
      | .sensor h => s.prev.get h.bit = s.par.sensIdle ∧
          (s.env.sens.get h.bit ≠ s.par.sensIdle ∨ EnvEvent.sensor h (!s.par.sensIdle) ∈ es)
      | .timer => EnvEvent.timerPulse ∈ es
    handlerClears ∨ hostClears →
      ((∀ e ∈ es, e ≠ .rst true) → sets → ∃ s', step s = .next s' ∧ pending s'.regs x = true) ∧
      (es = [] → s.prev = s.env.sens → ∃ s', step s = .next s' ∧ pending s'.regs x = false)

/-- 42_event_dispatcher.md R226, R227: inside the settle window the sensor handler clears P<h> and ends: no other register
changes, no tone, no render. That the early end is a turn of its own (60_exceptions.md R276) is log 13. -/
def Obligations.SettleWindowDiscardsTheEvent : Prop :=
  ∀ (s : State) (r : SensorRun) (pick : Source), s.evd = .sensor r → r.pos = .clear → evdBlocked s = false →
    (s.env.tick - s.regs.tstart).toNat < s.par.settleMs →
    evdSteps pick 3 s = { s with regs := clearPending s.regs (.sensor r.hoop), evd := .idle }

/-- 42_event_dispatcher.md R228, R233: while SENSh is not at its idle level the handler has no step at step 3. -/
def Obligations.SensorHandlerWaitsForTheIdleLevel : Prop :=
  ∀ (s : State) (r : SensorRun) (pick : Source), s.evd = .sensor r → r.pos = .await →
    s.env.sens.get r.hoop.bit ≠ s.par.sensIdle → ∀ k, evdSteps pick k s = s

/-- 42_event_dispatcher.md R226 to R231, R234: outside the settle window the dwell d between the entry tick and the tick at
which the sensor is seen idle goes to LAST_DWELL, and adds 0, 2 or 1 to the score of the hoop's team; nothing else of the
registers changes but P<h>, and the handler goes on to the tone with those points and the new score, or ends. `e` is what
ENV has made of the inputs by step 3. That the early end is a turn of its own is log 13. -/
def Obligations.DwellScoresTheTeam : Prop :=
  ∀ (s : State) (r : SensorRun) (pick : Source) (e : Inputs), s.evd = .sensor r → r.pos = .clear →
    evdBlocked s = false → ¬ (s.env.tick - s.regs.tstart).toNat < s.par.settleMs →
    e.sens.get r.hoop.bit = s.par.sensIdle →
    let d := e.tick - s.env.tick
    let t := s.regs.team.getLsbD (if r.hoop = .h0 then 0 else 1)
    let old := if t then s.regs.score.x1 else s.regs.score.x0
    let scored := fun v : Word => if t then { s.regs.score with x1 := v } else { s.regs.score with x0 := v }
    let u := evdSteps pick 4 { evdSteps pick 2 s with env := e }
    let base := { clearPending s.regs (.sensor r.hoop) with lastDwell := d }
    (d.toNat < 10 → u.regs = base ∧ u.evd = .idle ∧ u.tone = s.tone ∧ u.dpeEvdReq = s.dpeEvdReq) ∧
    (10 ≤ d.toNat → d.toNat < 65 → u.regs = { base with score := scored (old + 2#32) } ∧
      u.evd = .sensor ⟨r.hoop, .tone, s.env.tick, e.tick, d, .two, old + 2#32⟩) ∧
    (65 ≤ d.toNat → u.regs = { base with score := scored (old + 1#32) } ∧
      u.evd = .sensor ⟨r.hoop, .tone, s.env.tick, e.tick, d, .one, old + 1#32⟩) ∧
    u.ram = s.ram ∧ u.lines = s.lines ∧ u.hist = s.hist

/-- 42_event_dispatcher.md R232, 10_state.md R72: after the score the handler requests the tone of its points, has no step
until ToneDone, then requests the render of its score on the hoop's channel, has no step while that waits in its slot nor
while the DPE runs it, and ends after it. The points and the score are those `DwellScoresTheTeam` leaves. What the EVD's
waiting is read off is log 30, where ToneDone is emitted log 16, and that every ToneDone that arrives while the tone waits
is taken for its completion log 32. -/
def Obligations.ToneComesBeforeRender : Prop :=
  ∀ (s : State) (r : SensorRun) (pick : Source), s.evd = .sensor r → r.pos = .tone → s.env.rst = false →
    s.tone = .idle → s.lfsEvdReq = none → s.dpeEvdReq = none → (∀ q, s.lfs = some q → q.owner = .host) →
    (∀ q, s.dpe = some q → q.owner = .host) →
    let pts := match r.pts with
      | .zero => 0
      | .one => 1
      | .two => 2
    let k := match r.hoop with
      | .h0 => Chan.c0
      | .h1 => Chan.c1
    let a := evdStep pick s
    let b := evdStep pick (envApply .toneDone a)
    a = { s with evd := .sensor { r with pos := .render }, tone := .waiting, hist := s.hist ++ [.tone r.hoop pts] } ∧
      evdStep pick a = a ∧
      b = { s with
        evd := .sensor { r with pos := .finish }, tone := .idle
        hist := s.hist ++ [.tone r.hoop pts, .toneDone], dpeEvdReq := some (.num k r.v) } ∧
      evdStep pick b = b ∧
      (∀ q : DpeRun, q.owner = .evd →
        evdStep pick { b with dpeEvdReq := none, dpe := some q } = { b with dpeEvdReq := none, dpe := some q }) ∧
      evdStep pick { b with dpeEvdReq := none } = { b with dpeEvdReq := none, evd := .idle }

/-- 42_event_dispatcher.md R235 to R239: the timer handler clears P2, flips both teams in one step, requests strip 1 with
the colour keyed on the new TEAM.H0, waits, requests strip 2 with the other colour, then renders the score of each hoop's
team, and waits for each, while it waits in its slot and while the engine runs it (10_state.md R72). A request's slot set to
`none`, with no run of the EVD's, stands for the engine's having taken and completed it. What the waiting is read off is
log 30. -/
def Obligations.TimerHandlerFlipsRecoloursAndRenders : Prop :=
  ∀ (s : State) (r : TimerRun) (pick : Source), s.evd = .timer r → r.pos = .clear → s.tone = .idle →
    s.lfsEvdReq = none → s.dpeEvdReq = none → (∀ q, s.lfs = some q → q.owner = .host) →
    (∀ q, s.dpe = some q → q.owner = .host) →
    let team := s.regs.team ^^^ 0x00000003#32
    let regs := { clearPending s.regs .timer with team := team }
    let c1 := if team.getLsbD 0 then s.regs.color2 else s.regs.color1
    let c2 := if team.getLsbD 0 then s.regs.color1 else s.regs.color2
    let n := s.regs.ledcfg.extractLsb' 0 10
    let a := evdSteps pick 3 s
    let b := evdStep pick { a with lfsEvdReq := none }
    let c := evdStep pick { b with lfsEvdReq := none }
    let d := evdStep pick { c with dpeEvdReq := none }
    let waitsForLfs := fun u : State => evdStep pick u = u ∧ ∀ q : LfsRun, q.owner = .evd →
      evdStep pick { u with lfsEvdReq := none, lfs := some q } = { u with lfsEvdReq := none, lfs := some q }
    let waitsForDpe := fun u : State => evdStep pick u = u ∧ ∀ q : DpeRun, q.owner = .evd →
      evdStep pick { u with dpeEvdReq := none, dpe := some q } = { u with dpeEvdReq := none, dpe := some q }
    a = { s with
      regs := regs, evd := .timer ⟨.strip2, c2⟩
      lfsEvdReq := some (.fill (if s.regs.ledcfg.getLsbD 16 then .hardware else .software) n (c1.extractLsb' 0 24)) } ∧
    waitsForLfs a ∧
    b = { s with
      regs := regs, evd := .timer ⟨.render0, c2⟩
      lfsEvdReq := some (.fill (if s.regs.ledcfg.getLsbD 17 then .hardware else .software) n (c2.extractLsb' 0 24)) } ∧
    waitsForLfs b ∧
    c = { s with
      regs := regs, evd := .timer ⟨.render1, c2⟩, lfsEvdReq := none
      dpeEvdReq := some (.num .c0 (s.regs.score.get (team.getLsbD 0))) } ∧
    waitsForDpe c ∧
    d = { s with
      regs := regs, evd := .timer ⟨.finish, c2⟩, lfsEvdReq := none
      dpeEvdReq := some (.num .c1 (s.regs.score.get (team.getLsbD 1))) } ∧
    waitsForDpe d ∧
    evdStep pick { d with dpeEvdReq := none } = { s with regs := regs, evd := .idle, lfsEvdReq := none, dpeEvdReq := none }

/-- 42_event_dispatcher.md R241, R242: a flip complements both team bits, `~(t&1)+2` is the one-bit complement, and two flips
restore TEAM and the colours of the strips. -/
def Obligations.TwoFlipsRestoreTeamsAndColours : Prop :=
  (∀ t : BitVec 32, t = 0#32 ∨ t = 1#32 → ~~~(t &&& 1#32) + 2#32 = 1#32 - t) ∧
    ∀ (s : State) (r q : TimerRun), r.pos = .flip → q.pos = .flip →
      let once := timerStep r s
      let twice := timerStep q once
      (∀ h, teamOf once.regs h = !teamOf s.regs h) ∧
        stripColors once.regs = ((stripColors s.regs).2, (stripColors s.regs).1) ∧
        twice.regs = s.regs ∧ stripColors twice.regs = stripColors s.regs

/-! ## Engines -/

/-- 10_state.md R72, R74, 40_led_serializer.md R140, R153, 41_display_engine.md R170, R200: an idle engine with both slots
full starts the EVD's request, leaving the host's, and with the EVD's empty the host's; either way with the micro-steps and
the copies the operation has for both requesters. A busy engine looks at no slot. -/
def Obligations.EvdRequestGoesBeforeTheHosts : Prop :=
  ∀ s : State,
    let lfsRun := fun (op : LfsOp) (o : Requester) =>
      let src := match op with
        | .init => PixSrc.ram
        | .tx _ _ => .ram
        | .fill _ _ color => .fill (color ++ s.par.hdrMarker ++ s.regs.ledcfg.extractLsb' 24 5)
      LfsRun.mk op o src (lfsActs op) [0x00#8, 0x00#8, 0x00#8, 0x00#8]
    let dpeRun := fun (op : DpeOp) (o : Requester) =>
      let k := match op with
        | .segs k _ _ _ => k
        | .num k _ => k
        | .clock k _ _ => k
      DpeRun.mk op o k ((s.regs.dcfg.get k).extractLsb' 8 16)
        (dpeActs s.par.segRom ((s.regs.dcfg.get k).extractLsb' 0 4) op) []
    (∀ a, s.lfs = none → s.lfsEvdReq = some a →
      lfsStep s = { s with lfsEvdReq := none, lfs := some (lfsRun a .evd) }) ∧
    (∀ b, s.lfs = none → s.lfsEvdReq = none → s.lfsHostReq = some b →
      lfsStep s = { s with lfsHostReq := none, lfs := some (lfsRun b .host) }) ∧
    (∀ a, s.dpe = none → s.dpeEvdReq = some a →
      dpeStep s = { s with dpeEvdReq := none, dpe := some (dpeRun a .evd) }) ∧
    (∀ b, s.dpe = none → s.dpeEvdReq = none → s.dpeHostReq = some b →
      dpeStep s = { s with dpeHostReq := none, dpe := some (dpeRun b .host) }) ∧
    (∀ r x y, s.lfs = some r → lfsStep { s with lfsEvdReq := x, lfsHostReq := y } =
      { lfsStep s with lfsEvdReq := x, lfsHostReq := y }) ∧
    (∀ r x y, s.dpe = some r → dpeStep { s with dpeEvdReq := x, dpeHostReq := y } =
      { dpeStep s with dpeEvdReq := x, dpeHostReq := y })

/-- 10_state.md R36, R73, R74, 20_memory.md R95, 70_reset_and_hazards.md R316: a host write of DCFG or LEDCFG changes nothing
of an operation already started, and one of ARG or SEGBUF nothing of a command already accepted, waiting or started. -/
def Obligations.StartedOperationsKeepTheirConfiguration : Prop :=
  ∀ s : State,
    (∀ (d : Three Word) (r : DpeRun), s.dpe = some r → dpeStep { s with regs := { s.regs with dcfg := d } } =
      { dpeStep s with regs := { (dpeStep s).regs with dcfg := d } }) ∧
    (∀ (l : Word) (r : LfsRun), s.lfs = some r → lfsStep { s with regs := { s.regs with ledcfg := l } } =
      { lfsStep s with regs := { (lfsStep s).regs with ledcfg := l } }) ∧
    ∀ x y : Word,
      (lfsStep { s with regs := { s.regs with arg := x, segbuf := y } } =
        { lfsStep s with regs := { (lfsStep s).regs with arg := x, segbuf := y } }) ∧
      (dpeStep { s with regs := { s.regs with arg := x, segbuf := y } } =
        { dpeStep s with regs := { (dpeStep s).regs with arg := x, segbuf := y } })

/-- 20_memory.md R92, R93, 40_led_serializer.md R144, R145: the LFS takes a pixel word whole, as it reads at the step before
its first bit on the software port and at its assembly step on the hardware port, where the frame grows by its four bytes;
a host write of a pixel word at any other micro-step of the frame leaves that step alone. -/
def Obligations.PixelWordsAreTakenWholeAtTheirStep : Prop :=
  ∀ (s : State) (r : LfsRun), s.lfs = some r → r.src = .ram →
    let bytes := fun w : Word => [w.extractLsb' 0 8, w.extractLsb' 8 8, w.extractLsb' 16 8, w.extractLsb' 24 8]
    (∀ i rest, r.todo = .sendPixel i :: rest →
      lfsStep s = { afterPixRead s i with
        lfs := some { r with todo := (bytes (pixWord s i)).flatMap ledByteActs ++ rest } }) ∧
    (∀ i a rest, r.todo = .packPixel i :: a :: rest →
      lfsStep s = { afterPixRead s i with
        lfs := some { r with todo := a :: rest, frame := r.frame ++ bytes (pixWord s i) } }) ∧
    ((∀ i, r.todo.head? ≠ some (.sendPixel i) ∧ r.todo.head? ≠ some (.packPixel i)) →
      ∀ j v, lfsStep (pixWrite s j v) = pixWrite (lfsStep s) j v)

/-- 41_display_engine.md R178, R190: the sample is 0 while the block or the display pulls DDIO low and 1 otherwise, its
acknowledge joins the record of the operation, and the record writes DACK with ACK, NB and CH, and DNACK when some byte was
not acknowledged. -/
def Obligations.SampleAndRecordFollowTheRules : Prop :=
  ∀ (s : State) (r : DpeRun) (a : DpeAct) (rest : List DpeAct), s.dpe = some r →
    (r.todo = .sample :: a :: rest →
      let lvl := decide (s.lines.ddio.get r.chan = .z) && !s.env.dioPull.get r.chan
      dpeStep s = { s with
        dpe := some { r with todo := a :: rest, acks := r.acks ++ [!lvl] }, hist := s.hist ++ [.sample (.ddio r.chan) lvl] }) ∧
    (r.todo = [.record] → r.acks.length ≤ 7 →
      let t := dpeStep s
      t.dpe = none ∧ (∀ i, i < 7 → t.regs.dack.getLsbD i = r.acks.getD i false) ∧
        (t.regs.dack.extractLsb' 8 3).toNat = r.acks.length ∧ t.regs.dack.extractLsb' 12 2 = (match r.chan with
          | .c0 => 0#2
          | .c1 => 1#2
          | .c2 => 2#2) ∧
        t.regs.dnack = (s.regs.dnack || r.acks.any (fun b => !b)) ∧
        (t.hostSlot = if r.owner = .host then none else s.hostSlot) ∧ t.hist = s.hist ∧ t.lines = s.lines)

/-- 41_display_engine.md R199, R204: for v in [0, 9998] the four segment bytes are the decimal digits of v right-justified
with leading 0x00, and SEG(9) four times from 9999 on. -/
def Obligations.NumbersAreRenderedRightJustified : Prop :=
  ∀ (rom : Vector Byte 19) (v : Nat),
    (renderNum rom v).length = 4 ∧
    (9999 ≤ v → renderNum rom v = List.replicate 4 (seg rom 9)) ∧
    (v < 9999 → ∃ ds : List Nat, (∀ d ∈ ds, d < 10) ∧ ds.foldl (fun n d => 10 * n + d) 0 = v ∧ 1 ≤ ds.length ∧
      (1 < ds.length → ds.head? ≠ some 0) ∧
      renderNum rom v = List.replicate (4 - ds.length) 0x00#8 ++ ds.map (seg rom))

/-- 41_display_engine.md R202, R204: the clock of s shows minutes and seconds of s clamped to 0 to 5999, each with two
digits. -/
def Obligations.ClockIsClampedAndShowsFourDigits : Prop :=
  ∀ (rom : Vector Byte 19) (s : Int),
    (s < 1 → convertToClock rom s = List.replicate 4 (seg rom 0)) ∧
    (5999 < s → convertToClock rom s = [seg rom 9, seg rom 9, seg rom 5, seg rom 9]) ∧
    (1 ≤ s → s ≤ 5999 → ∃ a b c d : Nat, a < 10 ∧ b < 10 ∧ c < 6 ∧ d < 10 ∧ (60 * (10 * a + b) + (10 * c + d) : Nat) = s ∧
      convertToClock rom s = [seg rom a, seg rom b, seg rom c, seg rom d])

/-! ## Frames and receivers -/

/-- 40_led_serializer.md R154, R155, 30_encoding.md R121: a frame decodes back to its pixels, ends with ceil(n/16) + 1 bytes
0xFF, and has the length of the rule; the end frame gives at least n/2 + 8 clock pulses. -/
def Obligations.FrameCarriesItsPixels : Prop :=
  ∀ ws : List Word,
    (ledFrame ws).length = 4 + 4 * ws.length + endLen ws.length ∧
    (∀ i, i < 4 → (ledFrame ws)[i]? = some 0x00#8) ∧
    (∀ i j w, ws[i]? = some w → j < 4 → (ledFrame ws)[4 + 4 * i + j]? = some (w.extractLsb' (8 * j) 8)) ∧
    (ledFrame ws).drop (4 + 4 * ws.length) = List.replicate (endLen ws.length) 0xFF#8 ∧
    16 * (endLen ws.length - 1) < ws.length + 16 ∧ ws.length ≤ 16 * (endLen ws.length - 1) ∧
    ws.length + 16 ≤ 2 * (8 * endLen ws.length)

/-- 30_encoding.md R122, 40_led_serializer.md R142: a strip that takes LED_DAT at each rising LED_CLK gets back every byte
of what the software port sends, whatever level LED_DAT had before. -/
def Obligations.StripReceivesTheBytesSent : Prop :=
  ∀ (dat : Bool) (bytes : List Byte), bytesMsb (ledReceive dat (ledEvents bytes)) = bytes

/-- 41_display_engine.md R172 to R177: a display on channel k with its bus idle sees of a phase one start, then for each
byte its eight bits, bit 0 first, and one released acknowledge bit, then the stop's clock and the stop; a display on another
channel sees nothing. -/
def Obligations.DisplayReceivesThePhase : Prop :=
  ∀ (k j : Chan) (t : Nat) (lvl : Bool) (bytes : List Byte),
    dspReceive k true true (phaseEvents k t lvl bytes) =
      [.start] ++ bytes.flatMap (fun b => (bitsLsb b).map .bit ++ [.bit true]) ++ [.bit false, .stop] ∧
    (j ≠ k → ∀ c d, dspReceive j c d (phaseEvents k t lvl bytes) = [])

/-- 40_led_serializer.md R149, 41_display_engine.md R191, 70_reset_and_hazards.md R325: the number of holds of a
software-port frame and of a segment write of m bytes. -/
def Obligations.HoldsAreCounted : Prop :=
  (∀ ws : List Word, holdCount .lfs (ledEvents (ledFrame ws)) = 16 * (4 + 4 * ws.length + endLen ws.length)) ∧
    ∀ k t lvl addr segs colon nibble,
      holdCount .dpe (phasesEvents k t lvl (segPhases addr segs colon nibble)) = 72 + 18 * segs.length

/-- 70_reset_and_hazards.md R330: "A quiescent block has no enabled step of its own". -/
def Obligations.QuiescentBlockHasNoStep : Prop :=
  ∀ (s : State) (m : Move), quiescent s = true → isHostMove m = false → moveStep m s = .next s
end

