-- ==== Sys2Proof/Laws/State.lean ====
section
/-! SUPPORT. One lemma per field per update of State, true by rfl, so that no proof unfolds a record update. -/

namespace Sys2Proof.Machine

open Sys2Proof

/-! ### emit -/

@[simp] theorem emit_par (e : Event) (s : State) : (s.emit e).par = s.par := rfl
@[simp] theorem emit_env (e : Event) (s : State) : (s.emit e).env = s.env := rfl
@[simp] theorem emit_regs (e : Event) (s : State) : (s.emit e).regs = s.regs := rfl
@[simp] theorem emit_ram (e : Event) (s : State) : (s.emit e).ram = s.ram := rfl
@[simp] theorem emit_lines (e : Event) (s : State) : (s.emit e).lines = s.lines := rfl
@[simp] theorem emit_prev (e : Event) (s : State) : (s.emit e).prev = s.prev := rfl
@[simp] theorem emit_hostSlot (e : Event) (s : State) : (s.emit e).hostSlot = s.hostSlot := rfl
@[simp] theorem emit_lfsHostReq (e : Event) (s : State) : (s.emit e).lfsHostReq = s.lfsHostReq := rfl
@[simp] theorem emit_lfsEvdReq (e : Event) (s : State) : (s.emit e).lfsEvdReq = s.lfsEvdReq := rfl
@[simp] theorem emit_dpeHostReq (e : Event) (s : State) : (s.emit e).dpeHostReq = s.dpeHostReq := rfl
@[simp] theorem emit_dpeEvdReq (e : Event) (s : State) : (s.emit e).dpeEvdReq = s.dpeEvdReq := rfl
@[simp] theorem emit_lfs (e : Event) (s : State) : (s.emit e).lfs = s.lfs := rfl
@[simp] theorem emit_dpe (e : Event) (s : State) : (s.emit e).dpe = s.dpe := rfl
@[simp] theorem emit_evd (e : Event) (s : State) : (s.emit e).evd = s.evd := rfl
@[simp] theorem emit_hwx (e : Event) (s : State) : (s.emit e).hwx = s.hwx := rfl
@[simp] theorem emit_tone (e : Event) (s : State) : (s.emit e).tone = s.tone := rfl
@[simp] theorem emit_hist (e : Event) (s : State) : (s.emit e).hist = s.hist ++ [e] := rfl
@[simp] theorem emit_agenda (e : Event) (s : State) : (s.emit e).agenda = s.agenda := rfl
@[simp] theorem emit_turns (e : Event) (s : State) : (s.emit e).turns = s.turns := rfl
@[simp] theorem emit_draws (e : Event) (s : State) : (s.emit e).draws = s.draws := rfl

/-! ### driveLed -/

@[simp] theorem driveLed_par (l : LedPin) (v : Bool) (s : State) : (driveLed l v s).par = s.par := rfl
@[simp] theorem driveLed_env (l : LedPin) (v : Bool) (s : State) : (driveLed l v s).env = s.env := rfl
@[simp] theorem driveLed_regs (l : LedPin) (v : Bool) (s : State) : (driveLed l v s).regs = s.regs := rfl
@[simp] theorem driveLed_ram (l : LedPin) (v : Bool) (s : State) : (driveLed l v s).ram = s.ram := rfl
@[simp] theorem driveLed_lines (l : LedPin) (v : Bool) (s : State) : (driveLed l v s).lines = s.lines.setLed l { s.lines.led l with lvl := v } := rfl
@[simp] theorem driveLed_prev (l : LedPin) (v : Bool) (s : State) : (driveLed l v s).prev = s.prev := rfl
@[simp] theorem driveLed_hostSlot (l : LedPin) (v : Bool) (s : State) : (driveLed l v s).hostSlot = s.hostSlot := rfl
@[simp] theorem driveLed_lfsHostReq (l : LedPin) (v : Bool) (s : State) : (driveLed l v s).lfsHostReq = s.lfsHostReq := rfl
@[simp] theorem driveLed_lfsEvdReq (l : LedPin) (v : Bool) (s : State) : (driveLed l v s).lfsEvdReq = s.lfsEvdReq := rfl
@[simp] theorem driveLed_dpeHostReq (l : LedPin) (v : Bool) (s : State) : (driveLed l v s).dpeHostReq = s.dpeHostReq := rfl
@[simp] theorem driveLed_dpeEvdReq (l : LedPin) (v : Bool) (s : State) : (driveLed l v s).dpeEvdReq = s.dpeEvdReq := rfl
@[simp] theorem driveLed_lfs (l : LedPin) (v : Bool) (s : State) : (driveLed l v s).lfs = s.lfs := rfl
@[simp] theorem driveLed_dpe (l : LedPin) (v : Bool) (s : State) : (driveLed l v s).dpe = s.dpe := rfl
@[simp] theorem driveLed_evd (l : LedPin) (v : Bool) (s : State) : (driveLed l v s).evd = s.evd := rfl
@[simp] theorem driveLed_hwx (l : LedPin) (v : Bool) (s : State) : (driveLed l v s).hwx = s.hwx := rfl
@[simp] theorem driveLed_tone (l : LedPin) (v : Bool) (s : State) : (driveLed l v s).tone = s.tone := rfl
@[simp] theorem driveLed_hist (l : LedPin) (v : Bool) (s : State) : (driveLed l v s).hist = s.hist ++ [.drive l v] := rfl
@[simp] theorem driveLed_agenda (l : LedPin) (v : Bool) (s : State) : (driveLed l v s).agenda = s.agenda := rfl
@[simp] theorem driveLed_turns (l : LedPin) (v : Bool) (s : State) : (driveLed l v s).turns = s.turns := rfl
@[simp] theorem driveLed_draws (l : LedPin) (v : Bool) (s : State) : (driveLed l v s).draws = s.draws := rfl

/-! ### enableLed -/

@[simp] theorem enableLed_par (l : LedPin) (s : State) : (enableLed l s).par = s.par := rfl
@[simp] theorem enableLed_env (l : LedPin) (s : State) : (enableLed l s).env = s.env := rfl
@[simp] theorem enableLed_regs (l : LedPin) (s : State) : (enableLed l s).regs = s.regs := rfl
@[simp] theorem enableLed_ram (l : LedPin) (s : State) : (enableLed l s).ram = s.ram := rfl
@[simp] theorem enableLed_lines (l : LedPin) (s : State) : (enableLed l s).lines = s.lines.setLed l { s.lines.led l with oe := true } := rfl
@[simp] theorem enableLed_prev (l : LedPin) (s : State) : (enableLed l s).prev = s.prev := rfl
@[simp] theorem enableLed_hostSlot (l : LedPin) (s : State) : (enableLed l s).hostSlot = s.hostSlot := rfl
@[simp] theorem enableLed_lfsHostReq (l : LedPin) (s : State) : (enableLed l s).lfsHostReq = s.lfsHostReq := rfl
@[simp] theorem enableLed_lfsEvdReq (l : LedPin) (s : State) : (enableLed l s).lfsEvdReq = s.lfsEvdReq := rfl
@[simp] theorem enableLed_dpeHostReq (l : LedPin) (s : State) : (enableLed l s).dpeHostReq = s.dpeHostReq := rfl
@[simp] theorem enableLed_dpeEvdReq (l : LedPin) (s : State) : (enableLed l s).dpeEvdReq = s.dpeEvdReq := rfl
@[simp] theorem enableLed_lfs (l : LedPin) (s : State) : (enableLed l s).lfs = s.lfs := rfl
@[simp] theorem enableLed_dpe (l : LedPin) (s : State) : (enableLed l s).dpe = s.dpe := rfl
@[simp] theorem enableLed_evd (l : LedPin) (s : State) : (enableLed l s).evd = s.evd := rfl
@[simp] theorem enableLed_hwx (l : LedPin) (s : State) : (enableLed l s).hwx = s.hwx := rfl
@[simp] theorem enableLed_tone (l : LedPin) (s : State) : (enableLed l s).tone = s.tone := rfl
@[simp] theorem enableLed_hist (l : LedPin) (s : State) : (enableLed l s).hist = s.hist ++ [.enable l] := rfl
@[simp] theorem enableLed_agenda (l : LedPin) (s : State) : (enableLed l s).agenda = s.agenda := rfl
@[simp] theorem enableLed_turns (l : LedPin) (s : State) : (enableLed l s).turns = s.turns := rfl
@[simp] theorem enableLed_draws (l : LedPin) (s : State) : (enableLed l s).draws = s.draws := rfl

/-! ### pullLow -/

@[simp] theorem pullLow_par (l : DspPin) (s : State) : (pullLow l s).par = s.par := rfl
@[simp] theorem pullLow_env (l : DspPin) (s : State) : (pullLow l s).env = s.env := rfl
@[simp] theorem pullLow_regs (l : DspPin) (s : State) : (pullLow l s).regs = s.regs := rfl
@[simp] theorem pullLow_ram (l : DspPin) (s : State) : (pullLow l s).ram = s.ram := rfl
@[simp] theorem pullLow_lines (l : DspPin) (s : State) : (pullLow l s).lines = s.lines.setDrain l .low := rfl
@[simp] theorem pullLow_prev (l : DspPin) (s : State) : (pullLow l s).prev = s.prev := rfl
@[simp] theorem pullLow_hostSlot (l : DspPin) (s : State) : (pullLow l s).hostSlot = s.hostSlot := rfl
@[simp] theorem pullLow_lfsHostReq (l : DspPin) (s : State) : (pullLow l s).lfsHostReq = s.lfsHostReq := rfl
@[simp] theorem pullLow_lfsEvdReq (l : DspPin) (s : State) : (pullLow l s).lfsEvdReq = s.lfsEvdReq := rfl
@[simp] theorem pullLow_dpeHostReq (l : DspPin) (s : State) : (pullLow l s).dpeHostReq = s.dpeHostReq := rfl
@[simp] theorem pullLow_dpeEvdReq (l : DspPin) (s : State) : (pullLow l s).dpeEvdReq = s.dpeEvdReq := rfl
@[simp] theorem pullLow_lfs (l : DspPin) (s : State) : (pullLow l s).lfs = s.lfs := rfl
@[simp] theorem pullLow_dpe (l : DspPin) (s : State) : (pullLow l s).dpe = s.dpe := rfl
@[simp] theorem pullLow_evd (l : DspPin) (s : State) : (pullLow l s).evd = s.evd := rfl
@[simp] theorem pullLow_hwx (l : DspPin) (s : State) : (pullLow l s).hwx = s.hwx := rfl
@[simp] theorem pullLow_tone (l : DspPin) (s : State) : (pullLow l s).tone = s.tone := rfl
@[simp] theorem pullLow_hist (l : DspPin) (s : State) : (pullLow l s).hist = s.hist ++ [.pullLow l] := rfl
@[simp] theorem pullLow_agenda (l : DspPin) (s : State) : (pullLow l s).agenda = s.agenda := rfl
@[simp] theorem pullLow_turns (l : DspPin) (s : State) : (pullLow l s).turns = s.turns := rfl
@[simp] theorem pullLow_draws (l : DspPin) (s : State) : (pullLow l s).draws = s.draws := rfl

/-! ### release -/

@[simp] theorem release_par (l : DspPin) (s : State) : (release l s).par = s.par := rfl
@[simp] theorem release_env (l : DspPin) (s : State) : (release l s).env = s.env := rfl
@[simp] theorem release_regs (l : DspPin) (s : State) : (release l s).regs = s.regs := rfl
@[simp] theorem release_ram (l : DspPin) (s : State) : (release l s).ram = s.ram := rfl
@[simp] theorem release_lines (l : DspPin) (s : State) : (release l s).lines = s.lines.setDrain l .z := rfl
@[simp] theorem release_prev (l : DspPin) (s : State) : (release l s).prev = s.prev := rfl
@[simp] theorem release_hostSlot (l : DspPin) (s : State) : (release l s).hostSlot = s.hostSlot := rfl
@[simp] theorem release_lfsHostReq (l : DspPin) (s : State) : (release l s).lfsHostReq = s.lfsHostReq := rfl
@[simp] theorem release_lfsEvdReq (l : DspPin) (s : State) : (release l s).lfsEvdReq = s.lfsEvdReq := rfl
@[simp] theorem release_dpeHostReq (l : DspPin) (s : State) : (release l s).dpeHostReq = s.dpeHostReq := rfl
@[simp] theorem release_dpeEvdReq (l : DspPin) (s : State) : (release l s).dpeEvdReq = s.dpeEvdReq := rfl
@[simp] theorem release_lfs (l : DspPin) (s : State) : (release l s).lfs = s.lfs := rfl
@[simp] theorem release_dpe (l : DspPin) (s : State) : (release l s).dpe = s.dpe := rfl
@[simp] theorem release_evd (l : DspPin) (s : State) : (release l s).evd = s.evd := rfl
@[simp] theorem release_hwx (l : DspPin) (s : State) : (release l s).hwx = s.hwx := rfl
@[simp] theorem release_tone (l : DspPin) (s : State) : (release l s).tone = s.tone := rfl
@[simp] theorem release_hist (l : DspPin) (s : State) : (release l s).hist = s.hist ++ [.release l] := rfl
@[simp] theorem release_agenda (l : DspPin) (s : State) : (release l s).agenda = s.agenda := rfl
@[simp] theorem release_turns (l : DspPin) (s : State) : (release l s).turns = s.turns := rfl
@[simp] theorem release_draws (l : DspPin) (s : State) : (release l s).draws = s.draws := rfl

/-! ### holdFor -/

@[simp] theorem holdFor_par (u : Engine) (t : Nat) (s : State) : (holdFor u t s).par = s.par := rfl
@[simp] theorem holdFor_env (u : Engine) (t : Nat) (s : State) : (holdFor u t s).env = s.env := rfl
@[simp] theorem holdFor_regs (u : Engine) (t : Nat) (s : State) : (holdFor u t s).regs = s.regs := rfl
@[simp] theorem holdFor_ram (u : Engine) (t : Nat) (s : State) : (holdFor u t s).ram = s.ram := rfl
@[simp] theorem holdFor_lines (u : Engine) (t : Nat) (s : State) : (holdFor u t s).lines = s.lines := rfl
@[simp] theorem holdFor_prev (u : Engine) (t : Nat) (s : State) : (holdFor u t s).prev = s.prev := rfl
@[simp] theorem holdFor_hostSlot (u : Engine) (t : Nat) (s : State) : (holdFor u t s).hostSlot = s.hostSlot := rfl
@[simp] theorem holdFor_lfsHostReq (u : Engine) (t : Nat) (s : State) : (holdFor u t s).lfsHostReq = s.lfsHostReq := rfl
@[simp] theorem holdFor_lfsEvdReq (u : Engine) (t : Nat) (s : State) : (holdFor u t s).lfsEvdReq = s.lfsEvdReq := rfl
@[simp] theorem holdFor_dpeHostReq (u : Engine) (t : Nat) (s : State) : (holdFor u t s).dpeHostReq = s.dpeHostReq := rfl
@[simp] theorem holdFor_dpeEvdReq (u : Engine) (t : Nat) (s : State) : (holdFor u t s).dpeEvdReq = s.dpeEvdReq := rfl
@[simp] theorem holdFor_lfs (u : Engine) (t : Nat) (s : State) : (holdFor u t s).lfs = s.lfs := rfl
@[simp] theorem holdFor_dpe (u : Engine) (t : Nat) (s : State) : (holdFor u t s).dpe = s.dpe := rfl
@[simp] theorem holdFor_evd (u : Engine) (t : Nat) (s : State) : (holdFor u t s).evd = s.evd := rfl
@[simp] theorem holdFor_hwx (u : Engine) (t : Nat) (s : State) : (holdFor u t s).hwx = s.hwx := rfl
@[simp] theorem holdFor_tone (u : Engine) (t : Nat) (s : State) : (holdFor u t s).tone = s.tone := rfl
@[simp] theorem holdFor_hist (u : Engine) (t : Nat) (s : State) : (holdFor u t s).hist = s.hist ++ [.hold u t] := rfl
@[simp] theorem holdFor_agenda (u : Engine) (t : Nat) (s : State) : (holdFor u t s).agenda = s.agenda := rfl
@[simp] theorem holdFor_turns (u : Engine) (t : Nat) (s : State) : (holdFor u t s).turns = s.turns := rfl
@[simp] theorem holdFor_draws (u : Engine) (t : Nat) (s : State) : (holdFor u t s).draws = s.draws := rfl

/-! ### requestLfs -/

@[simp] theorem requestLfs_par (op : LfsOp) (s : State) : (requestLfs op s).par = s.par := rfl
@[simp] theorem requestLfs_env (op : LfsOp) (s : State) : (requestLfs op s).env = s.env := rfl
@[simp] theorem requestLfs_regs (op : LfsOp) (s : State) : (requestLfs op s).regs = s.regs := rfl
@[simp] theorem requestLfs_ram (op : LfsOp) (s : State) : (requestLfs op s).ram = s.ram := rfl
@[simp] theorem requestLfs_lines (op : LfsOp) (s : State) : (requestLfs op s).lines = s.lines := rfl
@[simp] theorem requestLfs_prev (op : LfsOp) (s : State) : (requestLfs op s).prev = s.prev := rfl
@[simp] theorem requestLfs_hostSlot (op : LfsOp) (s : State) : (requestLfs op s).hostSlot = s.hostSlot := rfl
@[simp] theorem requestLfs_lfsHostReq (op : LfsOp) (s : State) : (requestLfs op s).lfsHostReq = s.lfsHostReq := rfl
@[simp] theorem requestLfs_lfsEvdReq (op : LfsOp) (s : State) : (requestLfs op s).lfsEvdReq = some op := rfl
@[simp] theorem requestLfs_dpeHostReq (op : LfsOp) (s : State) : (requestLfs op s).dpeHostReq = s.dpeHostReq := rfl
@[simp] theorem requestLfs_dpeEvdReq (op : LfsOp) (s : State) : (requestLfs op s).dpeEvdReq = s.dpeEvdReq := rfl
@[simp] theorem requestLfs_lfs (op : LfsOp) (s : State) : (requestLfs op s).lfs = s.lfs := rfl
@[simp] theorem requestLfs_dpe (op : LfsOp) (s : State) : (requestLfs op s).dpe = s.dpe := rfl
@[simp] theorem requestLfs_evd (op : LfsOp) (s : State) : (requestLfs op s).evd = s.evd := rfl
@[simp] theorem requestLfs_hwx (op : LfsOp) (s : State) : (requestLfs op s).hwx = s.hwx := rfl
@[simp] theorem requestLfs_tone (op : LfsOp) (s : State) : (requestLfs op s).tone = s.tone := rfl
@[simp] theorem requestLfs_hist (op : LfsOp) (s : State) : (requestLfs op s).hist = s.hist := rfl
@[simp] theorem requestLfs_agenda (op : LfsOp) (s : State) : (requestLfs op s).agenda = s.agenda := rfl
@[simp] theorem requestLfs_turns (op : LfsOp) (s : State) : (requestLfs op s).turns = s.turns := rfl
@[simp] theorem requestLfs_draws (op : LfsOp) (s : State) : (requestLfs op s).draws = s.draws := rfl

/-! ### requestDpe -/

@[simp] theorem requestDpe_par (op : DpeOp) (s : State) : (requestDpe op s).par = s.par := rfl
@[simp] theorem requestDpe_env (op : DpeOp) (s : State) : (requestDpe op s).env = s.env := rfl
@[simp] theorem requestDpe_regs (op : DpeOp) (s : State) : (requestDpe op s).regs = s.regs := rfl
@[simp] theorem requestDpe_ram (op : DpeOp) (s : State) : (requestDpe op s).ram = s.ram := rfl
@[simp] theorem requestDpe_lines (op : DpeOp) (s : State) : (requestDpe op s).lines = s.lines := rfl
@[simp] theorem requestDpe_prev (op : DpeOp) (s : State) : (requestDpe op s).prev = s.prev := rfl
@[simp] theorem requestDpe_hostSlot (op : DpeOp) (s : State) : (requestDpe op s).hostSlot = s.hostSlot := rfl
@[simp] theorem requestDpe_lfsHostReq (op : DpeOp) (s : State) : (requestDpe op s).lfsHostReq = s.lfsHostReq := rfl
@[simp] theorem requestDpe_lfsEvdReq (op : DpeOp) (s : State) : (requestDpe op s).lfsEvdReq = s.lfsEvdReq := rfl
@[simp] theorem requestDpe_dpeHostReq (op : DpeOp) (s : State) : (requestDpe op s).dpeHostReq = s.dpeHostReq := rfl
@[simp] theorem requestDpe_dpeEvdReq (op : DpeOp) (s : State) : (requestDpe op s).dpeEvdReq = some op := rfl
@[simp] theorem requestDpe_lfs (op : DpeOp) (s : State) : (requestDpe op s).lfs = s.lfs := rfl
@[simp] theorem requestDpe_dpe (op : DpeOp) (s : State) : (requestDpe op s).dpe = s.dpe := rfl
@[simp] theorem requestDpe_evd (op : DpeOp) (s : State) : (requestDpe op s).evd = s.evd := rfl
@[simp] theorem requestDpe_hwx (op : DpeOp) (s : State) : (requestDpe op s).hwx = s.hwx := rfl
@[simp] theorem requestDpe_tone (op : DpeOp) (s : State) : (requestDpe op s).tone = s.tone := rfl
@[simp] theorem requestDpe_hist (op : DpeOp) (s : State) : (requestDpe op s).hist = s.hist := rfl
@[simp] theorem requestDpe_agenda (op : DpeOp) (s : State) : (requestDpe op s).agenda = s.agenda := rfl
@[simp] theorem requestDpe_turns (op : DpeOp) (s : State) : (requestDpe op s).turns = s.turns := rfl
@[simp] theorem requestDpe_draws (op : DpeOp) (s : State) : (requestDpe op s).draws = s.draws := rfl

/-! ### requestTone -/

@[simp] theorem requestTone_par (h : Hoop) (p : Points) (s : State) : (requestTone h p s).par = s.par := rfl
@[simp] theorem requestTone_env (h : Hoop) (p : Points) (s : State) : (requestTone h p s).env = s.env := rfl
@[simp] theorem requestTone_regs (h : Hoop) (p : Points) (s : State) : (requestTone h p s).regs = s.regs := rfl
@[simp] theorem requestTone_ram (h : Hoop) (p : Points) (s : State) : (requestTone h p s).ram = s.ram := rfl
@[simp] theorem requestTone_lines (h : Hoop) (p : Points) (s : State) : (requestTone h p s).lines = s.lines := rfl
@[simp] theorem requestTone_prev (h : Hoop) (p : Points) (s : State) : (requestTone h p s).prev = s.prev := rfl
@[simp] theorem requestTone_hostSlot (h : Hoop) (p : Points) (s : State) : (requestTone h p s).hostSlot = s.hostSlot := rfl
@[simp] theorem requestTone_lfsHostReq (h : Hoop) (p : Points) (s : State) : (requestTone h p s).lfsHostReq = s.lfsHostReq := rfl
@[simp] theorem requestTone_lfsEvdReq (h : Hoop) (p : Points) (s : State) : (requestTone h p s).lfsEvdReq = s.lfsEvdReq := rfl
@[simp] theorem requestTone_dpeHostReq (h : Hoop) (p : Points) (s : State) : (requestTone h p s).dpeHostReq = s.dpeHostReq := rfl
@[simp] theorem requestTone_dpeEvdReq (h : Hoop) (p : Points) (s : State) : (requestTone h p s).dpeEvdReq = s.dpeEvdReq := rfl
@[simp] theorem requestTone_lfs (h : Hoop) (p : Points) (s : State) : (requestTone h p s).lfs = s.lfs := rfl
@[simp] theorem requestTone_dpe (h : Hoop) (p : Points) (s : State) : (requestTone h p s).dpe = s.dpe := rfl
@[simp] theorem requestTone_evd (h : Hoop) (p : Points) (s : State) : (requestTone h p s).evd = s.evd := rfl
@[simp] theorem requestTone_hwx (h : Hoop) (p : Points) (s : State) : (requestTone h p s).hwx = s.hwx := rfl
@[simp] theorem requestTone_tone (h : Hoop) (p : Points) (s : State) : (requestTone h p s).tone = .waiting := rfl
@[simp] theorem requestTone_hist (h : Hoop) (p : Points) (s : State) : (requestTone h p s).hist = s.hist ++ [.tone h p.num] := rfl
@[simp] theorem requestTone_agenda (h : Hoop) (p : Points) (s : State) : (requestTone h p s).agenda = s.agenda := rfl
@[simp] theorem requestTone_turns (h : Hoop) (p : Points) (s : State) : (requestTone h p s).turns = s.turns := rfl
@[simp] theorem requestTone_draws (h : Hoop) (p : Points) (s : State) : (requestTone h p s).draws = s.draws := rfl

/-! ### dispatch -/

@[simp] theorem dispatch_par (x : Source) (s : State) : (dispatch x s).par = s.par := rfl
@[simp] theorem dispatch_env (x : Source) (s : State) : (dispatch x s).env = s.env := rfl
@[simp] theorem dispatch_regs (x : Source) (s : State) : (dispatch x s).regs = s.regs := rfl
@[simp] theorem dispatch_ram (x : Source) (s : State) : (dispatch x s).ram = s.ram := rfl
@[simp] theorem dispatch_lines (x : Source) (s : State) : (dispatch x s).lines = s.lines := rfl
@[simp] theorem dispatch_prev (x : Source) (s : State) : (dispatch x s).prev = s.prev := rfl
@[simp] theorem dispatch_hostSlot (x : Source) (s : State) : (dispatch x s).hostSlot = s.hostSlot := rfl
@[simp] theorem dispatch_lfsHostReq (x : Source) (s : State) : (dispatch x s).lfsHostReq = s.lfsHostReq := rfl
@[simp] theorem dispatch_lfsEvdReq (x : Source) (s : State) : (dispatch x s).lfsEvdReq = s.lfsEvdReq := rfl
@[simp] theorem dispatch_dpeHostReq (x : Source) (s : State) : (dispatch x s).dpeHostReq = s.dpeHostReq := rfl
@[simp] theorem dispatch_dpeEvdReq (x : Source) (s : State) : (dispatch x s).dpeEvdReq = s.dpeEvdReq := rfl
@[simp] theorem dispatch_lfs (x : Source) (s : State) : (dispatch x s).lfs = s.lfs := rfl
@[simp] theorem dispatch_dpe (x : Source) (s : State) : (dispatch x s).dpe = s.dpe := rfl
@[simp] theorem dispatch_evd (x : Source) (s : State) : (dispatch x s).evd = handlerOf x := rfl
@[simp] theorem dispatch_hwx (x : Source) (s : State) : (dispatch x s).hwx = s.hwx := rfl
@[simp] theorem dispatch_tone (x : Source) (s : State) : (dispatch x s).tone = s.tone := rfl
@[simp] theorem dispatch_hist (x : Source) (s : State) : (dispatch x s).hist = s.hist := rfl
@[simp] theorem dispatch_agenda (x : Source) (s : State) : (dispatch x s).agenda = s.agenda := rfl
@[simp] theorem dispatch_turns (x : Source) (s : State) : (dispatch x s).turns = s.turns := rfl
@[simp] theorem dispatch_draws (x : Source) (s : State) : (dispatch x s).draws = s.draws := rfl

/-! ### endHandler -/

@[simp] theorem endHandler_par (s : State) : (endHandler s).par = s.par := rfl
@[simp] theorem endHandler_env (s : State) : (endHandler s).env = s.env := rfl
@[simp] theorem endHandler_regs (s : State) : (endHandler s).regs = s.regs := rfl
@[simp] theorem endHandler_ram (s : State) : (endHandler s).ram = s.ram := rfl
@[simp] theorem endHandler_lines (s : State) : (endHandler s).lines = s.lines := rfl
@[simp] theorem endHandler_prev (s : State) : (endHandler s).prev = s.prev := rfl
@[simp] theorem endHandler_hostSlot (s : State) : (endHandler s).hostSlot = s.hostSlot := rfl
@[simp] theorem endHandler_lfsHostReq (s : State) : (endHandler s).lfsHostReq = s.lfsHostReq := rfl
@[simp] theorem endHandler_lfsEvdReq (s : State) : (endHandler s).lfsEvdReq = s.lfsEvdReq := rfl
@[simp] theorem endHandler_dpeHostReq (s : State) : (endHandler s).dpeHostReq = s.dpeHostReq := rfl
@[simp] theorem endHandler_dpeEvdReq (s : State) : (endHandler s).dpeEvdReq = s.dpeEvdReq := rfl
@[simp] theorem endHandler_lfs (s : State) : (endHandler s).lfs = s.lfs := rfl
@[simp] theorem endHandler_dpe (s : State) : (endHandler s).dpe = s.dpe := rfl
@[simp] theorem endHandler_evd (s : State) : (endHandler s).evd = .idle := rfl
@[simp] theorem endHandler_hwx (s : State) : (endHandler s).hwx = s.hwx := rfl
@[simp] theorem endHandler_tone (s : State) : (endHandler s).tone = s.tone := rfl
@[simp] theorem endHandler_hist (s : State) : (endHandler s).hist = s.hist := rfl
@[simp] theorem endHandler_agenda (s : State) : (endHandler s).agenda = s.agenda := rfl
@[simp] theorem endHandler_turns (s : State) : (endHandler s).turns = s.turns := rfl
@[simp] theorem endHandler_draws (s : State) : (endHandler s).draws = s.draws := rfl

/-! ### pixWrite -/

@[simp] theorem pixWrite_par (i : Nat) (v : Word) (s : State) : (pixWrite s i v).par = s.par := rfl
@[simp] theorem pixWrite_env (i : Nat) (v : Word) (s : State) : (pixWrite s i v).env = s.env := rfl
@[simp] theorem pixWrite_regs (i : Nat) (v : Word) (s : State) : (pixWrite s i v).regs = s.regs := rfl
@[simp] theorem pixWrite_ram (i : Nat) (v : Word) (s : State) : (pixWrite s i v).ram = Memory.writeWord s.ram (pixAddr i) (withHeader s.par.hdrMarker v) := rfl
@[simp] theorem pixWrite_lines (i : Nat) (v : Word) (s : State) : (pixWrite s i v).lines = s.lines := rfl
@[simp] theorem pixWrite_prev (i : Nat) (v : Word) (s : State) : (pixWrite s i v).prev = s.prev := rfl
@[simp] theorem pixWrite_hostSlot (i : Nat) (v : Word) (s : State) : (pixWrite s i v).hostSlot = s.hostSlot := rfl
@[simp] theorem pixWrite_lfsHostReq (i : Nat) (v : Word) (s : State) : (pixWrite s i v).lfsHostReq = s.lfsHostReq := rfl
@[simp] theorem pixWrite_lfsEvdReq (i : Nat) (v : Word) (s : State) : (pixWrite s i v).lfsEvdReq = s.lfsEvdReq := rfl
@[simp] theorem pixWrite_dpeHostReq (i : Nat) (v : Word) (s : State) : (pixWrite s i v).dpeHostReq = s.dpeHostReq := rfl
@[simp] theorem pixWrite_dpeEvdReq (i : Nat) (v : Word) (s : State) : (pixWrite s i v).dpeEvdReq = s.dpeEvdReq := rfl
@[simp] theorem pixWrite_lfs (i : Nat) (v : Word) (s : State) : (pixWrite s i v).lfs = s.lfs := rfl
@[simp] theorem pixWrite_dpe (i : Nat) (v : Word) (s : State) : (pixWrite s i v).dpe = s.dpe := rfl
@[simp] theorem pixWrite_evd (i : Nat) (v : Word) (s : State) : (pixWrite s i v).evd = s.evd := rfl
@[simp] theorem pixWrite_hwx (i : Nat) (v : Word) (s : State) : (pixWrite s i v).hwx = s.hwx := rfl
@[simp] theorem pixWrite_tone (i : Nat) (v : Word) (s : State) : (pixWrite s i v).tone = s.tone := rfl
@[simp] theorem pixWrite_hist (i : Nat) (v : Word) (s : State) : (pixWrite s i v).hist = s.hist := rfl
@[simp] theorem pixWrite_agenda (i : Nat) (v : Word) (s : State) : (pixWrite s i v).agenda = s.agenda := rfl
@[simp] theorem pixWrite_turns (i : Nat) (v : Word) (s : State) : (pixWrite s i v).turns = s.turns := rfl
@[simp] theorem pixWrite_draws (i : Nat) (v : Word) (s : State) : (pixWrite s i v).draws = s.draws := rfl

/-! ### queueLfs -/

@[simp] theorem queueLfs_par (w : Word) (op : LfsOp) (s : State) : (queueLfs w op s).par = s.par := rfl
@[simp] theorem queueLfs_env (w : Word) (op : LfsOp) (s : State) : (queueLfs w op s).env = s.env := rfl
@[simp] theorem queueLfs_regs (w : Word) (op : LfsOp) (s : State) : (queueLfs w op s).regs = s.regs := rfl
@[simp] theorem queueLfs_ram (w : Word) (op : LfsOp) (s : State) : (queueLfs w op s).ram = s.ram := rfl
@[simp] theorem queueLfs_lines (w : Word) (op : LfsOp) (s : State) : (queueLfs w op s).lines = s.lines := rfl
@[simp] theorem queueLfs_prev (w : Word) (op : LfsOp) (s : State) : (queueLfs w op s).prev = s.prev := rfl
@[simp] theorem queueLfs_hostSlot (w : Word) (op : LfsOp) (s : State) : (queueLfs w op s).hostSlot = some ⟨w, s.regs.arg, s.regs.segbuf⟩ := rfl
@[simp] theorem queueLfs_lfsHostReq (w : Word) (op : LfsOp) (s : State) : (queueLfs w op s).lfsHostReq = some op := rfl
@[simp] theorem queueLfs_lfsEvdReq (w : Word) (op : LfsOp) (s : State) : (queueLfs w op s).lfsEvdReq = s.lfsEvdReq := rfl
@[simp] theorem queueLfs_dpeHostReq (w : Word) (op : LfsOp) (s : State) : (queueLfs w op s).dpeHostReq = s.dpeHostReq := rfl
@[simp] theorem queueLfs_dpeEvdReq (w : Word) (op : LfsOp) (s : State) : (queueLfs w op s).dpeEvdReq = s.dpeEvdReq := rfl
@[simp] theorem queueLfs_lfs (w : Word) (op : LfsOp) (s : State) : (queueLfs w op s).lfs = s.lfs := rfl
@[simp] theorem queueLfs_dpe (w : Word) (op : LfsOp) (s : State) : (queueLfs w op s).dpe = s.dpe := rfl
@[simp] theorem queueLfs_evd (w : Word) (op : LfsOp) (s : State) : (queueLfs w op s).evd = s.evd := rfl
@[simp] theorem queueLfs_hwx (w : Word) (op : LfsOp) (s : State) : (queueLfs w op s).hwx = s.hwx := rfl
@[simp] theorem queueLfs_tone (w : Word) (op : LfsOp) (s : State) : (queueLfs w op s).tone = s.tone := rfl
@[simp] theorem queueLfs_hist (w : Word) (op : LfsOp) (s : State) : (queueLfs w op s).hist = s.hist := rfl
@[simp] theorem queueLfs_agenda (w : Word) (op : LfsOp) (s : State) : (queueLfs w op s).agenda = s.agenda := rfl
@[simp] theorem queueLfs_turns (w : Word) (op : LfsOp) (s : State) : (queueLfs w op s).turns = s.turns := rfl
@[simp] theorem queueLfs_draws (w : Word) (op : LfsOp) (s : State) : (queueLfs w op s).draws = s.draws := rfl

/-! ### queueDpe -/

@[simp] theorem queueDpe_par (w : Word) (op : DpeOp) (s : State) : (queueDpe w op s).par = s.par := rfl
@[simp] theorem queueDpe_env (w : Word) (op : DpeOp) (s : State) : (queueDpe w op s).env = s.env := rfl
@[simp] theorem queueDpe_regs (w : Word) (op : DpeOp) (s : State) : (queueDpe w op s).regs = s.regs := rfl
@[simp] theorem queueDpe_ram (w : Word) (op : DpeOp) (s : State) : (queueDpe w op s).ram = s.ram := rfl
@[simp] theorem queueDpe_lines (w : Word) (op : DpeOp) (s : State) : (queueDpe w op s).lines = s.lines := rfl
@[simp] theorem queueDpe_prev (w : Word) (op : DpeOp) (s : State) : (queueDpe w op s).prev = s.prev := rfl
@[simp] theorem queueDpe_hostSlot (w : Word) (op : DpeOp) (s : State) : (queueDpe w op s).hostSlot = some ⟨w, s.regs.arg, s.regs.segbuf⟩ := rfl
@[simp] theorem queueDpe_lfsHostReq (w : Word) (op : DpeOp) (s : State) : (queueDpe w op s).lfsHostReq = s.lfsHostReq := rfl
@[simp] theorem queueDpe_lfsEvdReq (w : Word) (op : DpeOp) (s : State) : (queueDpe w op s).lfsEvdReq = s.lfsEvdReq := rfl
@[simp] theorem queueDpe_dpeHostReq (w : Word) (op : DpeOp) (s : State) : (queueDpe w op s).dpeHostReq = some op := rfl
@[simp] theorem queueDpe_dpeEvdReq (w : Word) (op : DpeOp) (s : State) : (queueDpe w op s).dpeEvdReq = s.dpeEvdReq := rfl
@[simp] theorem queueDpe_lfs (w : Word) (op : DpeOp) (s : State) : (queueDpe w op s).lfs = s.lfs := rfl
@[simp] theorem queueDpe_dpe (w : Word) (op : DpeOp) (s : State) : (queueDpe w op s).dpe = s.dpe := rfl
@[simp] theorem queueDpe_evd (w : Word) (op : DpeOp) (s : State) : (queueDpe w op s).evd = s.evd := rfl
@[simp] theorem queueDpe_hwx (w : Word) (op : DpeOp) (s : State) : (queueDpe w op s).hwx = s.hwx := rfl
@[simp] theorem queueDpe_tone (w : Word) (op : DpeOp) (s : State) : (queueDpe w op s).tone = s.tone := rfl
@[simp] theorem queueDpe_hist (w : Word) (op : DpeOp) (s : State) : (queueDpe w op s).hist = s.hist := rfl
@[simp] theorem queueDpe_agenda (w : Word) (op : DpeOp) (s : State) : (queueDpe w op s).agenda = s.agenda := rfl
@[simp] theorem queueDpe_turns (w : Word) (op : DpeOp) (s : State) : (queueDpe w op s).turns = s.turns := rfl
@[simp] theorem queueDpe_draws (w : Word) (op : DpeOp) (s : State) : (queueDpe w op s).draws = s.draws := rfl

/-! ### Lines, pairs and triples -/

@[simp] theorem three_get_set_same {α : Type} (p : Three α) (k : Chan) (v : α) : (p.set k v).get k = v := by
  cases k <;> rfl

theorem three_get_set_ne {α : Type} (p : Three α) {k j : Chan} (h : k ≠ j) (v : α) : (p.set k v).get j = p.get j := by
  cases k <;> cases j <;> first | rfl | exact absurd rfl h

@[simp] theorem two_get_set_same {α : Type} (p : Two α) (i : Bool) (v : α) : (p.set i v).get i = v := by
  cases i <;> rfl

theorem two_get_set_ne {α : Type} (p : Two α) {i j : Bool} (h : i ≠ j) (v : α) : (p.set i v).get j = p.get j := by
  cases i <;> cases j <;> first | rfl | exact absurd rfl h

@[simp] theorem Lines.led_setLed_same (l : Lines) (p : LedPin) (v : LedLine) : (l.setLed p v).led p = v := by
  cases p <;> rfl

@[simp] theorem Lines.drain_setDrain_same (l : Lines) (p : DspPin) (v : Drain) : (l.setDrain p v).drain p = v := by
  cases p <;> simp [Lines.setDrain, Lines.drain]

@[simp] theorem Lines.setLed_dclk (l : Lines) (p : LedPin) (v : LedLine) : (l.setLed p v).dclk = l.dclk := by
  cases p <;> rfl

@[simp] theorem Lines.setLed_ddio (l : Lines) (p : LedPin) (v : LedLine) : (l.setLed p v).ddio = l.ddio := by
  cases p <;> rfl

@[simp] theorem Lines.setDrain_ledDat (l : Lines) (p : DspPin) (v : Drain) : (l.setDrain p v).ledDat = l.ledDat := by
  cases p <;> rfl

@[simp] theorem Lines.setDrain_ledClk (l : Lines) (p : DspPin) (v : Drain) : (l.setDrain p v).ledClk = l.ledClk := by
  cases p <;> rfl

theorem complete_eq (o : Requester) (s : State) : ∃ h, complete o s = { s with hostSlot := h } := by
  cases o
  · exact ⟨none, rfl⟩
  · exact ⟨s.hostSlot, rfl⟩

end Sys2Proof.Machine
end

