-- ==== Sys2Proof/Laws/Memory.lean ====
section
/-! SUPPORT. The laws of the pixel RAM: read after write, the canonical form kept by every memory operation, headers. -/

namespace Sys2Proof.Machine

open Sys2Proof

@[simp] theorem memory_read_nil (a : Nat) : Memory.read [] a = none := rfl

@[simp] theorem memory_read_write_same (m : List Host.Cell) (a : Nat) (b : Byte) :
    Memory.read (Memory.write m a b) a = some b := by
  induction m with
  | nil => simp [Memory.write, Memory.read]
  | cons c cs ih =>
    simp only [Memory.write]
    split
    · simp [Memory.read]
    · split
      · simp [Memory.read]
      · rename_i h; simp [Memory.read, ih, Ne.symm h]

theorem memory_read_write_ne (m : List Host.Cell) {a a' : Nat} (h : a' ≠ a) (b : Byte) :
    Memory.read (Memory.write m a b) a' = Memory.read m a' := by
  induction m with
  | nil => simp [Memory.write, Memory.read, h.symm]
  | cons c cs ih =>
    simp only [Memory.write]
    split
    · simp [Memory.read, h.symm]
    · split
      · rename_i h2; simp [Memory.read, h.symm, ← h2]
      · simp [Memory.read, ih]

theorem memory_rises_write {lo a : Nat} (m : List Host.Cell) (b : Byte) (h : Memory.risesFrom lo m = true)
    (ha : lo ≤ a) : Memory.risesFrom lo (Memory.write m a b) = true := by
  induction m generalizing lo with
  | nil => simp [Memory.write, Memory.risesFrom, ha]
  | cons c cs ih =>
    simp only [Memory.risesFrom, Bool.and_eq_true, decide_eq_true_eq] at h
    simp only [Memory.write]
    split
    · simp only [Memory.risesFrom, Bool.and_eq_true, decide_eq_true_eq]
      exact ⟨ha, by omega, h.2⟩
    · split
      · rename_i h2
        simp only [Memory.risesFrom, Bool.and_eq_true, decide_eq_true_eq]
        exact ⟨ha, h2 ▸ h.2⟩
      · simp only [Memory.risesFrom, Bool.and_eq_true, decide_eq_true_eq]
        exact ⟨h.1, ih h.2 (by omega)⟩

/-- A cell of a written list is the one written or an old one. -/
theorem memory_mem_write {m : List Host.Cell} {a : Nat} {b : Byte} {c : Host.Cell}
    (h : c ∈ Memory.write m a b) : c = (a, b) ∨ c ∈ m := by
  induction m with
  | nil => simpa [Memory.write] using h
  | cons d ds ih =>
    simp only [Memory.write] at h
    split at h
    · simpa using h
    · split at h
      · simp only [List.mem_cons] at h ⊢; tauto
      · simp only [List.mem_cons] at h ⊢
        rcases h with h | h
        · tauto
        · rcases ih h with h | h <;> tauto

/-- Every write of a pixel RAM byte keeps the canonical form. -/
theorem memory_wf_write {m : List Host.Cell} {a : Nat} (b : Byte) (h : Memory.wf m = true) (lo : 0x1000 ≤ a)
    (hi : a < 0x2000) : Memory.wf (Memory.write m a b) = true := by
  simp only [Memory.wf, Bool.and_eq_true, List.all_eq_true, decide_eq_true_eq] at h ⊢
  obtain ⟨⟨h1, h2⟩, h3⟩ := h
  refine ⟨⟨memory_rises_write m b h1 lo, fun c hc => ?_⟩, fun c hc => ?_⟩
  · rcases memory_mem_write hc with rfl | hc
    · exact hi
    · exact h2 c hc
  · rcases memory_mem_write hc with rfl | hc
    · simp [Memory.unlisted]
    · exact h3 c hc

/-- Every write of a pixel word keeps the canonical form. -/
theorem memory_wf_writeWord {m : List Host.Cell} {i : Nat} (w : Word) (h : Memory.wf m = true) (hi : i < 1024) :
    Memory.wf (Memory.writeWord m (pixAddr i) w) = true := by
  unfold Memory.writeWord pixAddr
  exact memory_wf_write _ (memory_wf_write _ (memory_wf_write _ (memory_wf_write _ h (by omega) (by omega))
    (by omega) (by omega)) (by omega) (by omega)) (by omega) (by omega)

theorem memory_wf_nil : Memory.wf [] = true := rfl

/-- A written word's bytes read back. -/
theorem memory_read_writeWord (m : List Host.Cell) (i j : Nat) (w : Word) (hj : j < 4) :
    Memory.read (Memory.writeWord m (pixAddr i) w) (pixAddr i + j) = some (byteOf w j) := by
  unfold Memory.writeWord
  have : j = 0 ∨ j = 1 ∨ j = 2 ∨ j = 3 := by omega
  rcases this with rfl | rfl | rfl | rfl
  · rw [memory_read_write_ne _ (by omega), memory_read_write_ne _ (by omega), memory_read_write_ne _ (by omega)]
    simp
  · rw [memory_read_write_ne _ (by omega), memory_read_write_ne _ (by omega)]
    simp
  · rw [memory_read_write_ne _ (by omega)]
    simp
  · simp

/-- The bytes of every other address are as before. -/
theorem memory_read_writeWord_other (m : List Host.Cell) (i a : Nat) (w : Word)
    (h : a < pixAddr i ∨ pixAddr i + 4 ≤ a) :
    Memory.read (Memory.writeWord m (pixAddr i) w) a = Memory.read m a := by
  unfold Memory.writeWord
  rw [memory_read_write_ne _ (by omega), memory_read_write_ne _ (by omega), memory_read_write_ne _ (by omega),
    memory_read_write_ne _ (by omega)]

/-- A word is the word of its bytes. -/
theorem wordOf_byteOf (w : Word) : wordOf (byteOf w 0) (byteOf w 1) (byteOf w 2) (byteOf w 3) = w := by
  apply BitVec.eq_of_getLsbD_eq
  intro i hi
  simp only [wordOf, byteOf, BitVec.getLsbD_append, BitVec.getLsbD_extractLsb']
  split
  · simp [*]
  · split
    · rw [show 8 * 1 + (i - 8) = i by omega]; simp [*]
    · split
      · rw [show 8 * 2 + (i - 8 - 8) = i by omega]; simp [*]
      · rw [show 8 * 3 + (i - 8 - 8 - 8) = i by omega]; simp; omega

/-- Byte 0 of a word with a forced header carries the header. -/
theorem byteOf_withHeader_zero (hdr : BitVec 3) (w : Word) : (byteOf (withHeader hdr w) 0).extractLsb' 5 3 = hdr := by
  apply BitVec.eq_of_getLsbD_eq
  intro i hi
  simp only [withHeader, byteOf, BitVec.getLsbD_append, BitVec.getLsbD_extractLsb']
  have : i = 0 ∨ i = 1 ∨ i = 2 := by omega
  rcases this with rfl | rfl | rfl <;> simp

@[simp] theorem withHeader_withHeader (hdr hdr' : BitVec 3) (w : Word) :
    withHeader hdr (withHeader hdr' w) = withHeader hdr w := by
  apply BitVec.eq_of_getLsbD_eq
  intro i hi
  simp only [withHeader, BitVec.getLsbD_append, BitVec.getLsbD_extractLsb']
  split
  · simp [*]
  · split
    · rfl
    · rw [if_neg (by omega), if_neg (by omega), show 8 + (8 + (i - 5 - 3) - 5 - 3) = 8 + (i - 5 - 3) by omega]
      rw [show 8 + (i - 5 - 3) - 5 - 3 = i - 5 - 3 by omega]
      cases decide (i - 5 - 3 < 24) <;> rfl

/-- The read of a pixel word the host has written: {v[31:8], P_HDR_MARKER, v[4:0]} (20_memory.md R86, R92). -/
theorem pixWord_pixWrite_same (s : State) (i : Nat) (v : Word) :
    pixWord (pixWrite s i v) i = withHeader s.par.hdrMarker v := by
  simp only [pixWord, pixByte, pixWrite_ram, pixWrite_draws, pixWrite_par]
  have h0 := memory_read_writeWord s.ram i 0 (withHeader s.par.hdrMarker v) (by omega)
  rw [h0, memory_read_writeWord _ _ _ _ (by omega), memory_read_writeWord _ _ _ _ (by omega),
    memory_read_writeWord _ _ _ _ (by omega)]
  simp [wordOf_byteOf]

/-- The write of one pixel word leaves the reads of the others alone. -/
theorem pixWord_pixWrite_ne (s : State) {i j : Nat} (h : j ≠ i) (v : Word) :
    pixWord (pixWrite s i v) j = pixWord s j := by
  simp only [pixWord, pixByte, pixWrite_ram, pixWrite_draws, pixWrite_par]
  rw [memory_read_writeWord_other _ _ _ _ (by unfold pixAddr; omega),
    memory_read_writeWord_other _ _ _ _ (by unfold pixAddr; omega),
    memory_read_writeWord_other _ _ _ _ (by unfold pixAddr; omega),
    memory_read_writeWord_other _ _ _ _ (by unfold pixAddr; omega)]

/-- A pixel write keeps the canonical form and the headers. -/
theorem ramOk_pixWrite {s : State} (h : ramOk s) {i : Nat} (hi : i < 1024) (v : Word) : ramOk (pixWrite s i v) := by
  refine ⟨by simpa using memory_wf_writeWord _ h.1 hi, ?_⟩
  intro c hc hm
  simp only [pixWrite_ram, pixWrite_par, Memory.writeWord] at hc ⊢
  rcases memory_mem_write hc with rfl | hc
  · simp only [pixAddr] at hm; omega
  rcases memory_mem_write hc with rfl | hc
  · simp only [pixAddr] at hm; omega
  rcases memory_mem_write hc with rfl | hc
  · simp only [pixAddr] at hm; omega
  rcases memory_mem_write hc with rfl | hc
  · exact byteOf_withHeader_zero _ _
  · exact h.2 c hc hm

/-- The pixel RAM of the reset state is in its canonical form. -/
theorem ramOk_reset : ramOk State.reset := ⟨rfl, by intro c hc; cases hc⟩

@[simp] theorem afterPixRead_ram (s : State) (i : Nat) : (afterPixRead s i).ram = s.ram := by
  unfold afterPixRead; split <;> rfl

@[simp] theorem afterPixRead_par (s : State) (i : Nat) : (afterPixRead s i).par = s.par := by
  unfold afterPixRead; split <;> rfl

/-- A pixel read changes nothing but the count of free values used (log 7). -/
theorem afterPixRead_eq (s : State) (i : Nat) : ∃ n, afterPixRead s i = { s with draws := n } := by
  unfold afterPixRead; split
  · exact ⟨s.draws, rfl⟩
  · exact ⟨s.draws + 1, rfl⟩

/-- A byte of the word of four bytes. -/
theorem byteOf_wordOf (b0 b1 b2 b3 : Byte) :
    (wordOf b0 b1 b2 b3).extractLsb' 0 8 = b0 ∧ (wordOf b0 b1 b2 b3).extractLsb' 8 8 = b1 ∧
      (wordOf b0 b1 b2 b3).extractLsb' 16 8 = b2 ∧ (wordOf b0 b1 b2 b3).extractLsb' 24 8 = b3 := by
  refine ⟨?_, ?_, ?_, ?_⟩ <;>
    (ext i hi
     simp only [wordOf, BitVec.getElem_extractLsb', BitVec.getLsbD_append]
     interval_cases i <;> simp)

/-- The bytes a DSP_SEGS takes from SEGBUF (41_display_engine.md R198). -/
theorem segBytes_eq (w : Word) {len : BitVec 3} (h : len.toNat ≤ 4) :
    segBytes w len = (List.range len.toNat).map fun i => w.extractLsb' (8 * i) 8 := by
  unfold segBytes
  generalize len.toNat = n at h
  interval_cases n <;> rfl

end Sys2Proof.Machine
end

