-- ==== Sys2Proof/Laws/Bus.lean ====
section
/-! SUPPORT. The shared operations of the host bus: the error record, submission, what a host access can do. -/

namespace Sys2Proof.Machine

open Sys2Proof

/-! ### The error record -/

theorem raiseError_cases (c : ErrCode) (info : Word) (s : State) :
    (s.regs.err = true ∧ raiseError c info s = s) ∨
      (s.regs.err = false ∧
        raiseError c info s = { s with regs := { s.regs with err := true, errCode := c, errInfo := info } }) := by
  cases h : s.regs.err <;> simp [raiseError, h]

/-! ### Encoding and range checks -/

theorem rangeError_none_iff (i : Instr) : rangeError i = none ↔ i.wellFormed = true := by
  cases i with
  | nop => simp [rangeError, Instr.wellFormed]
  | ledInit => simp [rangeError, Instr.wellFormed]
  | ledTx p n => simp [rangeError, Instr.wellFormed]
  | ledFill p n => simp [rangeError, Instr.wellFormed]
  | dspSegs ch a l c =>
    by_cases h : ch = 3#2
    · simp [rangeError, Instr.wellFormed, h]
    · by_cases h2 : l.toNat ≤ 4 <;> simp [rangeError, Instr.wellFormed, h, h2]
  | dspNum ch => by_cases h : ch = 3#2 <;> simp [rangeError, Instr.wellFormed, h]
  | dspClock ch c => by_cases h : ch = 3#2 <;> simp [rangeError, Instr.wellFormed, h]

theorem decode_command_wellFormed {w : Word} {i : Instr} (h : decode w = .command i) : i.wellFormed = true := by
  rw [← rangeError_none_iff]
  simp only [decode] at h
  split at h
  · split at h
    · cases h
    · split at h
      · cases h
      · cases h; assumption
  · cases h

theorem rangeError_ne_none {i : Instr} {c : ErrCode} (h : rangeError i = some c) : c ≠ .none := by
  cases i <;> simp only [rangeError] at h <;> (repeat' split at h) <;> cases h <;> nofun

theorem decode_reject_ne_none {w : Word} {c : ErrCode} (h : decode w = .reject c) : c ≠ .none := by
  simp only [decode] at h
  split at h
  · split at h
    · cases h; nofun
    · split at h
      · cases h; exact rangeError_ne_none (by assumption)
      · cases h
  · cases h; nofun

theorem chanOf_of_ne {ch : BitVec 2} (h : ch ≠ 3#2) : ∃ k, chanOf ch = some k := by
  have : ∀ ch : BitVec 2, ch ≠ 3#2 → (chanOf ch).isSome = true := by decide
  exact Option.isSome_iff_exists.mp (this ch h)

/-! ### Submitting -/

/-- What a command does at its CMD write: it is rejected, or the CMD read view takes its word and, but for NOP, the host
slot and one request slot fill (60_exceptions.md R263). -/
theorem exec_cases {i : Instr} {s t : State} (h : exec i s = .next t) :
    (∃ c, c ≠ .none ∧ t = raiseError c (encode i) s) ∨
      (s.hostSlot = none ∧ (t = { s with regs := { s.regs with cmd := encode i } } ∨
        (∃ op, t = queueLfs (encode i) op { s with regs := { s.regs with cmd := encode i } }) ∨
        ∃ op, t = queueDpe (encode i) op { s with regs := { s.regs with cmd := encode i } })) := by
  have key : ∀ acc : State → State, (Host.Outcome.next (submitCommand i s acc) : Host.Outcome State Fault Refusal) = .next t →
      (∃ c, c ≠ .none ∧ t = raiseError c (encode i) s) ∨ (s.hostSlot = none ∧ rangeError i = none ∧
        t = acc { s with regs := { s.regs with cmd := encode i } }) := by
    intro acc ht
    cases ht
    unfold submitCommand
    split
    · exact .inl ⟨.busy, nofun, rfl⟩
    · rename_i hs
      split
      · rename_i hr; exact .inl ⟨_, rangeError_ne_none hr, rfl⟩
      · exact .inr ⟨by simpa using hs, by assumption, rfl⟩
  have chan : ∀ (ch : BitVec 2) (w : Word) (op : Chan → DpeOp) (u : State), queueOnChan ch w op u = u ∨
      ∃ o, queueOnChan ch w op u = queueDpe w o u := by
    intro ch w op u
    unfold queueOnChan
    split
    · exact .inr ⟨_, rfl⟩
    · exact .inl rfl
  cases i with
  | nop =>
    rcases key id h with h | ⟨h1, -, h2⟩
    · exact .inl h
    · exact .inr ⟨h1, .inl h2⟩
  | ledInit =>
    rcases key _ h with h | ⟨h1, -, h2⟩
    · exact .inl h
    · exact .inr ⟨h1, .inr (.inl ⟨_, h2⟩)⟩
  | ledTx p n =>
    rcases key _ h with h | ⟨h1, -, h2⟩
    · exact .inl h
    · exact .inr ⟨h1, .inr (.inl ⟨_, h2⟩)⟩
  | ledFill p n =>
    rcases key _ h with h | ⟨h1, -, h2⟩
    · exact .inl h
    · exact .inr ⟨h1, .inr (.inl ⟨_, h2⟩)⟩
  | dspSegs ch a l c =>
    rcases key _ h with h | ⟨h1, -, h2⟩
    · exact .inl h
    · refine .inr ⟨h1, ?_⟩
      rcases chan ch _ _ _ with h3 | ⟨o, h3⟩
      · exact .inl (h2.trans h3)
      · exact .inr (.inr ⟨o, h2.trans h3⟩)
  | dspNum ch =>
    rcases key _ h with h | ⟨h1, -, h2⟩
    · exact .inl h
    · refine .inr ⟨h1, ?_⟩
      rcases chan ch _ _ _ with h3 | ⟨o, h3⟩
      · exact .inl (h2.trans h3)
      · exact .inr (.inr ⟨o, h2.trans h3⟩)
  | dspClock ch c =>
    rcases key _ h with h | ⟨h1, -, h2⟩
    · exact .inl h
    · refine .inr ⟨h1, ?_⟩
      rcases chan ch _ _ _ with h3 | ⟨o, h3⟩
      · exact .inl (h2.trans h3)
      · exact .inr (.inr ⟨o, h2.trans h3⟩)

/-- Every command answers a next state. -/
theorem exec_next (i : Instr) (s : State) : ∃ t, exec i s = .next t := by cases i <;> exact ⟨_, rfl⟩

/-- A submission is a rejection, or the command's meaning with the host slot empty. -/
theorem submit_cases {w : Word} {s t : State} (h : submit w s = .next t) :
    (∃ c, c ≠ .none ∧ t = raiseError c w s) ∨ (s.hostSlot = none ∧ ∃ i, decode w = .command i ∧ exec i s = .next t) := by
  unfold submit at h
  split at h
  · cases h; exact .inl ⟨.busy, nofun, rfl⟩
  · rename_i hs
    split at h
    · rename_i hd; cases h; exact .inl ⟨_, decode_reject_ne_none hd, rfl⟩
    · exact .inr ⟨by simpa using hs, _, by assumption, h⟩

/-- Every submission answers a next state (60_exceptions.md R260). -/
theorem submit_next (w : Word) (s : State) : ∃ t, submit w s = .next t := by
  unfold submit
  split
  · exact ⟨_, rfl⟩
  · split
    · exact ⟨_, rfl⟩
    · exact exec_next _ _

/-! ### Host accesses -/

/-- Every host write answers a next state (60_exceptions.md R260). -/
theorem memWrite_next (a : Addr) (v : Word) (s : State) : ∃ t, memWrite a v s = .next t := by
  unfold memWrite
  split
  · exact ⟨_, rfl⟩
  · split
    · exact ⟨_, rfl⟩
    · exact ⟨_, rfl⟩
    · exact submit_next v s
    · exact ⟨_, rfl⟩

theorem targetOf_pixel_lt {a : Addr} {i : Nat} (h : targetOf a = .pixel i) : i < 1024 := by
  unfold targetOf at h
  split at h <;> first | contradiction | skip
  split at h
  · cases h; omega
  · contradiction

/-- What a host read does to the block: an error record, a free value used up, or nothing (20_memory.md R85). -/
theorem afterMemRead_cases (a : Addr) (s : State) :
    (∃ c w, c ≠ .none ∧ afterMemRead a s = raiseError c w s) ∨ ∃ n, afterMemRead a s = { s with draws := n } := by
  unfold afterMemRead
  split
  · exact .inl ⟨_, _, by nofun, rfl⟩
  · split
    · exact .inl ⟨_, _, by nofun, rfl⟩
    · exact .inr (afterPixRead_eq s _)
    · exact .inr ⟨s.draws, rfl⟩

/-- What a host write does to the block: an error record, a pixel word, a register, or a command (20_memory.md R86). -/
theorem memWrite_cases {a : Addr} {v : Word} {s t : State} (h : memWrite a v s = .next t) :
    (∃ c w, c ≠ .none ∧ t = raiseError c w s) ∨ (∃ i, i < 1024 ∧ t = pixWrite s i v) ∨ (∃ r, t = writeReg r v s) ∨
      (s.hostSlot = none ∧ ∃ i, decode v = .command i ∧ exec i s = .next t) := by
  unfold memWrite at h
  split at h
  · cases h; exact .inl ⟨_, _, by nofun, rfl⟩
  · split at h
    · cases h; exact .inl ⟨_, _, by nofun, rfl⟩
    · rename_i hp; cases h; exact .inr (.inl ⟨_, targetOf_pixel_lt hp, rfl⟩)
    · rcases submit_cases h with ⟨c, hc, h⟩ | h
      · exact .inl ⟨c, _, hc, h⟩
      · exact .inr (.inr (.inr h))
    · cases h; exact .inr (.inr (.inl ⟨_, rfl⟩))

/-- A register write changes registers only. -/
theorem writeReg_eq (r : RegName) (v : Word) (s : State) : writeReg r v s = { s with regs := (writeReg r v s).regs } := by
  cases r <;> rfl

/-- A read of an aligned register address shows the register. -/
theorem memReadValue_reg {a : Addr} {r : RegName} (h1 : misaligned a = false) (h2 : targetOf a = .reg r) (s : State) :
    memReadValue a s = readReg r s := by
  simp [memReadValue, h1, h2]

/-- The digit-table window at its offsets (20_memory.md R81, 10_state.md R49). -/
theorem memReadValue_segrom (j : Fin 5) (s : State) :
    memReadValue (BitVec.ofNat 16 (0x080 + 4 * j.val)) s = segromWord s.par.segRom j := by
  have h : misaligned (BitVec.ofNat 16 (0x080 + 4 * j.val)) = false ∧
      targetOf (BitVec.ofNat 16 (0x080 + 4 * j.val)) = .reg (.segrom j) := by
    revert j
    decide
  exact (memReadValue_reg h.1 h.2 s).trans BitVec.and_allOnes

end Sys2Proof.Machine
end

