-- ==== Sys2Proof/Laws/Dpe.lean ====
section
/-! SUPPORT. What runs of the DPE do: one lemma per micro-step, then per start, bit, acknowledge, stop, phase and segment
write. A busy DPE whose micro-steps left to do are `todo` is written `dpeAdvance r todo s`: whatever `s.dpe` is, `todo`
replaces it. -/

namespace Sys2Proof.Machine

open Sys2Proof

theorem dpeSteps_add (a b : Nat) (s : State) : dpeSteps (a + b) s = dpeSteps b (dpeSteps a s) := by
  induction a generalizing s with
  | zero => simp [dpeSteps]
  | succ n ih => rw [Nat.succ_add]; exact ih _

@[simp] theorem dpeSteps_zero (s : State) : dpeSteps 0 s = s := rfl

@[simp] theorem dpeStep_pullClk (r : DpeRun) (rest : List DpeAct) (s : State) :
    dpeStep (dpeAdvance r (.pullClk :: rest) s) = dpeAdvance r rest (pullLow (.dclk r.chan) s) := by
  cases rest <;> rfl

@[simp] theorem dpeStep_pullDio (r : DpeRun) (rest : List DpeAct) (s : State) :
    dpeStep (dpeAdvance r (.pullDio :: rest) s) = dpeAdvance r rest (pullLow (.ddio r.chan) s) := by
  cases rest <;> rfl

@[simp] theorem dpeStep_relClk (r : DpeRun) (rest : List DpeAct) (s : State) :
    dpeStep (dpeAdvance r (.relClk :: rest) s) = dpeAdvance r rest (release (.dclk r.chan) s) := by
  cases rest <;> rfl

@[simp] theorem dpeStep_relDio (r : DpeRun) (rest : List DpeAct) (s : State) :
    dpeStep (dpeAdvance r (.relDio :: rest) s) = dpeAdvance r rest (release (.ddio r.chan) s) := by
  cases rest <;> rfl

@[simp] theorem dpeStep_hold (r : DpeRun) (rest : List DpeAct) (s : State) :
    dpeStep (dpeAdvance r (.hold :: rest) s) = dpeAdvance r rest (holdFor .dpe r.bitDly.toNat s) := by
  cases rest <;> rfl

@[simp] theorem dpeStep_sample (r : DpeRun) (rest : List DpeAct) (s : State) :
    dpeStep (dpeAdvance r (.sample :: rest) s) =
      dpeAdvance { r with acks := r.acks ++ [!dioLevel s r.chan] } rest
        (s.emit (.sample (.ddio r.chan) (dioLevel s r.chan))) := by
  cases rest <;> rfl

@[simp] theorem dpeStep_record (r : DpeRun) (rest : List DpeAct) (s : State) :
    dpeStep (dpeAdvance r (.record :: rest) s) =
      dpeAdvance r rest { s with regs := recordAcks s.regs r.acks r.chan } := by
  cases rest <;> rfl

@[simp] theorem dpeStep_skip (r : DpeRun) (rest : List DpeAct) (s : State) :
    dpeStep (dpeAdvance r (.skip :: rest) s) = dpeAdvance r rest s := by
  cases rest <;> rfl

@[simp] theorem three_set_set {α : Type} (p : Three α) (k : Chan) (v w : α) : (p.set k v).set k w = p.set k w := by
  cases k <;> rfl

/-- The state with a channel's two lines set and some events emitted. -/
def dspMoved (k : Chan) (c d : Drain) (es : List Event) (s : State) : State :=
  { s with
    lines := { s.lines with dclk := s.lines.dclk.set k c, ddio := s.lines.ddio.set k d }, hist := s.hist ++ es }

@[simp] theorem dspMoved_dspMoved (k : Chan) (c d c' d' : Drain) (es es' : List Event) (s : State) :
    dspMoved k c' d' es' (dspMoved k c d es s) = dspMoved k c' d' (es ++ es') s := by simp [dspMoved]

@[simp] theorem dspMoved_env (k : Chan) (c d : Drain) (es : List Event) (s : State) :
    (dspMoved k c d es s).env = s.env := rfl

/-- Start(k): six turns; both lines end low (41_display_engine.md R172). -/
theorem dpe_start (r : DpeRun) (rest : List DpeAct) (s : State) :
    dpeSteps 6 (dpeAdvance r (startActs ++ rest) s) =
      dpeAdvance r rest (dspMoved r.chan .low .low (startEvents r.chan r.bitDly.toNat) s) := by
  simp only [startActs, List.cons_append, List.nil_append, dpeSteps, dpeStep_relDio, dpeStep_pullDio, dpeStep_pullClk,
    dpeStep_hold]
  congr 1
  simp [pullLow, release, holdFor, dspMoved, startEvents, State.emit, Lines.setDrain]

/-- One bit: five turns; the clock ends released, the data line at the bit (41_display_engine.md R173). -/
theorem dpe_bit (r : DpeRun) (b : Bool) (rest : List DpeAct) (s : State) :
    dpeSteps 5 (dpeAdvance r (dspBitActs b ++ rest) s) =
      dpeAdvance r rest (dspMoved r.chan .z (if b then .z else .low) (dspBitEvents r.chan r.bitDly.toNat b) s) := by
  cases b
  all_goals
    simp only [dspBitActs, List.cons_append, List.nil_append, dpeSteps, dpeStep_relDio, dpeStep_pullDio,
      dpeStep_pullClk, dpeStep_relClk, dpeStep_hold, if_true, if_false, Bool.false_eq_true]
    congr 1
    simp [pullLow, release, holdFor, dspMoved, dspBitEvents, State.emit, Lines.setDrain]

/-- Ack(k): six turns; both lines end released, and the display's level is taken (41_display_engine.md R174, R178). -/
theorem dpe_ack (r : DpeRun) (rest : List DpeAct) (s : State) :
    dpeSteps 6 (dpeAdvance r (ackActs ++ rest) s) =
      dpeAdvance { r with acks := r.acks ++ [s.env.dioPull.get r.chan] } rest
        (dspMoved r.chan .z .z (ackEvents r.chan r.bitDly.toNat (!s.env.dioPull.get r.chan)) s) := by
  simp only [ackActs, List.cons_append, List.nil_append, dpeSteps, dpeStep_relDio,
    dpeStep_pullClk, dpeStep_relClk, dpeStep_hold, dpeStep_sample]
  congr 1
  · simp [pullLow, release, holdFor, State.emit, Lines.setDrain, dioLevel]
  · simp [pullLow, release, holdFor, dspMoved, ackEvents, State.emit, Lines.setDrain, dioLevel]

/-- Stop(k): seven turns; both lines end released (41_display_engine.md R175). -/
theorem dpe_stop (r : DpeRun) (rest : List DpeAct) (s : State) :
    dpeSteps 7 (dpeAdvance r (stopActs ++ rest) s) =
      dpeAdvance r rest (dspMoved r.chan .z .z (stopEvents r.chan r.bitDly.toNat) s) := by
  simp only [stopActs, List.cons_append, List.nil_append, dpeSteps, dpeStep_relDio, dpeStep_pullDio, dpeStep_pullClk,
    dpeStep_relClk, dpeStep_hold]
  congr 1
  simp [pullLow, release, holdFor, dspMoved, stopEvents, State.emit, Lines.setDrain]

/-- WriteByte(k, b): 46 turns (41_display_engine.md R176). -/
theorem dpe_byte (r : DpeRun) (b : Byte) (rest : List DpeAct) (s : State) :
    dpeSteps 46 (dpeAdvance r (writeByteActs b ++ rest) s) =
      dpeAdvance { r with acks := r.acks ++ [s.env.dioPull.get r.chan] } rest
        (dspMoved r.chan .z .z (dspByteEvents r.chan r.bitDly.toNat (!s.env.dioPull.get r.chan) b) s) := by
  simp only [writeByteActs, sendBitsActs, List.append_assoc]
  rw [show 46 = 5 + (5 + (5 + (5 + (5 + (5 + (5 + (5 + 6))))))) from rfl]
  simp only [dpeSteps_add, dpe_bit, dpe_ack, dspMoved_dspMoved, dspMoved_env]
  simp [dspByteEvents, bitsLsb]

/-- The bytes of a phase. -/
theorem dpe_bytes (bs : List Byte) (r : DpeRun) (rest : List DpeAct) (c d : Drain) (es : List Event) (s : State) :
    ∃ c' d', dpeSteps (46 * bs.length) (dpeAdvance r (bs.flatMap writeByteActs ++ rest) (dspMoved r.chan c d es s)) =
      dpeAdvance { r with acks := r.acks ++ List.replicate bs.length (s.env.dioPull.get r.chan) } rest
        (dspMoved r.chan c' d'
          (es ++ bs.flatMap (dspByteEvents r.chan r.bitDly.toNat (!s.env.dioPull.get r.chan))) s) := by
  induction bs generalizing r c d es with
  | nil => exact ⟨c, d, by simp⟩
  | cons b bs ih =>
    obtain ⟨c', d', h⟩ := ih { r with acks := r.acks ++ [s.env.dioPull.get r.chan] } .z .z
      (es ++ dspByteEvents r.chan r.bitDly.toNat (!s.env.dioPull.get r.chan) b)
    refine ⟨c', d', ?_⟩
    rw [show 46 * (b :: bs).length = 46 + 46 * bs.length by simp; omega, dpeSteps_add, List.flatMap_cons,
      List.append_assoc, dpe_byte]
    simp only [dspMoved_dspMoved, dspMoved_env]
    rw [h]
    simp [List.replicate_succ]

/-- Phase(k, bytes) (41_display_engine.md R177). -/
theorem dpe_phase (r : DpeRun) (bs : List Byte) (rest : List DpeAct) (s : State) :
    dpeSteps (13 + 46 * bs.length) (dpeAdvance r (phaseActs bs ++ rest) s) =
      dpeAdvance { r with acks := r.acks ++ List.replicate bs.length (s.env.dioPull.get r.chan) } rest
        (dspMoved r.chan .z .z (phaseEvents r.chan r.bitDly.toNat (!s.env.dioPull.get r.chan) bs) s) := by
  rw [show 13 + 46 * bs.length = 6 + (46 * bs.length + 7) by omega, dpeSteps_add, dpeSteps_add, phaseActs,
    List.append_assoc, List.append_assoc, dpe_start]
  obtain ⟨c, d, h⟩ := dpe_bytes bs r (stopActs ++ rest) .low .low (startEvents r.chan r.bitDly.toNat) s
  rw [h, dpe_stop, dspMoved_dspMoved]
  rfl

/-- A segment write, started: its three phases and the record (41_display_engine.md R185, R190). -/
theorem dpe_segWrite (r : DpeRun) (addr : BitVec 2) (segs : List Byte) (colon : Bool) (nibble : BitVec 4) (s : State)
    (h : r.acks = []) :
    dpeSteps (segWriteTurns segs.length) (dpeAdvance r (segWriteActs addr segs colon nibble) s) =
      dpeAdvance { r with acks := List.replicate (3 + segs.length) (s.env.dioPull.get r.chan) } []
        { dspMoved r.chan .z .z (phasesEvents r.chan r.bitDly.toNat (!s.env.dioPull.get r.chan)
            (segPhases addr segs colon nibble)) s with
          regs := recordAcks s.regs (List.replicate (3 + segs.length) (s.env.dioPull.get r.chan)) r.chan } := by
  have e : segWriteTurns segs.length = (13 + 46 * [0x40#8].length) +
      ((13 + 46 * ((0xC0#8 ||| addr.setWidth 8) :: segs.map (withColon colon)).length) +
        ((13 + 46 * [0x80#8 ||| nibble.setWidth 8].length) + 1)) := by
    simp [segWriteTurns]; omega
  rw [e, dpeSteps_add, dpeSteps_add, dpeSteps_add, segWriteActs, segPhases]
  simp only [List.flatMap_cons, List.flatMap_nil, List.append_nil, List.append_assoc, dpe_phase, dspMoved_dspMoved,
    dspMoved_env, dpeSteps, dpeStep_record, h, List.nil_append]
  have e2 : List.replicate [0x40#8].length (s.env.dioPull.get r.chan) ++
      (List.replicate ((0xC0#8 ||| addr.setWidth 8) :: segs.map (withColon colon)).length (s.env.dioPull.get r.chan) ++
        List.replicate [0x80#8 ||| nibble.setWidth 8].length (s.env.dioPull.get r.chan)) =
      List.replicate (3 + segs.length) (s.env.dioPull.get r.chan) := by
    rw [List.replicate_append_replicate, List.replicate_append_replicate]
    congr 1; simp; omega
  rw [e2]
  simp [phasesEvents, dspMoved]

theorem segWriteActs_ne_nil (addr : BitVec 2) (segs : List Byte) (colon : Bool) (nibble : BitVec 4) :
    segWriteActs addr segs colon nibble ≠ [] := by simp [segWriteActs]

theorem dpeActs_ne_nil (rom : Vector Byte 19) (nibble : BitVec 4) (op : DpeOp) : dpeActs rom nibble op ≠ [] := by
  cases op with
  | segs k addr bytes colon => exact segWriteActs_ne_nil _ _ _ _
  | num k v => simp only [dpeActs]; split <;> simp [segWriteActs_ne_nil]
  | clock k s colon => exact segWriteActs_ne_nil _ _ _ _

/-- The run an operation starts with. -/
def dpeRunOf (op : DpeOp) (o : Requester) (s : State) : DpeRun :=
  { op := op, owner := o, chan := dpeChan op, bitDly := bitDlyOf s.regs (dpeChan op), todo := [], acks := [] }

theorem dpeStart_eq (op : DpeOp) (o : Requester) (s : State) :
    dpeStart op o s =
      dpeAdvance (dpeRunOf op o s) (dpeActs s.par.segRom (nibbleOf s.regs (dpeChan op)) op) s := by
  obtain ⟨a, l, h⟩ := List.exists_cons_of_ne_nil (dpeActs_ne_nil s.par.segRom (nibbleOf s.regs (dpeChan op)) op)
  simp only [dpeStart, dpeAdvance, dpeRunOf, h]

/-- An idle DPE starts the host's operation when the EVD has none. -/
theorem dpeStep_start_host {s : State} {op : DpeOp} (h1 : s.dpe = none) (h2 : s.dpeEvdReq = none)
    (h3 : s.dpeHostReq = some op) :
    dpeStep s = dpeAdvance (dpeRunOf op .host s) (dpeActs s.par.segRom (nibbleOf s.regs (dpeChan op)) op)
      { s with dpeHostReq := none } := by
  simp only [dpeStep, h1, h2, h3, dpeStart_eq]; rfl

/-- An idle DPE starts the EVD's operation first. -/
theorem dpeStep_start_evd {s : State} {op : DpeOp} (h1 : s.dpe = none) (h2 : s.dpeEvdReq = some op) :
    dpeStep s = dpeAdvance (dpeRunOf op .evd s) (dpeActs s.par.segRom (nibbleOf s.regs (dpeChan op)) op)
      { s with dpeEvdReq := none } := by
  simp only [dpeStep, h1, h2, dpeStart_eq]; rfl

/-! ### What one turn can do -/

theorem dpeAdvance_cases (r : DpeRun) (rest : List DpeAct) (s : State) :
    (rest = [] ∧ dpeAdvance r rest s = complete r.owner { s with dpe := none }) ∨
      (rest ≠ [] ∧ dpeAdvance r rest s = { s with dpe := some { r with todo := rest } }) := by
  cases rest
  · exact .inl ⟨rfl, rfl⟩
  · exact .inr ⟨by simp, rfl⟩

/-- Setting one channel's line leaves the LED lines and the other channels' lines alone. -/
theorem setDrain_frame (l : Lines) (p : DspPin) (v : Drain) (k j : Chan) (hp : p = .dclk k ∨ p = .ddio k) (hj : j ≠ k) :
    (l.setDrain p v).ledDat = l.ledDat ∧ (l.setDrain p v).ledClk = l.ledClk ∧
      (l.setDrain p v).dclk.get j = l.dclk.get j ∧ (l.setDrain p v).ddio.get j = l.ddio.get j := by
  rcases hp with rfl | rfl <;> simp [Lines.setDrain, three_get_set_ne _ (Ne.symm hj)]

/-- What the next micro-step leaves of a run, its lines and its acknowledges: `dpeMicro` by cases of the step. -/
theorem dpeMicro_cases (r : DpeRun) (s : State) : ∃ l g e r' rest,
    (∀ j, j ≠ r.chan → l.dclk.get j = s.lines.dclk.get j ∧ l.ddio.get j = s.lines.ddio.get j) ∧
      l.ledDat = s.lines.ledDat ∧ l.ledClk = s.lines.ledClk ∧
      (g = s.regs ∨ g = recordAcks s.regs r.acks r.chan) ∧
      r'.op = r.op ∧ r'.owner = r.owner ∧ r'.chan = r.chan ∧ r'.bitDly = r.bitDly ∧
      (rest = r.todo.tail) ∧
      linesAfter r.todo (s.lines.dclk.get r.chan, s.lines.ddio.get r.chan) =
        linesAfter rest (l.dclk.get r.chan, l.ddio.get r.chan) ∧
      dpeMicro r s = dpeAdvance r' rest { s with lines := l, regs := g, hist := e } := by
  match ht : r.todo with
  | [] =>
    exact ⟨s.lines, s.regs, s.hist, r, [], fun _ _ => ⟨rfl, rfl⟩, rfl, rfl, .inl rfl, rfl, rfl, rfl, rfl, by simp, rfl,
      by simp only [dpeMicro, ht]; rfl⟩
  | .pullClk :: rest =>
    exact ⟨s.lines.setDrain (.dclk r.chan) .low, s.regs, _, r, rest,
      fun j hj => (setDrain_frame _ _ _ _ _ (.inl rfl) hj).2.2, Lines.setDrain_ledDat _ _ _,
      Lines.setDrain_ledClk _ _ _, .inl rfl, rfl, rfl, rfl, rfl, by simp,
      by simp [linesAfter, Lines.setDrain], by simp only [dpeMicro, ht]; rfl⟩
  | .pullDio :: rest =>
    exact ⟨s.lines.setDrain (.ddio r.chan) .low, s.regs, _, r, rest,
      fun j hj => (setDrain_frame _ _ _ _ _ (.inr rfl) hj).2.2, Lines.setDrain_ledDat _ _ _,
      Lines.setDrain_ledClk _ _ _, .inl rfl, rfl, rfl, rfl, rfl, by simp,
      by simp [linesAfter, Lines.setDrain], by simp only [dpeMicro, ht]; rfl⟩
  | .relClk :: rest =>
    exact ⟨s.lines.setDrain (.dclk r.chan) .z, s.regs, _, r, rest,
      fun j hj => (setDrain_frame _ _ _ _ _ (.inl rfl) hj).2.2, Lines.setDrain_ledDat _ _ _,
      Lines.setDrain_ledClk _ _ _, .inl rfl, rfl, rfl, rfl, rfl, by simp,
      by simp [linesAfter, Lines.setDrain], by simp only [dpeMicro, ht]; rfl⟩
  | .relDio :: rest =>
    exact ⟨s.lines.setDrain (.ddio r.chan) .z, s.regs, _, r, rest,
      fun j hj => (setDrain_frame _ _ _ _ _ (.inr rfl) hj).2.2, Lines.setDrain_ledDat _ _ _,
      Lines.setDrain_ledClk _ _ _, .inl rfl, rfl, rfl, rfl, rfl, by simp,
      by simp [linesAfter, Lines.setDrain], by simp only [dpeMicro, ht]; rfl⟩
  | .hold :: rest =>
    exact ⟨s.lines, s.regs, _, r, rest, fun _ _ => ⟨rfl, rfl⟩, rfl, rfl, .inl rfl, rfl, rfl, rfl, rfl, by simp, rfl,
      by simp only [dpeMicro, ht]; rfl⟩
  | .sample :: rest =>
    exact ⟨s.lines, s.regs, _, { r with acks := r.acks ++ [!dioLevel s r.chan] }, rest, fun _ _ => ⟨rfl, rfl⟩, rfl, rfl, .inl rfl, rfl, rfl, rfl,
      rfl, by simp, rfl, by simp only [dpeMicro, ht]; rfl⟩
  | .record :: rest =>
    exact ⟨s.lines, _, s.hist, r, rest, fun _ _ => ⟨rfl, rfl⟩, rfl, rfl, .inr rfl, rfl, rfl, rfl, rfl, by simp, rfl,
      by simp only [dpeMicro, ht]⟩
  | .skip :: rest =>
    exact ⟨s.lines, s.regs, s.hist, r, rest, fun _ _ => ⟨rfl, rfl⟩, rfl, rfl, .inl rfl, rfl, rfl, rfl, rfl, by simp, rfl,
      by simp only [dpeMicro, ht]⟩

/-- One turn of the DPE: nothing, a start, or a micro-step. -/
theorem dpeStep_cases (s : State) :
    (s.dpe = none ∧ s.dpeEvdReq = none ∧ s.dpeHostReq = none ∧ dpeStep s = s) ∨
      (∃ op, s.dpe = none ∧ s.dpeEvdReq = some op ∧ dpeStep s = dpeStart op .evd { s with dpeEvdReq := none }) ∨
      (∃ op, s.dpe = none ∧ s.dpeEvdReq = none ∧ s.dpeHostReq = some op ∧
        dpeStep s = dpeStart op .host { s with dpeHostReq := none }) ∨
      ∃ r, s.dpe = some r ∧ dpeStep s = dpeMicro r s := by
  cases h : s.dpe with
  | some r => exact .inr (.inr (.inr ⟨r, rfl, by simp [dpeStep, h]⟩))
  | none =>
    cases h2 : s.dpeEvdReq with
    | some op => exact .inr (.inl ⟨op, rfl, rfl, by simp [dpeStep, h, h2]⟩)
    | none =>
      cases h3 : s.dpeHostReq with
      | some op => exact .inr (.inr (.inl ⟨op, rfl, rfl, rfl, by simp [dpeStep, h, h2, h3]⟩))
      | none => exact .inl ⟨rfl, rfl, rfl, by simp [dpeStep, h, h2, h3]⟩

/-- The micro-steps of a phase end with both lines released. -/
theorem linesAfter_append (a b : List DpeAct) (l : Drain × Drain) :
    linesAfter (a ++ b) l = linesAfter b (linesAfter a l) := by
  induction a generalizing l with
  | nil => rfl
  | cons x xs ih => cases x <;> exact ih _

/-- The micro-steps of an operation, done from released lines, end with released lines (41_display_engine.md R179). -/
theorem linesAfter_dpeActs (rom : Vector Byte 19) (nibble : BitVec 4) (op : DpeOp) :
    linesAfter (dpeActs rom nibble op) (.z, .z) = (.z, .z) := by
  have phase : ∀ bs rest l, linesAfter (phaseActs bs ++ rest) l = linesAfter rest (.z, .z) := by
    intro bs rest l
    rw [phaseActs, List.append_assoc, linesAfter_append]
    rfl
  have write : ∀ addr segs colon, linesAfter (segWriteActs addr segs colon nibble) (.z, .z) = (.z, .z) := by
    intro addr segs colon
    simp only [segWriteActs, segPhases, List.flatMap_cons, List.flatMap_nil, List.append_assoc, phase]
    rfl
  cases op with
  | segs k addr bytes colon => exact write _ _ _
  | num k v => simp only [dpeActs]; split; rfl; exact write _ _ _
  | clock k s colon => exact write _ _ _

/-- A DPE turn leaves every register but DACK and DNACK, the pixel RAM, the LFS, the EVD and the LED lines alone. -/
theorem dpeStep_frame (s : State) :
    ∃ l g es h a b r,
      dpeStep s = { s with
        lines := l, regs := g, hist := es, hostSlot := h, dpeEvdReq := a, dpeHostReq := b, dpe := r } ∧
      l.ledDat = s.lines.ledDat ∧ l.ledClk = s.lines.ledClk ∧
      (g = s.regs ∨ ∃ r, s.dpe = some r ∧ g = recordAcks s.regs r.acks r.chan) := by
  rcases dpeStep_cases s with ⟨-, -, -, e⟩ | ⟨op, -, -, e⟩ | ⟨op, -, -, -, e⟩ | ⟨r, hr, e⟩
  · exact ⟨_, _, _, _, _, _, _, e, rfl, rfl, .inl rfl⟩
  · exact ⟨_, _, _, _, _, _, _, e, rfl, rfl, .inl rfl⟩
  · exact ⟨_, _, _, _, _, _, _, e, rfl, rfl, .inl rfl⟩
  · obtain ⟨l, g, es, r', rest, -, h1, h2, h3, -, -, -, -, -, -, e2⟩ := dpeMicro_cases r s
    have h3' : (g = s.regs ∨ ∃ r, s.dpe = some r ∧ g = recordAcks s.regs r.acks r.chan) := by
      rcases h3 with h | h
      · exact .inl h
      · exact .inr ⟨r, hr, h⟩
    rcases dpeAdvance_cases r' rest { s with lines := l, regs := g, hist := es } with ⟨-, e3⟩ | ⟨-, e3⟩
    · obtain ⟨hh, e4⟩ := complete_eq r'.owner { s with lines := l, regs := g, hist := es, dpe := none }
      exact ⟨_, _, _, _, _, _, _, e.trans (e2.trans (e3.trans e4)), h1, h2, h3'⟩
    · exact ⟨_, _, _, _, _, _, _, e.trans (e2.trans e3), h1, h2, h3'⟩

theorem renderNum_length (rom : Vector Byte 19) (v : Nat) : (renderNum rom v).length = 4 := by
  have : (decDigits v).length ≤ 4 := by
    unfold decDigits
    split
    · simp
    · split
      · simp
      · split <;> simp
  unfold renderNum
  split
  · rfl
  · simp only [List.length_append, List.length_replicate, List.length_map]
    omega

theorem convertToClock_length (rom : Vector Byte 19) (s : Int) : (convertToClock rom s).length = 4 := rfl

theorem map_withColon_false (bytes : List Byte) : bytes.map (withColon false) = bytes :=
  List.map_id bytes

end Sys2Proof.Machine
end

