-- ==== Sys2Proof/Laws/Env.lean ====
section
/-! SUPPORT. What ENV and the edge detectors can do to the block. -/

namespace Sys2Proof.Machine

open Sys2Proof

/-- An event of ENV resets the block, or changes inputs, a pending bit, TSTART at release, or a completed handshake. -/
theorem envApply_cases (e : EnvEvent) (s : State) :
    (e = .rst true ∧ envApply e s = resetBlock { s with env := { s.env with rst := true } }) ∨
      ∃ i g x t es, envApply e s = { s with env := i, regs := g, hwx := x, tone := t, hist := es } ∧
        (g = s.regs ∨ g = setPending s.regs .timer ∨ (s.env.rst = true ∧ g = { s.regs with tstart := s.env.tick })) ∧
        (x = s.hwx ∨ x = .idle) ∧ (t = s.tone ∨ t = .idle) := by
  have same : ∀ i, envApply e s = { s with env := i } → (e = .rst true ∧
      envApply e s = resetBlock { s with env := { s.env with rst := true } }) ∨
      ∃ i g x t es, envApply e s = { s with env := i, regs := g, hwx := x, tone := t, hist := es } ∧
        (g = s.regs ∨ g = setPending s.regs .timer ∨ (s.env.rst = true ∧ g = { s.regs with tstart := s.env.tick })) ∧
        (x = s.hwx ∨ x = .idle) ∧ (t = s.tone ∨ t = .idle) :=
    fun i h => .inr ⟨i, s.regs, s.hwx, s.tone, s.hist, h, .inl rfl, .inl rfl, .inl rfl⟩
  cases e with
  | tick ms => exact same _ rfl
  | sensor h lvl => exact same _ rfl
  | display k pull => exact same _ rfl
  | timerPulse =>
    by_cases h : s.env.rst = true
    · exact same s.env (by simp [envApply, h])
    · exact .inr ⟨s.env, _, s.hwx, s.tone, s.hist, by simp only [envApply, h]; rfl, .inr (.inl rfl), .inl rfl, .inl rfl⟩
  | hwDone =>
    by_cases h : s.env.rst = true
    · exact same s.env (by simp [envApply, h])
    · by_cases hx : s.hwx = .idle
      · have e : hwDone s = s := by simp [hwDone, hx]
        exact same s.env (by simp [envApply, e])
      · have hw : s.hwx = .waiting := by cases hx2 : s.hwx <;> simp_all
        exact .inr ⟨s.env, s.regs, .idle, s.tone, _, by simp only [envApply, h, hwDone, hw]; rfl, .inl rfl, .inr rfl,
          .inl rfl⟩
  | toneDone =>
    by_cases h : s.env.rst = true
    · exact same s.env (by simp [envApply, h])
    · by_cases hx : s.tone = .idle
      · have e : toneDone s = s := by simp [toneDone, hx]
        exact same s.env (by simp [envApply, e])
      · have hw : s.tone = .waiting := by cases hx2 : s.tone <;> simp_all
        exact .inr ⟨s.env, s.regs, s.hwx, .idle, _, by simp only [envApply, h, toneDone, hw]; rfl, .inl rfl, .inl rfl,
          .inr rfl⟩
  | rst b =>
    cases b with
    | true => exact .inl ⟨rfl, rfl⟩
    | false =>
      by_cases h : s.env.rst = true
      · exact .inr ⟨_, _, s.hwx, s.tone, s.hist, by simp only [envApply, releaseReset, h, if_true]; rfl,
          .inr (.inr ⟨h, rfl⟩), .inl rfl, .inl rfl⟩
      · exact same s.env (by simp [envApply, releaseReset, h])

/-- An edge detector sets its pending bit on a change away from the idle level and follows the line
(60_exceptions.md R270). -/
theorem observeHoop_eq (h : Hoop) (s : State) : ∃ g,
    observeHoop h s = { s with regs := g, prev := s.prev.set h.bit (s.env.sens.get h.bit) } ∧
      ((g = setPending s.regs (.sensor h) ∧ s.prev.get h.bit = s.par.sensIdle ∧
          s.env.sens.get h.bit ≠ s.par.sensIdle) ∨
        (g = s.regs ∧ ¬ (s.prev.get h.bit = s.par.sensIdle ∧ s.env.sens.get h.bit ≠ s.par.sensIdle))) := by
  unfold observeHoop
  by_cases hc : s.prev.get h.bit = s.par.sensIdle ∧ s.env.sens.get h.bit ≠ s.par.sensIdle
  · have e : sensorEdge h s = true := by simp [sensorEdge, hc.1, hc.2]
    exact ⟨_, by rw [e]; rfl, .inl ⟨rfl, hc.1, hc.2⟩⟩
  · have e : sensorEdge h s = false := by simpa [sensorEdge] using hc
    exact ⟨s.regs, by rw [e]; rfl, .inr ⟨rfl, hc⟩⟩

/-! ### Pending bits under an observation -/

theorem pending_setPending (r : Regs) (x y : Source) : pending (setPending r x) y = (pending r y || (y == x)) := by
  simp only [pending, setPending, BitVec.getLsbD_or]
  rcases x with ⟨_ | _⟩ | _ <;> rcases y with ⟨_ | _⟩ | _ <;> simp [sourceNum]

theorem pending_clearPending (r : Regs) (x y : Source) :
    pending (clearPending r x) y = (pending r y && !(y == x)) := by
  simp only [pending, clearPending, BitVec.getLsbD_and, BitVec.getLsbD_not]
  rcases x with ⟨_ | _⟩ | _ <;> rcases y with ⟨_ | _⟩ | _ <;> simp [sourceNum]

theorem pending_observeHoop (h : Hoop) (x : Source) (s : State) :
    pending (observeHoop h s).regs x = (pending s.regs x || (x == .sensor h && sensorEdge h s)) := by
  unfold observeHoop
  cases e : sensorEdge h s
  · simp [pending]
  · have := pending_setPending s.regs (.sensor h) x
    simp only [pending, if_true, Bool.and_true] at this ⊢
    exact this

/-- An observation sets exactly the pending bits of the hoops whose line has left its idle level. -/
theorem pending_observe (h : Hoop) (s : State) :
    pending (observe s).regs (.sensor h) = (pending s.regs (.sensor h) || sensorEdge h s) := by
  have h01 : (Source.sensor .h0 == Source.sensor .h1) = false := rfl
  have h10 : (Source.sensor .h1 == Source.sensor .h0) = false := rfl
  unfold observe
  rw [pending_observeHoop, pending_observeHoop]
  cases h <;> simp [sensorEdge, observeHoop, Two.set, Two.get, Hoop.bit, h01, h10]

theorem pending_observe_timer (s : State) : pending (observe s).regs .timer = pending s.regs .timer := by
  have h : ∀ h, (Source.timer == Source.sensor h) = false := fun h => by cases h <;> rfl
  unfold observe
  simp [pending_observeHoop, h]

@[simp] theorem observe_prev (s : State) : (observe s).prev = s.env.sens := rfl

@[simp] theorem observe_env (s : State) : (observe s).env = s.env := rfl

@[simp] theorem observe_par (s : State) : (observe s).par = s.par := rfl

/-- After an observation no line has left its idle level since. -/
@[simp] theorem sensorEdge_observe (h : Hoop) (s : State) : sensorEdge h (observe s) = false := by
  simp only [sensorEdge, observe_prev, observe_env, observe_par]
  cases s.par.sensIdle <;> cases s.env.sens.get h.bit <;> rfl

theorem observeLines_of_running {s : State} (h : s.env.rst = false) : observeLines s = observe s := by
  simp [observeLines, h]

theorem observeLines_of_reset {s : State} (h : s.env.rst = true) : observeLines s = s := by
  simp [observeLines, h]

end Sys2Proof.Machine
end

