-- ==== Sys2Proof/Laws/Evd.lean ====
section
/-! SUPPORT. What one turn of the EVD can do. -/

namespace Sys2Proof.Machine

open Sys2Proof

/-- The arbitration picks a dispatchable source, the drawn one if it is dispatchable (60_exceptions.md R274, R275). -/
theorem arbitrate_some {r : Regs} {pick x : Source} (h : arbitrate r pick = some x) : dispatchable r x = true := by
  unfold arbitrate at h
  split at h
  · cases h; assumption
  · split at h
    · cases h; assumption
    · split at h
      · cases h; assumption
      · split at h
        · cases h; assumption
        · cases h

theorem arbitrate_none {r : Regs} {pick : Source} (h : arbitrate r pick = none) (x : Source) :
    dispatchable r x = false := by
  unfold arbitrate at h
  split at h
  · cases h
  · split at h
    · cases h
    · split at h
      · cases h
      · split at h
        · cases h
        · rcases x with ⟨_ | _⟩ | _ <;> simp_all

/-- One turn of the EVD: nothing, a dispatch, or a step of the running handler, whose requests are all done. -/
theorem evdStep_cases (p : Source) (s : State) :
    evdStep p s = s ∨
      (∃ x, s.evd = .idle ∧ dispatchable s.regs x = true ∧ evdStep p s = dispatch x s) ∨
      (∃ r, s.evd = .sensor r ∧ evdBlocked s = false ∧ evdStep p s = sensorStep r s) ∨
      ∃ r, s.evd = .timer r ∧ evdBlocked s = false ∧ evdStep p s = timerStep r s := by
  cases h : s.evd with
  | idle =>
    cases ha : arbitrate s.regs p with
    | none => exact .inl (by simp [evdStep, h, ha])
    | some x => exact .inr (.inl ⟨x, rfl, arbitrate_some ha, by simp [evdStep, h, ha]⟩)
  | sensor r =>
    cases hb : evdBlocked s with
    | true => exact .inl (by simp [evdStep, h, hb])
    | false => exact .inr (.inr (.inl ⟨r, rfl, rfl, by simp [evdStep, h, hb]⟩))
  | timer r =>
    cases hb : evdBlocked s with
    | true => exact .inl (by simp [evdStep, h, hb])
    | false => exact .inr (.inr (.inr ⟨r, rfl, rfl, by simp [evdStep, h, hb]⟩))

/-- The registers a handler step may write: P<s>, LAST_DWELL, SCORE, TEAM (20_memory.md R91). -/
theorem sensorStep_regs (r : SensorRun) (s : State) :
    (r.pos = .clear ∧ (sensorStep r s).regs = clearPending s.regs (.sensor r.hoop)) ∨
      (r.pos = .dwell ∧ (sensorStep r s).regs = { s.regs with lastDwell := r.tExit - r.tEntry }) ∨
      (r.pos = .score ∧ ∃ v, (sensorStep r s).regs = { s.regs with score := v }) ∨
      (sensorStep r s).regs = s.regs := by
  cases h : r.pos with
  | clear => exact .inl ⟨rfl, by simp only [sensorStep, h]⟩
  | dwell => exact .inr (.inl ⟨rfl, by simp only [sensorStep, h]⟩)
  | score => exact .inr (.inr (.inl ⟨rfl, _, by simp only [sensorStep, h]; rfl⟩))
  | settle => exact .inr (.inr (.inr (by simp only [sensorStep, h]; split <;> rfl)))
  | await => exact .inr (.inr (.inr (by simp only [sensorStep, h]; split <;> rfl)))
  | classify => exact .inr (.inr (.inr (by simp only [sensorStep, h])))
  | tone => exact .inr (.inr (.inr (by simp only [sensorStep, h]; rfl)))
  | render => exact .inr (.inr (.inr (by simp only [sensorStep, h]; rfl)))
  | finish => exact .inr (.inr (.inr (by simp only [sensorStep, h]; rfl)))

theorem timerStep_regs (r : TimerRun) (s : State) :
    (r.pos = .clear ∧ (timerStep r s).regs = clearPending s.regs .timer) ∨
      (r.pos = .flip ∧ (timerStep r s).regs = { s.regs with team := s.regs.team ^^^ 0x00000003#32 }) ∨
      (timerStep r s).regs = s.regs := by
  cases h : r.pos with
  | clear => exact .inl ⟨rfl, by simp only [timerStep, h]⟩
  | flip => exact .inr (.inl ⟨rfl, by simp only [timerStep, h]⟩)
  | strip1 => exact .inr (.inr (by simp only [timerStep, h]; rfl))
  | strip2 => exact .inr (.inr (by simp only [timerStep, h]; rfl))
  | render0 => exact .inr (.inr (by simp only [timerStep, h]; rfl))
  | render1 => exact .inr (.inr (by simp only [timerStep, h]; rfl))
  | finish => exact .inr (.inr (by simp only [timerStep, h]; rfl))

/-- A sensor handler's step makes at most one request, and goes on or ends. -/
theorem sensorStep_eq {r : SensorRun} {s : State} (he : s.evd = .sensor r) : ∃ g e t q es,
    sensorStep r s = { s with regs := g, evd := e, tone := t, dpeEvdReq := q, hist := es } ∧
      (evdSource e = some (.sensor r.hoop) ∨ e = .idle) ∧
      (e = .idle → t = s.tone ∧ q = s.dpeEvdReq ∧ r.pos = .finish) ∧
      ((t = s.tone ∧ q = s.dpeEvdReq) ∨ (t = .waiting ∧ q = s.dpeEvdReq) ∨ (t = s.tone ∧ q.isSome = true)) := by
  cases h : r.pos with
  | clear => exact ⟨_, _, s.tone, s.dpeEvdReq, s.hist, by simp only [sensorStep, h]; rfl, (.inl (by rfl)), (by nofun), .inl ⟨rfl, rfl⟩⟩
  | settle =>
    by_cases hs : (tickNow s - s.regs.tstart).toNat < s.par.settleMs
    · exact ⟨s.regs, _, s.tone, s.dpeEvdReq, s.hist, by simp only [sensorStep, h, hs, if_true]; rfl, (.inl (by rfl)), (by nofun),
        .inl ⟨rfl, rfl⟩⟩
    · exact ⟨s.regs, _, s.tone, s.dpeEvdReq, s.hist, by simp only [sensorStep, h, hs, if_false]; rfl, (.inl (by rfl)), (by nofun),
        .inl ⟨rfl, rfl⟩⟩
  | await =>
    by_cases hs : sensorIdle s r.hoop = true
    · exact ⟨s.regs, _, s.tone, s.dpeEvdReq, s.hist, by simp only [sensorStep, h, hs, if_true]; rfl, (.inl (by rfl)), (by nofun),
        .inl ⟨rfl, rfl⟩⟩
    · exact ⟨s.regs, s.evd, s.tone, s.dpeEvdReq, s.hist, by simp only [sensorStep, h, hs]; rfl, .inl (by rw [he]; rfl),
        by simp [he], .inl ⟨rfl, rfl⟩⟩
  | dwell => exact ⟨_, _, s.tone, s.dpeEvdReq, s.hist, by simp only [sensorStep, h]; rfl, (.inl (by rfl)), (by nofun), .inl ⟨rfl, rfl⟩⟩
  | classify =>
    exact ⟨s.regs, _, s.tone, s.dpeEvdReq, s.hist, by simp only [sensorStep, h]; rfl, (.inl (by rfl)), (by nofun), .inl ⟨rfl, rfl⟩⟩
  | score => exact ⟨_, _, s.tone, s.dpeEvdReq, s.hist, by simp only [sensorStep, h]; rfl, (.inl (by rfl)), (by nofun), .inl ⟨rfl, rfl⟩⟩
  | tone =>
    exact ⟨s.regs, _, .waiting, s.dpeEvdReq, _, by simp only [sensorStep, h]; rfl, (.inl (by rfl)), (by nofun),
      .inr (.inl ⟨rfl, rfl⟩)⟩
  | render =>
    exact ⟨s.regs, _, s.tone, _, s.hist, by simp only [sensorStep, h]; rfl, (.inl (by rfl)), (by nofun), .inr (.inr ⟨rfl, rfl⟩)⟩
  | finish =>
    exact ⟨s.regs, .idle, s.tone, s.dpeEvdReq, s.hist, by simp only [sensorStep, h]; rfl, .inr rfl,
      fun _ => ⟨rfl, rfl, rfl⟩, .inl ⟨rfl, rfl⟩⟩

/-- A timer handler's step makes at most one request, and goes on or ends. -/
theorem timerStep_eq (r : TimerRun) (s : State) : ∃ g e a q,
    timerStep r s = { s with regs := g, evd := e, lfsEvdReq := a, dpeEvdReq := q } ∧
      (evdSource e = some .timer ∨ e = .idle) ∧ (e = .idle → a = s.lfsEvdReq ∧ q = s.dpeEvdReq ∧ r.pos = .finish) ∧
      ((a = s.lfsEvdReq ∧ q = s.dpeEvdReq) ∨ (a.isSome = true ∧ q = s.dpeEvdReq) ∨
        (a = s.lfsEvdReq ∧ q.isSome = true)) := by
  cases h : r.pos with
  | clear => exact ⟨_, _, s.lfsEvdReq, s.dpeEvdReq, by simp only [timerStep, h]; rfl, (.inl (by rfl)), (by nofun), .inl ⟨rfl, rfl⟩⟩
  | flip => exact ⟨_, _, s.lfsEvdReq, s.dpeEvdReq, by simp only [timerStep, h]; rfl, (.inl (by rfl)), (by nofun), .inl ⟨rfl, rfl⟩⟩
  | strip1 =>
    exact ⟨s.regs, _, _, s.dpeEvdReq, by simp only [timerStep, h]; rfl, (.inl (by rfl)), (by nofun), .inr (.inl ⟨rfl, rfl⟩)⟩
  | strip2 =>
    exact ⟨s.regs, _, _, s.dpeEvdReq, by simp only [timerStep, h]; rfl, (.inl (by rfl)), (by nofun), .inr (.inl ⟨rfl, rfl⟩)⟩
  | render0 =>
    exact ⟨s.regs, _, s.lfsEvdReq, _, by simp only [timerStep, h]; rfl, (.inl (by rfl)), (by nofun), .inr (.inr ⟨rfl, rfl⟩)⟩
  | render1 =>
    exact ⟨s.regs, _, s.lfsEvdReq, _, by simp only [timerStep, h]; rfl, (.inl (by rfl)), (by nofun), .inr (.inr ⟨rfl, rfl⟩)⟩
  | finish =>
    exact ⟨s.regs, .idle, s.lfsEvdReq, s.dpeEvdReq, by simp only [timerStep, h]; rfl, .inr rfl, fun _ => ⟨rfl, rfl, rfl⟩,
      .inl ⟨rfl, rfl⟩⟩

/-- One turn of the EVD changes registers, its own position and its requests only. -/
theorem evdStep_eq (p : Source) (s : State) : ∃ g e t a q es,
    evdStep p s = { s with regs := g, evd := e, tone := t, lfsEvdReq := a, dpeEvdReq := q, hist := es } := by
  rcases evdStep_cases p s with h | ⟨x, -, -, h⟩ | ⟨r, hr, -, h⟩ | ⟨r, hr, -, h⟩
  · exact ⟨s.regs, s.evd, s.tone, s.lfsEvdReq, s.dpeEvdReq, s.hist, h⟩
  · exact ⟨s.regs, _, s.tone, s.lfsEvdReq, s.dpeEvdReq, s.hist, h⟩
  · obtain ⟨g, e, t, q, es, h2, -⟩ := sensorStep_eq hr
    exact ⟨g, e, t, s.lfsEvdReq, q, es, h.trans h2⟩
  · obtain ⟨g, e, a, q, h2, -⟩ := timerStep_eq r s
    exact ⟨g, e, s.tone, a, q, s.hist, h.trans h2⟩

/-! ### Handler steps with no request outstanding -/

theorem evdBlocked_false_iff (s : State) : evdBlocked s = false ↔
    s.lfsEvdReq = none ∧ s.dpeEvdReq = none ∧ lfsRunsFor s .evd = false ∧ dpeRunsFor s .evd = false ∧
      s.tone = .idle := by
  unfold evdBlocked evdInFlight
  cases h1 : s.lfsEvdReq <;> cases h2 : s.dpeEvdReq <;> cases h3 : lfsRunsFor s .evd <;>
    cases h4 : dpeRunsFor s .evd <;> cases h5 : s.tone <;> simp

/-- Whether the EVD waits for a request rests on the slots, the engines and the tone handshake only. -/
theorem evdBlocked_congr {s u : State} (h1 : s.lfsEvdReq = u.lfsEvdReq) (h2 : s.dpeEvdReq = u.dpeEvdReq)
    (h3 : s.lfs = u.lfs) (h4 : s.dpe = u.dpe) (h5 : s.tone = u.tone) : evdBlocked s = evdBlocked u := by
  unfold evdBlocked evdInFlight lfsRunsFor dpeRunsFor
  rw [h1, h2, h3, h4, h5]

theorem evdStep_sensor {p : Source} {s : State} {r : SensorRun} (h : s.evd = .sensor r) (hb : evdBlocked s = false) :
    evdStep p s = sensorStep r s := by simp [evdStep, h, hb]

theorem evdStep_timer {p : Source} {s : State} {r : TimerRun} (h : s.evd = .timer r) (hb : evdBlocked s = false) :
    evdStep p s = timerStep r s := by simp [evdStep, h, hb]

/-- A handler with a request outstanding has no step (10_state.md R72). -/
theorem evdStep_blocked {p : Source} {s : State} (h : s.evd ≠ .idle) (hb : evdBlocked s = true) : evdStep p s = s := by
  cases he : s.evd with
  | idle => exact absurd he h
  | sensor r => simp [evdStep, he, hb]
  | timer r => simp [evdStep, he, hb]

theorem evdBlocked_of_lfsEvdReq {s : State} {op : LfsOp} (h : s.lfsEvdReq = some op) : evdBlocked s = true := by
  simp [evdBlocked, evdInFlight, h]

theorem evdBlocked_of_dpeEvdReq {s : State} {op : DpeOp} (h : s.dpeEvdReq = some op) : evdBlocked s = true := by
  simp [evdBlocked, evdInFlight, h]

/-- A request of the EVD is outstanding while an engine runs it, too (10_state.md R72). -/
theorem evdBlocked_of_lfsRun {s : State} {r : LfsRun} (h : s.lfs = some r) (ho : r.owner = .evd) :
    evdBlocked s = true := by
  simp [evdBlocked, evdInFlight, lfsRunsFor, h, ho]

theorem evdBlocked_of_dpeRun {s : State} {r : DpeRun} (h : s.dpe = some r) (ho : r.owner = .evd) :
    evdBlocked s = true := by
  simp [evdBlocked, evdInFlight, dpeRunsFor, h, ho]

/-- With both slots of the EVD empty, no tone waiting and no engine running for it, nothing of it is outstanding. -/
theorem evdBlocked_of_none {s : State} (h1 : s.lfsEvdReq = none) (h2 : s.dpeEvdReq = none)
    (h3 : ∀ r, s.lfs = some r → r.owner = .host) (h4 : ∀ r, s.dpe = some r → r.owner = .host) (h5 : s.tone = .idle) :
    evdBlocked s = false := by
  refine (evdBlocked_false_iff s).mpr ⟨h1, h2, ?_, ?_, h5⟩
  · unfold lfsRunsFor
    split
    · rename_i r h
      simp [h3 r h]
    · rfl
  · unfold dpeRunsFor
    split
    · rename_i r h
      simp [h4 r h]
    · rfl

theorem evdBlocked_of_tone {s : State} (h : s.tone = .waiting) : evdBlocked s = true := by
  simp [evdBlocked, evdInFlight, h]

end Sys2Proof.Machine
end

