-- ==== Sys2Proof/Laws/Lfs.lean ====
section
/-! SUPPORT. What runs of the LFS do: one lemma per micro-step, then per bit, byte, pixel and frame. A busy LFS whose
micro-steps left to do are `todo` is written `lfsAdvance r todo s`: whatever `s.lfs` is, `todo` replaces it. -/

namespace Sys2Proof.Machine

open Sys2Proof

theorem lfsSteps_add (a b : Nat) (s : State) : lfsSteps (a + b) s = lfsSteps b (lfsSteps a s) := by
  induction a generalizing s with
  | zero => simp [lfsSteps]
  | succ n ih => rw [Nat.succ_add]; exact ih _

theorem lfsSteps_succ (k : Nat) (s : State) : lfsSteps (k + 1) s = lfsSteps k (lfsStep s) := rfl

@[simp] theorem lfsSteps_zero (s : State) : lfsSteps 0 s = s := rfl

@[simp] theorem lfsStep_drive (r : LfsRun) (l : LedPin) (v : Bool) (rest : List LfsAct) (s : State) :
    lfsStep (lfsAdvance r (.drive l v :: rest) s) = lfsAdvance r rest (driveLed l v s) := by cases rest <;> rfl

@[simp] theorem lfsStep_enable (r : LfsRun) (l : LedPin) (rest : List LfsAct) (s : State) :
    lfsStep (lfsAdvance r (.enable l :: rest) s) = lfsAdvance r rest (enableLed l s) := by cases rest <;> rfl

@[simp] theorem lfsStep_hold (r : LfsRun) (rest : List LfsAct) (s : State) :
    lfsStep (lfsAdvance r (.hold :: rest) s) = lfsAdvance r rest (holdFor .lfs Config.ledHoldUs s) := by
  cases rest <;> rfl

/-- The state after `PixRead`s, whose only effect is on the count of free values. -/
theorem afterSrcRead_eq (src : PixSrc) (i : Nat) (s : State) :
    afterSrcRead src i s = { s with draws := (afterSrcRead src i s).draws } := by
  cases src with
  | ram => simp only [afterSrcRead, afterPixRead]; split <;> rfl
  | fill w => rfl

@[simp] theorem srcWord_ram (i : Nat) (s : State) : srcWord .ram i s = pixWord s i := rfl

@[simp] theorem srcWord_fill (w : Word) (i : Nat) (s : State) : srcWord (.fill w) i s = w := rfl

@[simp] theorem afterSrcRead_ram (i : Nat) (s : State) : afterSrcRead .ram i s = afterPixRead s i := rfl

@[simp] theorem afterSrcRead_fill (w : Word) (i : Nat) (s : State) : afterSrcRead (.fill w) i s = s := rfl

/-- A busy LFS takes its next micro-step (10_state.md R72). -/
theorem lfsStep_busy {s : State} {r : LfsRun} (h : s.lfs = some r) : lfsStep s = lfsMicro r s := by simp [lfsStep, h]

theorem lfsStep_sendPixel (r : LfsRun) (i : Nat) (rest : List LfsAct) (s : State) :
    lfsStep (lfsAdvance r (.sendPixel i :: rest) s) =
      lfsAdvance r ((wordBytes (srcWord r.src i s)).flatMap ledByteActs ++ rest) (afterSrcRead r.src i s) := by
  simp only [lfsAdvance, lfsStep, lfsMicro]
  cases hs : r.src with
  | ram =>
    simp only [afterSrcRead, afterPixRead, srcWord]
    cases h : pixWritten s.ram i <;> simp <;> rfl
  | fill w => rfl

theorem lfsStep_packPixel (r : LfsRun) (i : Nat) (a : LfsAct) (rest : List LfsAct) (s : State) :
    lfsStep (lfsAdvance r (.packPixel i :: a :: rest) s) =
      lfsAdvance { r with frame := r.frame ++ wordBytes (srcWord r.src i s) } (a :: rest) (afterSrcRead r.src i s) := by
  simp only [lfsAdvance, lfsStep, lfsMicro]
  cases hs : r.src with
  | ram =>
    simp only [afterSrcRead, afterPixRead, srcWord]
    cases h : pixWritten s.ram i <;> simp <;> rfl
  | fill w => rfl

theorem lfsStep_handOver (r : LfsRun) (n : Nat) (a : LfsAct) (rest : List LfsAct) (s : State) :
    lfsStep (lfsAdvance r (.handOver n :: a :: rest) s) =
      lfsAdvance { r with frame := r.frame ++ endFrame n } (a :: rest)
        (({ s with hwx := .waiting }).emit (.hwXfer (r.frame ++ endFrame n))) := rfl

theorem lfsStep_awaitDone_waiting (r : LfsRun) (rest : List LfsAct) (s : State) (h : s.hwx = .waiting) :
    lfsStep (lfsAdvance r (.awaitDone :: rest) s) = lfsAdvance r (.awaitDone :: rest) s := by
  simp only [lfsAdvance, lfsStep, lfsMicro, h]; rfl

theorem lfsStep_awaitDone_idle (r : LfsRun) (rest : List LfsAct) (s : State) (h : s.hwx = .idle) :
    lfsStep (lfsAdvance r (.awaitDone :: rest) s) = lfsAdvance r rest s := by
  simp only [lfsAdvance, lfsStep, lfsMicro, h]; cases rest <;> rfl

/-- The state after some bytes went out on the software port: LED_DAT at their last bit, LED_CLK low
(40_led_serializer.md R142). -/
def ledSent (dat : Bool) (es : List Event) (s : State) : State :=
  { s with
    lines := { s.lines with ledDat := { s.lines.ledDat with lvl := dat }, ledClk := { s.lines.ledClk with lvl := false } }
    hist := s.hist ++ es }

@[simp] theorem ledSent_ledSent (d d' : Bool) (es es' : List Event) (s : State) :
    ledSent d' es' (ledSent d es s) = ledSent d' (es ++ es') s := by simp [ledSent]

/-- One bit: five turns. -/
theorem lfs_bit (r : LfsRun) (b : Bool) (rest : List LfsAct) (s : State) :
    lfsSteps 5 (lfsAdvance r (ledBitActs b ++ rest) s) = lfsAdvance r rest (ledSent b (ledBitEvents b) s) := by
  simp only [ledBitActs, List.cons_append, List.nil_append, lfsSteps, lfsStep_drive, lfsStep_hold]
  congr 1
  simp [driveLed, holdFor, ledSent, ledBitEvents, State.emit, Lines.setLed, Lines.led, Config.ledHoldUs]

theorem ledEvents_append (a b : List Byte) : ledEvents (a ++ b) = ledEvents a ++ ledEvents b := by simp [ledEvents]

/-- One byte: forty turns; LED_DAT ends at bit 0. -/
theorem lfs_byte (r : LfsRun) (b : Byte) (rest : List LfsAct) (s : State) :
    lfsSteps 40 (lfsAdvance r (ledByteActs b ++ rest) s) =
      lfsAdvance r rest (ledSent (b.getLsbD 0) (ledEvents [b]) s) := by
  simp only [ledByteActs, List.append_assoc]
  rw [show 40 = 5 + (5 + (5 + (5 + (5 + (5 + (5 + 5)))))) from rfl]
  simp only [lfsSteps_add, lfs_bit, ledSent_ledSent]
  simp [ledEvents, bitsMsb]

/-- Some bytes: forty turns each. -/
theorem lfs_bytes (r : LfsRun) (bs : List Byte) (hne : bs ≠ []) (rest : List LfsAct) (s : State) :
    lfsSteps (40 * bs.length) (lfsAdvance r (bs.flatMap ledByteActs ++ rest) s) =
      lfsAdvance r rest (ledSent ((bs.getLast hne).getLsbD 0) (ledEvents bs) s) := by
  induction bs generalizing s with
  | nil => contradiction
  | cons b bs ih =>
    rw [show 40 * (b :: bs).length = 40 + 40 * bs.length by simp; omega, lfsSteps_add, List.flatMap_cons,
      List.append_assoc, lfs_byte]
    by_cases h : bs = []
    · subst h; rfl
    · rw [ih h, ledSent_ledSent, List.getLast_cons h, ← ledEvents_append]; rfl

/-- The word a pixel read gives and the state after it do not look at what the LFS has sent or holds. -/
theorem srcWord_ledSent (src : PixSrc) (i : Nat) (d : Bool) (es : List Event) (s : State) :
    srcWord src i (ledSent d es s) = srcWord src i s := by cases src <;> rfl

theorem afterSrcRead_ledSent (src : PixSrc) (i : Nat) (d : Bool) (es : List Event) (s : State) :
    afterSrcRead src i (ledSent d es s) = ledSent d es (afterSrcRead src i s) := by
  cases src with
  | ram => simp only [afterSrcRead, afterPixRead]; unfold ledSent; dsimp only; split <;> rfl
  | fill w => rfl

/-- The words of `k` pixels from pixel `i` on, one after the other, and the state after. -/
def srcRead (src : PixSrc) : Nat → Nat → State → List Word × State
  | _, 0, s => ([], s)
  | i, k + 1, s =>
    let rest := srcRead src (i + 1) k (afterSrcRead src i s)
    (srcWord src i s :: rest.1, rest.2)

theorem srcRead_ram (i k : Nat) (s : State) : srcRead .ram i k s = readPixels i k s := by
  induction k generalizing i s with
  | zero => rfl
  | succ k ih => simp only [srcRead, readPixels, ih]; rfl

theorem srcRead_fill (w : Word) (i k : Nat) (s : State) : srcRead (.fill w) i k s = (List.replicate k w, s) := by
  induction k generalizing i with
  | zero => rfl
  | succ k ih => simp only [srcRead, afterSrcRead, srcWord, ih]; rfl

theorem srcRead_ledSent (src : PixSrc) (i k : Nat) (d : Bool) (es : List Event) (s : State) :
    srcRead src i k (ledSent d es s) = ((srcRead src i k s).1, ledSent d es (srcRead src i k s).2) := by
  induction k generalizing i s with
  | zero => rfl
  | succ k ih => simp only [srcRead, afterSrcRead_ledSent, ih, srcWord_ledSent]

/-- A pixel read changes the count of free values and nothing else. -/
theorem srcRead_draws (src : PixSrc) (i k : Nat) (s : State) :
    (srcRead src i k s).2 = { s with draws := (srcRead src i k s).2.draws } := by
  induction k generalizing i s with
  | zero => rfl
  | succ k ih =>
    simp only [srcRead]
    rw [ih, afterSrcRead_eq]

theorem srcRead_length (src : PixSrc) (i k : Nat) (s : State) : (srcRead src i k s).1.length = k := by
  induction k generalizing i s with
  | zero => rfl
  | succ k ih => simp [srcRead, ih]

/-- What a pixel read gives rests on the pixel RAM, the parameters and the count of free values only. -/
theorem srcRead_congr (src : PixSrc) (i k : Nat) {s u : State} (h1 : s.ram = u.ram) (h2 : s.par = u.par)
    (h3 : s.draws = u.draws) :
    (srcRead src i k s).1 = (srcRead src i k u).1 ∧ (srcRead src i k s).2.draws = (srcRead src i k u).2.draws := by
  induction k generalizing i s u with
  | zero => simp [srcRead, h3]
  | succ k ih =>
    have hw : srcWord src i s = srcWord src i u := by cases src <;> simp [srcWord, pixWord, h1, h2, h3]
    have hd : (afterSrcRead src i s).draws = (afterSrcRead src i u).draws := by
      cases src with
      | ram => simp only [afterSrcRead, afterPixRead, h1, h3]; split <;> simp [h3]
      | fill w => exact h3
    have := ih (i + 1) (s := afterSrcRead src i s) (u := afterSrcRead src i u)
      (by rw [afterSrcRead_eq, afterSrcRead_eq src i u]; exact h1)
      (by rw [afterSrcRead_eq, afterSrcRead_eq src i u]; exact h2) hd
    simp [srcRead, hw, this]

theorem wordBytes_ne_nil (w : Word) : wordBytes w ≠ [] := by simp [wordBytes]

/-- Pixels on the software port: a turn for the read and 160 for the bytes, each. -/
theorem lfs_pixels (r : LfsRun) (k i : Nat) (rest : List LfsAct) (d : Bool) (es : List Event) (s : State) :
    ∃ d', lfsSteps (161 * k) (lfsAdvance r ((List.range' i k).map .sendPixel ++ rest) (ledSent d es s)) =
      lfsAdvance r rest
        (ledSent d' (es ++ ledEvents ((srcRead r.src i k s).1.flatMap wordBytes)) (srcRead r.src i k s).2) := by
  induction k generalizing i s d es with
  | zero => exact ⟨d, by simp [srcRead, ledEvents]⟩
  | succ k ih =>
    obtain ⟨d', h⟩ := ih (i + 1) ((wordBytes (srcWord r.src i s)).getLast (wordBytes_ne_nil _) |>.getLsbD 0)
      (es ++ ledEvents (wordBytes (srcWord r.src i s))) (afterSrcRead r.src i s)
    refine ⟨d', ?_⟩
    rw [show 161 * (k + 1) = 1 + (40 * (wordBytes (srcWord r.src i s)).length + 161 * k) by simp [wordBytes]; omega,
      lfsSteps_add, lfsSteps_add]
    simp only [List.range'_succ, List.map_cons, List.cons_append, lfsSteps, lfsStep_sendPixel, srcWord_ledSent,
      afterSrcRead_ledSent]
    rw [lfs_bytes r _ (wordBytes_ne_nil _), ledSent_ledSent, h]
    simp only [srcRead, List.flatMap_cons, ledEvents_append, List.append_assoc]

theorem endFrame_ne_nil (n : Nat) : endFrame n ≠ [] := by simp [endFrame, endLen]

theorem endFrame_getLast (n : Nat) : ((endFrame n).getLast (endFrame_ne_nil n)).getLsbD 0 = true := by
  simp [endFrame]

/-- A frame on the software port, started: LED_DAT ends at 1, LED_CLK at 0 (40_led_serializer.md R143, R146). -/
theorem lfs_frameSw (r : LfsRun) (n : Nat) (s : State) :
    lfsSteps (frameTurns n) (lfsAdvance r (frameActsSw n) s) =
      lfsAdvance r [] (ledSent true (ledEvents (ledFrame (srcRead r.src 0 n s).1)) (srcRead r.src 0 n s).2) := by
  have h1 : frameTurns n = 40 * startFrame.length + (161 * n + 40 * (endFrame n).length) := by
    simp [frameTurns, startFrame, endFrame]; omega
  rw [h1, lfsSteps_add, lfsSteps_add, frameActsSw, List.append_assoc, lfs_bytes r _ (by simp [startFrame]),
    List.range_eq_range']
  obtain ⟨d, h⟩ := lfs_pixels r n 0 ((endFrame n).flatMap ledByteActs) _ (ledEvents startFrame) s
  rw [h, ← List.append_nil ((endFrame n).flatMap ledByteActs), lfs_bytes r _ (endFrame_ne_nil n), ledSent_ledSent,
    endFrame_getLast]
  simp only [ledFrame, srcRead_length, ledEvents_append, List.append_assoc]

/-- The pixels of a hardware-port frame: one turn each (40_led_serializer.md R144). -/
theorem lfs_pack (r : LfsRun) (k i : Nat) (a : LfsAct) (rest : List LfsAct) (s : State) :
    lfsSteps k (lfsAdvance r ((List.range' i k).map .packPixel ++ a :: rest) s) =
      lfsAdvance { r with frame := r.frame ++ (srcRead r.src i k s).1.flatMap wordBytes } (a :: rest)
        (srcRead r.src i k s).2 := by
  induction k generalizing i s r with
  | zero => simp [srcRead]
  | succ k ih =>
    rw [lfsSteps_succ, List.range'_succ, List.map_cons, List.cons_append]
    have : ∃ b l, (List.range' (i + 1) k).map LfsAct.packPixel ++ a :: rest = b :: l := by
      cases (List.range' (i + 1) k).map LfsAct.packPixel <;> simp
    obtain ⟨b, l, hl⟩ := this
    rw [hl, lfsStep_packPixel, ← hl, ih]
    simp [srcRead]

/-- A frame on the hardware port, started: after the pixels and the hand-off it waits (40_led_serializer.md R144). -/
theorem lfs_frameHw (r : LfsRun) (n : Nat) (s : State) (h : r.frame = startFrame) :
    ∃ r', r'.owner = r.owner ∧ lfsSteps (n + 1) (lfsAdvance r (frameActsHw n) s) =
      lfsAdvance r' [.awaitDone] (({ (srcRead r.src 0 n s).2 with hwx := .waiting }).emit
        (.hwXfer (ledFrame (srcRead r.src 0 n s).1))) := by
  refine ⟨{ r with frame := ledFrame (srcRead r.src 0 n s).1 }, rfl, ?_⟩
  rw [lfsSteps_add, frameActsHw, List.range_eq_range', lfs_pack]
  simp only [lfsSteps, lfsStep_handOver, h, ledFrame, srcRead_length, List.append_assoc]

theorem frameActsSw_ne_nil (n : Nat) : frameActsSw n ≠ [] := by simp [frameActsSw, startFrame, ledByteActs, ledBitActs]

theorem lfsActs_ne_nil (op : LfsOp) : lfsActs op ≠ [] := by
  cases op with
  | init => simp [lfsActs, ledInitActs]
  | tx p n => cases p <;> simp [lfsActs, frameActs, frameActsHw, frameActsSw_ne_nil]
  | fill p n c => cases p <;> simp [lfsActs, frameActs, frameActsHw, frameActsSw_ne_nil]

/-- The run an operation starts with. -/
def lfsRunOf (op : LfsOp) (o : Requester) (s : State) : LfsRun :=
  { op := op, owner := o, src := lfsSrc s op, todo := [], frame := startFrame }

theorem lfsStart_eq (op : LfsOp) (o : Requester) (s : State) :
    lfsStart op o s = lfsAdvance (lfsRunOf op o s) (lfsActs op) s := by
  obtain ⟨a, l, h⟩ := List.exists_cons_of_ne_nil (lfsActs_ne_nil op)
  simp only [lfsStart, lfsAdvance, lfsRunOf, h]

/-- An idle LFS starts the host's operation when the EVD has none. -/
theorem lfsStep_start_host {s : State} {op : LfsOp} (h1 : s.lfs = none) (h2 : s.lfsEvdReq = none)
    (h3 : s.lfsHostReq = some op) :
    lfsStep s = lfsAdvance (lfsRunOf op .host s) (lfsActs op) { s with lfsHostReq := none } := by
  simp only [lfsStep, h1, h2, h3, lfsStart_eq]
  cases op <;> rfl

/-- An idle LFS starts the EVD's operation first. -/
theorem lfsStep_start_evd {s : State} {op : LfsOp} (h1 : s.lfs = none) (h2 : s.lfsEvdReq = some op) :
    lfsStep s = lfsAdvance (lfsRunOf op .evd s) (lfsActs op) { s with lfsEvdReq := none } := by
  simp only [lfsStep, h1, h2, lfsStart_eq]
  cases op <;> rfl

/-! ### What one turn can do -/

theorem lfsAdvance_cases (r : LfsRun) (rest : List LfsAct) (s : State) :
    (rest = [] ∧ lfsAdvance r rest s = complete r.owner { s with lfs := none }) ∨
      (rest ≠ [] ∧ lfsAdvance r rest s = { s with lfs := some { r with todo := rest } }) := by
  cases rest
  · exact .inl ⟨rfl, rfl⟩
  · exact .inr ⟨by simp, rfl⟩

/-- A micro-step of the LFS completes the operation, goes on with it, or waits; besides that it changes the LED lines,
the hand-off, the history and the count of free values only. -/
theorem lfsMicro_cases (r : LfsRun) (s : State) : lfsMicro r s = s ∨ ∃ l x n e,
    l.dclk = s.lines.dclk ∧ l.ddio = s.lines.ddio ∧
      (lfsMicro r s = complete r.owner { s with lfs := none, lines := l, hwx := x, draws := n, hist := e } ∨
        ∃ r', r'.op = r.op ∧ r'.owner = r.owner ∧
          lfsMicro r s = { s with lfs := some r', lines := l, hwx := x, draws := n, hist := e }) := by
  have adv : ∀ (r' : LfsRun) (rest : List LfsAct) (l : Lines) (x : Handshake) (n : Nat) (e : List Event),
      r'.op = r.op → r'.owner = r.owner → l.dclk = s.lines.dclk → l.ddio = s.lines.ddio →
      lfsMicro r s = lfsAdvance r' rest { s with lines := l, hwx := x, draws := n, hist := e } →
      lfsMicro r s = s ∨ ∃ l x n e, l.dclk = s.lines.dclk ∧ l.ddio = s.lines.ddio ∧
        (lfsMicro r s = complete r.owner { s with lfs := none, lines := l, hwx := x, draws := n, hist := e } ∨
          ∃ r', r'.op = r.op ∧ r'.owner = r.owner ∧
            lfsMicro r s = { s with lfs := some r', lines := l, hwx := x, draws := n, hist := e }) := by
    intro r' rest l x n e ho hw hc hd h
    refine .inr ⟨l, x, n, e, hc, hd, ?_⟩
    rcases lfsAdvance_cases r' rest { s with lines := l, hwx := x, draws := n, hist := e } with ⟨-, h2⟩ | ⟨-, h2⟩
    · left; rw [h, h2, hw]
    · right; exact ⟨{ r' with todo := rest }, ho, hw, h.trans h2⟩
  match ht : r.todo with
  | [] => exact .inr ⟨s.lines, s.hwx, s.draws, s.hist, rfl, rfl, .inl (by simp only [lfsMicro, ht])⟩
  | .drive l v :: rest =>
    exact adv r rest _ s.hwx s.draws _ rfl rfl (Lines.setLed_dclk _ _ _) (Lines.setLed_ddio _ _ _)
      (by simp only [lfsMicro, ht]; rfl)
  | .enable l :: rest =>
    exact adv r rest _ s.hwx s.draws _ rfl rfl (Lines.setLed_dclk _ _ _) (Lines.setLed_ddio _ _ _)
      (by simp only [lfsMicro, ht]; rfl)
  | .hold :: rest => exact adv r rest s.lines s.hwx s.draws _ rfl rfl rfl rfl (by simp only [lfsMicro, ht]; rfl)
  | .sendPixel i :: rest =>
    exact adv r _ s.lines s.hwx _ s.hist rfl rfl rfl rfl (by simp only [lfsMicro, ht]; rw [afterSrcRead_eq])
  | .packPixel i :: rest =>
    exact adv { r with frame := r.frame ++ wordBytes (srcWord r.src i s) } rest s.lines s.hwx _ s.hist rfl rfl rfl rfl
      (by simp only [lfsMicro, ht]; rw [afterSrcRead_eq])
  | .handOver n :: rest =>
    exact adv { r with frame := r.frame ++ endFrame n } rest s.lines .waiting s.draws _ rfl rfl rfl rfl (by simp only [lfsMicro, ht]; rfl)
  | .awaitDone :: rest =>
    by_cases hx : s.hwx = .idle
    · exact adv r rest s.lines s.hwx s.draws s.hist rfl rfl rfl rfl (by simp only [lfsMicro, ht]; rw [if_pos hx])
    · left; simp only [lfsMicro, ht]; rw [if_neg hx]

/-- One turn of the LFS: nothing, a start, or a micro-step. -/
theorem lfsStep_cases (s : State) :
    (s.lfs = none ∧ s.lfsEvdReq = none ∧ s.lfsHostReq = none ∧ lfsStep s = s) ∨
      (∃ op, s.lfs = none ∧ s.lfsEvdReq = some op ∧ lfsStep s = lfsStart op .evd { s with lfsEvdReq := none }) ∨
      (∃ op, s.lfs = none ∧ s.lfsEvdReq = none ∧ s.lfsHostReq = some op ∧
        lfsStep s = lfsStart op .host { s with lfsHostReq := none }) ∨
      ∃ r, s.lfs = some r ∧ lfsStep s = lfsMicro r s := by
  cases h : s.lfs with
  | some r => exact .inr (.inr (.inr ⟨r, rfl, by simp [lfsStep, h]⟩))
  | none =>
    cases h2 : s.lfsEvdReq with
    | some op => exact .inr (.inl ⟨op, rfl, rfl, by simp [lfsStep, h, h2]⟩)
    | none =>
      cases h3 : s.lfsHostReq with
      | some op => exact .inr (.inr (.inl ⟨op, rfl, rfl, rfl, by simp [lfsStep, h, h2, h3]⟩))
      | none => exact .inl ⟨rfl, rfl, rfl, by simp [lfsStep, h, h2, h3]⟩

/-- An LFS turn leaves the registers, the pixel RAM, the DPE, the EVD and the display lines alone. -/
theorem lfsStep_frame (s : State) :
    ∃ l x n es h a b r,
      lfsStep s = { s with
        lines := l, hwx := x, draws := n, hist := es, hostSlot := h, lfsEvdReq := a, lfsHostReq := b, lfs := r } ∧
      l.dclk = s.lines.dclk ∧ l.ddio = s.lines.ddio := by
  rcases lfsStep_cases s with ⟨-, -, -, e⟩ | ⟨op, -, -, e⟩ | ⟨op, -, -, -, e⟩ | ⟨r, -, e⟩
  · exact ⟨_, _, _, _, _, _, _, _, e, rfl, rfl⟩
  · exact ⟨_, _, _, _, _, _, _, _, e, rfl, rfl⟩
  · exact ⟨_, _, _, _, _, _, _, _, e, rfl, rfl⟩
  · rcases lfsMicro_cases r s with e2 | ⟨l, x, n, es, hl, hl2, e2 | ⟨r', -, -, e2⟩⟩
    · exact ⟨_, _, _, _, _, _, _, _, e.trans e2, rfl, rfl⟩
    · obtain ⟨hh, e3⟩ := complete_eq r.owner { s with lfs := none, lines := l, hwx := x, draws := n, hist := es }
      exact ⟨_, _, _, _, _, _, _, _, e.trans (e2.trans e3), hl, hl2⟩
    · exact ⟨_, _, _, _, _, _, _, _, e.trans e2, hl, hl2⟩

end Sys2Proof.Machine
end

