-- ==== Sys2Proof/Laws/PerInstr.lean ====
section
/-! SUPPORT. A statement about every command as syntax, one lemma per constructor. -/

namespace Sys2Proof.Laws.EncodingFields

open Sys2Proof

/-- The format of a command (30_encoding.md R111). -/
def format : Instr → Format
  | .nop => .z
  | .ledInit => .z
  | .ledTx _ _ => .l
  | .ledFill _ _ => .l
  | .dspSegs _ _ _ _ => .s
  | .dspNum _ => .d
  | .dspClock _ _ => .k

/-- The word of a command has the opcode of its format, keeps the format's reserved bits at 0, and its fields are the
operands of the command, in range or not (30_encoding.md R111 to R113). -/
def Statement (i : Instr) : Prop :=
  formatOf (opField (encode i)) = some (format i) ∧ encode i &&& rsvdMask (format i) = 0#32 ∧
    assembleFields (encode i) = some i

theorem nop : Statement .nop := by
  unfold Statement
  decide

theorem ledInit : Statement .ledInit := by
  unfold Statement
  decide

set_option maxRecDepth 4000 in
theorem ledTx (p : Port) (n : BitVec 10) : Statement (.ledTx p n) := by
  unfold Statement
  cases p <;> revert n <;> decide

set_option maxRecDepth 4000 in
theorem ledFill (p : Port) (n : BitVec 10) : Statement (.ledFill p n) := by
  unfold Statement
  cases p <;> revert n <;> decide

set_option maxRecDepth 4000 in
theorem dspSegs (ch addr : BitVec 2) (len : BitVec 3) (colon : Bool) : Statement (.dspSegs ch addr len colon) := by
  unfold Statement
  revert ch addr len colon
  decide

theorem dspNum (ch : BitVec 2) : Statement (.dspNum ch) := by
  unfold Statement
  revert ch
  decide

theorem dspClock (ch : BitVec 2) (colon : Bool) : Statement (.dspClock ch colon) := by
  unfold Statement
  revert ch colon
  decide

end Sys2Proof.Laws.EncodingFields
end

