-- ==== Sys2Proof/Laws/Registers.lean ====
section
/-! SUPPORT. The register invariants under the operations that write registers. -/

namespace Sys2Proof.Machine

open Sys2Proof

theorem reservedZero_irqPend (r : Regs) (p : Word) (h : reservedZero r) (hp : p &&& ~~~0x00000007#32 = 0#32) :
    reservedZero { r with irqPend := p } :=
  ⟨h.1, hp, h.2.2⟩

theorem mask_and (a b m : Word) (h : a &&& m = 0#32) : (a &&& b) &&& m = 0#32 := by
  rw [BitVec.and_comm a b, BitVec.and_assoc, h]; simp

theorem mask_self (v m : Word) : v &&& m &&& ~~~m = 0#32 := by
  rw [BitVec.and_assoc]; simp

theorem mask_or (a b m : Word) (h : a &&& m = 0#32) (h2 : b &&& m = 0#32) : (a ||| b) &&& m = 0#32 := by
  apply BitVec.eq_of_getLsbD_eq; intro i hi
  have h1 := congrArg (fun x => BitVec.getLsbD x i) h
  have h3 := congrArg (fun x => BitVec.getLsbD x i) h2
  simp at h1 h3 ⊢
  cases hm : m.getLsbD i <;> simp_all

theorem reservedZero_setPending (r : Regs) (x : Source) (h : reservedZero r) : reservedZero (setPending r x) := by
  refine reservedZero_irqPend r _ h (mask_or _ _ _ h.2.1 ?_)
  rcases x with ⟨_ | _⟩ | _ <;> decide

theorem reservedZero_clearPending (r : Regs) (x : Source) (h : reservedZero r) : reservedZero (clearPending r x) :=
  reservedZero_irqPend r _ h (mask_and _ _ _ h.2.1)

theorem dackWord_reserved (acks : List Bool) (k : Chan) :
    dackWord acks k &&& ~~~0x0000377F#32 = 0#32 := by
  unfold dackWord
  generalize BitVec.ofNat 3 acks.length = a
  generalize BitVec.ofNat 7 (bitsNat acks) = b
  have : ∀ (c : BitVec 2) (a : BitVec 3) (b : BitVec 7),
      (0#18 ++ c ++ 0#1 ++ a ++ 0#1 ++ b : Word) &&& ~~~0x0000377F#32 = 0#32 := by
    intro c a b
    apply BitVec.eq_of_getLsbD_eq; intro i hi
    simp only [BitVec.getLsbD_and, BitVec.getLsbD_append]
    interval_cases i <;> simp
  exact this _ _ _

theorem registersOk_writeReg (r : RegName) (v : Word) (s : State) (h : reservedZero s.regs ∧ errRecordOk s.regs) :
    reservedZero (writeReg r v s).regs ∧ errRecordOk (writeReg r v s).regs := by
  obtain ⟨⟨h1, h2, h3, h4, h5, h6, h7, h8⟩, he⟩ := h
  cases r <;> try exact ⟨⟨h1, h2, h3, h4, h5, h6, h7, h8⟩, he⟩
  · exact ⟨⟨mask_self _ _, h2, h3, h4, h5, h6, h7, h8⟩, he⟩
  · exact ⟨⟨h1, mask_and _ _ _ h2, h3, h4, h5, h6, h7, h8⟩, he⟩
  · refine ⟨⟨h1, h2, h3, h4, h5, h6, h7, h8⟩, ?_⟩
    simp only [errRecordOk, writeReg, writeStatus]
    cases v.getLsbD 8 <;> simp; exact he
  · exact ⟨⟨h1, h2, h3, mask_self _ _, h5, h6, h7, h8⟩, he⟩
  · exact ⟨⟨h1, h2, h3, h4, mask_self _ _, h6, h7, h8⟩, he⟩
  · exact ⟨⟨h1, h2, h3, h4, h5, mask_self _ _, h7, h8⟩, he⟩
  · exact ⟨⟨h1, h2, h3, h4, h5, h6, mask_self _ _, h8⟩, he⟩
  · rename_i k
    refine ⟨⟨h1, h2, h3, h4, h5, h6, h7, ?_⟩, he⟩
    intro j
    simp only [writeReg]
    by_cases hj : k = j
    · subst hj; rw [three_get_set_same]; exact mask_self _ _
    · rw [three_get_set_ne _ hj]; exact h8 j

theorem registersOk_reset (p : Params) (tick : Word) :
    reservedZero (Regs.reset p tick) ∧ errRecordOk (Regs.reset p tick) := by
  refine ⟨⟨by simp [Regs.reset], by simp [Regs.reset], by simp [Regs.reset], by simp [Regs.reset],
    by simp [Regs.reset], by simp [Regs.reset], ?_, ?_⟩, ?_⟩
  · simp only [Regs.reset]
    generalize p.defaultBrightness = b; revert b; decide
  · intro k; cases k <;> simp [Regs.reset, Three.get]
  · simp [errRecordOk, Regs.reset]

end Sys2Proof.Machine
end

