-- ==== Sys2Proof/Laws/Step.lean ====
section
/-! SUPPORT. What a step can do, said once: its turn, and the rule by which a property is kept by every step. -/

namespace Sys2Proof.Machine

open Sys2Proof

/-- Taking a turn off changes the agenda and the count of free turns only. -/
theorem popTurn_eq (s : State) : ∃ as n, popTurn s = { s with agenda := as, turns := n } := by
  unfold popTurn
  split
  · exact ⟨_, s.turns, rfl⟩
  · exact ⟨s.agenda, _, by rename_i h; rw [h]⟩

@[simp] theorem popTurn_env (s : State) : (popTurn s).env = s.env := by
  obtain ⟨as, n, h⟩ := popTurn_eq s
  rw [h]

/-- Outside reset a step is the agent's step and then the end of the turn. -/
theorem step_of_move {s t : State} {m : Move} {es : List EnvEvent} (hr : s.env.rst = false)
    (hn : nextTurn s = ⟨m, es⟩) (h : moveStep m (popTurn s) = .next t) : step s = .next (endTurn es t) := by
  unfold step runTurn
  rw [hn, popTurn_env, hr]
  simp only [h, andThen]
  rfl

/-- A step that answers: a turn in reset, or an agent's step and then ENV's part (70_reset_and_hazards.md R300). -/
theorem step_cases {s s' : State} (h : step s = .next s') :
    (s.env.rst = true ∧ isHostMove (nextTurn s).move = false ∧
        s' = endTurn (nextTurn s).events (resetBlock (popTurn s))) ∨
      (s.env.rst = false ∧ ∃ u, moveStep (nextTurn s).move (popTurn s) = .next u ∧
        s' = endTurn (nextTurn s).events u) := by
  obtain ⟨as, n, hp⟩ := popTurn_eq s
  unfold step runTurn at h
  have he : (popTurn s).env.rst = s.env.rst := by rw [hp]
  rw [he] at h
  split at h
  · rename_i hr
    split at h
    · cases h
    · rename_i hm; cases h; exact .inl ⟨hr, by simpa using hm, rfl⟩
  · rename_i hr
    refine .inr ⟨by simpa using hr, ?_⟩
    cases hu : moveStep (nextTurn s).move (popTurn s) with
    | next u => rw [hu] at h; cases h; exact ⟨u, rfl, rfl⟩
    | fault r => rw [hu] at h; cases h
    | refused r => rw [hu] at h; cases h

/-- An agent's step: a host read, a host write, or an engine's. -/
theorem moveStep_cases {m : Move} {s u : State} (h : moveStep m s = .next u) :
    (∃ a, m = .host (.read a) ∧ u = (afterMemRead a s).emit (.regRead a (memReadValue a s))) ∨
      (∃ a v, m = .host (.write a v) ∧ memWrite a v (s.emit (.regWrite a v)) = .next u) ∨
      (∃ p, m = .evd p ∧ u = evdStep p s) ∨ (m = .lfs ∧ u = lfsStep s) ∨ (m = .dpe ∧ u = dpeStep s) ∨
      (m = .env ∧ u = s) := by
  cases m with
  | host acc =>
    cases acc with
    | read a => cases h; exact .inl ⟨a, rfl, rfl⟩
    | write a v => exact .inr (.inl ⟨a, v, rfl, h⟩)
  | evd p => cases h; exact .inr (.inr (.inl ⟨p, rfl, rfl⟩))
  | lfs => cases h; exact .inr (.inr (.inr (.inl ⟨rfl, rfl⟩)))
  | dpe => cases h; exact .inr (.inr (.inr (.inr (.inl ⟨rfl, rfl⟩))))
  | env => cases h; exact .inr (.inr (.inr (.inr (.inr ⟨rfl, rfl⟩))))

/-- An observation of the lines keeps what each edge detector keeps. -/
theorem observeLines_keeps {P : State → Prop} (hobs : ∀ h s, P s → P (observeHoop h s)) {s : State} (h : P s) :
    P (observeLines s) := by
  unfold observeLines
  split
  · exact h
  · exact hobs _ _ (hobs _ _ h)

/-- ENV's part of a turn keeps what each of its events and each edge detector keeps. -/
theorem endTurn_keeps {P : State → Prop} (henv : ∀ e s, P s → P (envApply e s))
    (hobs : ∀ h s, P s → P (observeHoop h s)) (es : List EnvEvent) {s : State} (h : P s) : P (endTurn es s) := by
  have hall : ∀ (es : List EnvEvent) (s : State), P s → P (envApplyAll es s) := by
    intro es
    induction es with
    | nil => exact fun _ h => h
    | cons e es ih =>
      intro s h
      have ht : P (envApply e (observeLines s)) := henv e _ (observeLines_keeps hobs h)
      refine ih _ ?_
      unfold envStep
      cases isReset e
      · exact observeLines_keeps hobs ht
      · exact ht
  exact hall es _ (observeLines_keeps hobs h)

/-- A property kept by every operation a step is made of is kept by every step. -/
theorem step_keeps {P : State → Prop}
    (hown : ∀ s as n d es, P s → P { s with agenda := as, turns := n, draws := d, hist := es })
    (hreset : ∀ s, P s → P (resetBlock s))
    (herr : ∀ c w s, c ≠ .none → P s → P (raiseError c w s))
    (hpix : ∀ i v s, i < 1024 → P s → P (pixWrite s i v))
    (hreg : ∀ r v s, P s → P (writeReg r v s))
    (hcmd : ∀ i s t, s.hostSlot = none → exec i s = .next t → P s → P t)
    (hevd : ∀ p s, P s → P (evdStep p s)) (hlfs : ∀ s, P s → P (lfsStep s)) (hdpe : ∀ s, P s → P (dpeStep s))
    (henv : ∀ e s, P s → P (envApply e s)) (hobs : ∀ h s, P s → P (observeHoop h s))
    {s s' : State} (hs : P s) (h : step s = .next s') : P s' := by
  have hemit : ∀ e s, P s → P (s.emit e) := fun e s h => hown s s.agenda s.turns s.draws _ h
  have hpop : P (popTurn s) := by
    obtain ⟨as, n, hp⟩ := popTurn_eq s
    rw [hp]
    exact hown s as n s.draws s.hist hs
  rcases step_cases h with ⟨-, -, rfl⟩ | ⟨-, u, hu, rfl⟩
  · exact endTurn_keeps henv hobs _ (hreset _ hpop)
  · refine endTurn_keeps henv hobs _ ?_
    rcases moveStep_cases hu with ⟨a, -, rfl⟩ | ⟨a, v, -, hw⟩ | ⟨p, -, rfl⟩ | ⟨-, rfl⟩ | ⟨-, rfl⟩ | ⟨-, rfl⟩
    · refine hemit _ _ ?_
      rcases afterMemRead_cases a (popTurn s) with ⟨c, w, hne, hc⟩ | ⟨n, hn⟩
      · rw [hc]; exact herr _ _ _ hne hpop
      · rw [hn]; exact hown _ (popTurn s).agenda (popTurn s).turns n (popTurn s).hist hpop
    · rcases memWrite_cases hw with ⟨c, w, hne, rfl⟩ | ⟨i, hi, rfl⟩ | ⟨r, rfl⟩ | ⟨h1, i, -, h2⟩
      · exact herr _ _ _ hne (hemit _ _ hpop)
      · exact hpix _ _ _ hi (hemit _ _ hpop)
      · exact hreg _ _ _ (hemit _ _ hpop)
      · exact hcmd _ _ _ h1 h2 (hemit _ _ hpop)
    · exact hevd _ _ hpop
    · exact hlfs _ hpop
    · exact hdpe _ hpop
    · exact hpop

end Sys2Proof.Machine
end

