-- ==== Sys2Proof/Tests/Slice0.lean ====
section
/-! SUPPORT. The model's own tests. Expected results are those of 95_test_vectors.md, its vectors cited as V<n>, or words
written out from the patterns of 30_encoding.md R112. `witness_<Name>…` shows that the hypotheses of an obligation can be
met; `clause` names say which of its clauses. -/

namespace Sys2Proof.Tests

open Sys2Proof Sys2Proof.Machine

/-! ## A concrete block -/

/-- The default parameters of 95_test_vectors.md; entries 16 and 18 of the table, the timer period and the base have no
default and are 0 here (log 21). -/
def par : Params where
  hdrMarker := 0b111#3
  defaultBrightness := 31#5
  segRom := #v[0x3F#8, 0x06#8, 0x5B#8, 0x4F#8, 0x66#8, 0x6D#8, 0x7D#8, 0x07#8, 0x7F#8, 0x6F#8, 0x77#8, 0x7C#8, 0x39#8, 0x5E#8,
    0x79#8, 0x71#8, 0x00#8, 0x5C#8, 0x00#8]
  settleMs := 200
  sensIdle := true
  timerPeriodMs := 0
  base := 0

/-- Both sensors at the idle level, every display acknowledging. -/
def inputs : Inputs where
  tick := 0
  sens := ⟨true, true⟩
  dioPull := ⟨true, true, true⟩
  rst := false

/-- The block right after reset. -/
def base : State := State.resetWith par inputs

/-- That block with the next turn laid down. -/
def before (m : Move) (es : List EnvEvent) : State := { base with agenda := [⟨m, es⟩] }

/-- A host command in flight. -/
def busy : State := { base with hostSlot := some ⟨0x28000001#32, 0, 0⟩, lfsHostReq := some (.tx .software 1#10) }

/-- What an outcome's next state shows. -/
def nextIs (o : Host.Outcome State Fault Refusal) (p : State → Bool) : Bool :=
  match o with
  | .next s => p s
  | .fault _ => false
  | .refused _ => false

/-- An LFS operation at a position. -/
def lfsAt (op : LfsOp) (src : PixSrc) (todo : List LfsAct) : LfsRun := ⟨op, .host, src, todo, startFrame⟩

/-- A DPE operation on channel 0 at a position. -/
def dpeAt (op : DpeOp) (todo : List DpeAct) (acks : List Bool) : DpeRun := ⟨op, .host, .c0, 100#16, todo, acks⟩

/-! ## WellFormed refuses -/

theorem test_wf_refuses_segs_ch : (Instr.dspSegs 3#2 0#2 0#3 false).wellFormed = false := by decide

theorem test_wf_refuses_segs_len : (Instr.dspSegs 0#2 0#2 5#3 false).wellFormed = false := by decide

theorem test_wf_refuses_num_ch : (Instr.dspNum 3#2).wellFormed = false := by decide

theorem test_wf_refuses_clock_ch : (Instr.dspClock 3#2 true).wellFormed = false := by decide

theorem test_wf_admits_the_corners :
    (Instr.dspSegs 2#2 3#2 4#3 true).wellFormed = true ∧ (Instr.ledTx .software 1023#10).wellFormed = true := by decide

/-! ## Words written out bit by bit from 30_encoding.md R112 -/

theorem test_decode_nop : decode 0b00000000000000000000000000000000#32 = .command .nop := by decide

theorem test_decode_ledInit : decode 0b00010000000000000000000000000000#32 = .command .ledInit := by decide

-- S = 1, N = 0b1000000010
theorem test_decode_ledTx : decode 0b00101000000000000000001000000010#32 = .command (.ledTx .software 0b1000000010#10) := by
  decide

-- S = 0, N = 5 (V8)
theorem test_decode_ledFill : decode 0b00110000000000000000000000000101#32 = .command (.ledFill .hardware 5#10) := by decide

-- CH = 1, ADDR = 2, LEN = 3, COLON = 1
theorem test_decode_dspSegs :
    decode 0b01000001000000100000001100000001#32 = .command (.dspSegs 0b01#2 0b10#2 0b011#3 true) := by decide

-- CH = 2 (V9h)
theorem test_decode_dspNum : decode 0b01010010000000000000000000000000#32 = .command (.dspNum 0b10#2) := by decide

-- CH = 2, COLON = 1
theorem test_decode_dspClock : decode 0b01100010000000000000000000000001#32 = .command (.dspClock 0b10#2 true) := by decide

-- V2, V6, V7, V9c, V9i
theorem test_decode_rsvd :
    [0x00000001#32, 0x28000400#32, 0x2C000001#32, 0x40000402#32, 0x50000001#32].map decode =
      List.replicate 5 (.reject .rsvdBits) := by decide

-- V9d, V9e, V9f, V9g, V9k
theorem test_decode_order :
    [0x43000000#32, 0x40000700#32, 0x43000500#32, 0x47000000#32, 0x63000001#32].map decode =
      [.reject .badCh, .reject .badLen, .reject .badCh, .reject .rsvdBits, .reject .badCh] := by decide

-- V9l, V9m, V9n
theorem test_decode_illegal :
    [0x70000000#32, 0x7FFFFFFF#32, 0xF0000000#32].map decode = List.replicate 3 (.reject .illegalOp) := by decide

theorem test_assemble :
    (Asm.ledTx .hardware 1023).assemble = some 0x200003FF#32 ∧ (Asm.ledTx .hardware 1024).assemble = none := by decide

/-! ## Commands -/

-- V1: only the CMD read view changes
theorem test_nop : exec .nop { base with regs := { base.regs with cmd := 0x51000000#32 } } = .next base := rfl

-- V113
theorem test_busy :
    exec .ledInit busy = .next { busy with
      regs := { busy.regs with err := true, errCode := .busy, errInfo := 0x10000000#32 } } := rfl

-- V21: the third micro-step enables LED_DAT
theorem test_ledInit :
    (lfsStep { base with lfs := some (lfsAt .init .ram [.enable .dat, .enable .clk]) }).lines.ledDat = ⟨true, false⟩ := by
  decide

-- V19a: the word's bytes on the wire, brightness and header first
theorem test_ledTx_frame :
    ledFrame [0x302010FF#32] = [0#8, 0#8, 0#8, 0#8, 0xFF#8, 0x10#8, 0x20#8, 0x30#8, 0xFF#8, 0xFF#8] := by decide

-- V20: the first bit of 0xA5
theorem test_ledTx_bit : (ledEvents [0xA5#8]).take 5 =
    [.drive .dat true, .drive .clk true, .hold .lfs 1, .drive .clk false, .hold .lfs 1] := by decide

-- V19d: the hand-off of a hardware-port fill
theorem test_ledFill_handOver :
    (lfsStep { base with
      lfs := some { lfsAt (.fill .hardware 1#10 0x123456#24) (.fill 0x123456FF#32) [.handOver 1, .awaitDone] with
        frame := [0#8, 0#8, 0#8, 0#8, 0xFF#8, 0x56#8, 0x34#8, 0x12#8] } }).hist =
      [.hwXfer [0#8, 0#8, 0#8, 0#8, 0xFF#8, 0x56#8, 0x34#8, 0x12#8, 0xFF#8, 0xFF#8]] := by decide

-- V19e: DEFBRI = 5, ARG[31:24] ignored
theorem test_ledFill_word : fillWord 7#3 5#5 (colorOf 0xFF00FF00#32) = 0x00FF00E5#32 := by decide

-- V42b and V43
theorem test_dspSegs :
    segPhases 0#2 (segBytes 0x4F5B063F#32 4#3) true 0xF#4 =
      [[0x40#8], [0xC0#8, 0xBF#8, 0x86#8, 0xDB#8, 0xCF#8], [0x8F#8]] := by decide

-- V40: the events of bit 6 of 0x40
theorem test_dspSegs_bit :
    dspBitEvents .c0 100 ((0x40#8).getLsbD 6) =
      [.pullLow (.dclk .c0), .release (.ddio .c0), .hold .dpe 100, .release (.dclk .c0), .hold .dpe 100] := by decide

-- V44
theorem test_dspNum :
    [0, 42, 100, 9998, 9999].map (renderNum par.segRom) =
      [[0#8, 0#8, 0#8, 0x3F#8], [0#8, 0#8, 0x66#8, 0x5B#8], [0#8, 0x06#8, 0x3F#8, 0x3F#8], [0x6F#8, 0x6F#8, 0x6F#8, 0x7F#8],
        [0x6F#8, 0x6F#8, 0x6F#8, 0x6F#8]] := by decide

-- V46, last row: DSP_NUM of -1 leaves DACK and DNACK
theorem test_dspNum_negative :
    dpeActs par.segRom 0xF#4 (.num .c0 0xFFFFFFFF#32) = [.skip] ∧
      (dpeStep { base with dpe := some (dpeAt (.num .c0 0xFFFFFFFF#32) [.skip] []) }).regs = base.regs := by decide

-- V45
theorem test_dspClock :
    [-5, 754, 6000].map (convertToClock par.segRom) =
      [[0x3F#8, 0x3F#8, 0x3F#8, 0x3F#8], [0x06#8, 0x5B#8, 0x4F#8, 0x66#8], [0x6F#8, 0x6F#8, 0x6D#8, 0x6F#8]] := by decide

-- V46: the acknowledge record with byte 3 not acknowledged
theorem test_dspClock_record :
    dackWord [true, true, true, false, true, true, true] .c2 = 0x00002777#32 ∧
      (recordAcks base.regs [true, true, true, false, true, true, true] .c2).dnack = true := by decide

/-! ## Bus, errors, events and handlers -/

-- V101
theorem test_irqEn_mask :
    nextIs (hostWrite 0x004#16 0xFFFFFFFF#32 base) (fun s => memReadValue 0x004#16 s == 0x80000007#32) = true := by decide

-- V19c
theorem test_pixel_header :
    nextIs (hostWrite 0x1000#16 0xAABBCC05#32 base) (fun s => memReadValue 0x1000#16 s == 0xAABBCCE5#32) = true := by decide

-- V106
theorem test_unmapped : (afterMemRead 0x2000#16 base).regs.errInfo = 0x00002000#32 ∧
    (afterMemRead 0x2000#16 base).regs.errCode = .unmapped := by decide

-- V108: not a command
theorem test_misaligned_cmd :
    memWrite 0x011#16 0x10000000#32 base = .next { base with
      regs := { base.regs with err := true, errCode := .misaligned, errInfo := 0x00000011#32 } } := rfl

-- P5: st1
theorem test_status_after_illegal :
    nextIs (submit 0x70000000#32 base) (fun s => memReadValue 0x00C#16 s == 0x00001100#32) = true := by decide

-- V90: a fall with interrupts off is latched and not dispatched
theorem test_edge_latched :
    nextIs (step (before (.evd .timer) [.sensor .h0 false])) (fun s => s.regs.irqPend == 1#32 && s.evd == .idle) = true := by
  decide

-- 70_reset_and_hazards.md R303: a line active at release sets P0 in the first turn after it, though ENV makes it idle there
theorem test_first_observation :
    let s := { before .env [.sensor .h0 true] with env := { inputs with sens := ⟨false, true⟩ } }
    nextIs (step s) (fun t => t.regs.irqPend == 1#32 && t.prev.x0) = true := by decide

-- 60_exceptions.md R270: an edge in a turn with a release that changes nothing
theorem test_edge_beside_idle_release :
    nextIs (step (before .env [.sensor .h1 false, .rst false])) (fun t => t.regs.irqPend == 2#32 && !t.prev.x1) = true := by
  decide

-- V63 to V66
theorem test_dwell : [9#32, 10#32, 64#32, 65#32].map pointsOf = [.zero, .two, .two, .one] := by decide

-- V72: inside the window across the wrap of the tick
theorem test_settle_wrap :
    (sensorStep ⟨.h0, .settle, 0, 0, 0, .zero, 0⟩
      { base with env := { inputs with tick := 0x10#32 }, regs := { base.regs with tstart := 0xFFFFFFF0#32 } }).evd =
      .sensor ⟨.h0, .finish, 0x10#32, 0, 0, .zero, 0⟩ := by decide

-- V82: both hoops on team 0 before the flip
theorem test_flip :
    (timerStep ⟨.flip, 0⟩ { base with regs := { base.regs with team := 0#32 } }).regs.team = 0x3#32 := by decide

-- 95_test_vectors.md P1: the boot lines of the host notation
theorem test_host_notation :
    dspConfig .c0 7#3 true 100#16 = [.wr 0x060#16 0x0000640F#32] ∧ dspConfig .c2 2#3 true 100#16 = [.wr 0x068#16 0x0000640A#32] ∧
      irqOn 0x3#32 = [.wr 0x004#16 0x80000003#32] ∧
      ledColor .software 2#10 0#8 0xFF#8 0#8 =
        [.wr 0x014#16 0x0000FF00#32, .wr 0x010#16 0x38000002#32, .poll 0x00C#16 0x1#32 0x0#32] := by decide

/-! ## The first instruction after reset -/

theorem test_table_word : decodeTableWord 32 0x28000001 = some (.ledTx .software 1#10) ∧
    decodeTableWord 32 0x70000000 = none := by decide

theorem test_fetch_from_reset :
    nextIs (step (State.reset.withFetchWord 32 0x10000000)) (fun s => s.regs.cmd == 0x10000000#32 && s.lfsHostReq == some .init) =
      true := by decide

/-! ## Witnesses -/

theorem witness_EncodeThenDecodeReturnsTheCommand :
    (Instr.dspSegs 2#2 3#2 4#3 true).wellFormed = true ∧ (Instr.ledTx .software 1023#10).wellFormed = true := by decide

theorem witness_DecodedWordIsTheCommandsWord : decode 0x41000401#32 = .command (.dspSegs 1#2 0#2 4#3 true) := by decide

-- clauses of N at 1023, of LEN at 4, of CH at 2
theorem witness_AssemblerNeverTruncates :
    ((Asm.ledFill .software 1023).assemble = some 0x380003FF#32 ∧ (Asm.ledFill .software 1024).assemble = none) ∧
    ((Asm.dspSegs 2 3 4 false).assemble = some 0x42030400#32 ∧ (Asm.dspSegs 2 3 5 false).assemble = none ∧
      (Asm.dspSegs 2 4 4 false).assemble = none ∧ (Asm.dspSegs 3 3 4 false).assemble = none) ∧
    ((Asm.dspNum 2).assemble = some 0x52000000#32 ∧ (Asm.dspNum 3).assemble = none) ∧
    ((Asm.dspClock 2 true).assemble = some 0x62000001#32 ∧ (Asm.dspClock 3 true).assemble = none) := by decide

theorem witness_NopChangesOnlyTheCmdReadView :
    base.hostSlot = none ∧ busy.hostSlot = some ⟨0x28000001#32, 0, 0⟩ ∧
      (0x08000000#32 : Word).extractLsb' 28 4 = 0#4 ∧ 0x08000000#32 ≠ 0#32 := by decide

theorem witness_CommandWhileBusyIsDropped : busy.hostSlot = some ⟨0x28000001#32, 0, 0⟩ := by decide

theorem witness_LedCommands :
    base.hostSlot = none ∧ base.lfs = none ∧ base.lfsEvdReq = none ∧ base.env.rst = false := by decide

-- clauses of the channels, LEN at both ends
theorem witness_DspSegsWritesThreePhases :
    base.hostSlot = none ∧ base.dpe = none ∧ base.dpeEvdReq = none ∧
      [0#2, 1#2, 2#2].map chanOf = [some .c0, some .c1, some .c2] ∧ (0#3).toNat ≤ 4 ∧ (4#3).toNat ≤ 4 := by decide

theorem witness_DspNumShowsTheNumber :
    chanOf 2#2 = some .c2 ∧ 0 ≤ base.regs.arg.toInt ∧ base.hostSlot = none ∧ base.dpe = none ∧ base.dpeEvdReq = none := by
  decide

theorem witness_DspNumOfANegativeNumberSendsNothing :
    let s := { base with regs := { base.regs with arg := 0xFFFFFFFF#32 } }
    chanOf 0#2 = some .c0 ∧ s.regs.arg.toInt < 0 ∧ s.hostSlot = none ∧ s.dpe = none ∧ s.dpeEvdReq = none := by decide

theorem witness_DspClockShowsTheClock :
    chanOf 2#2 = some .c2 ∧ base.hostSlot = none ∧ base.dpe = none ∧ base.dpeEvdReq = none := by decide

-- the BAD_LEN clause at LEN = 5
theorem witness_RangeErrorsAreRecorded : base.hostSlot = none ∧ 2#2 ≠ 3#2 ∧ 4 < (5#3).toNat := by decide

-- the clause of a command, and those of the other moves
theorem witness_StepRunsTheDecodedCommand :
    (let s := before (.host (.write 0x010#16 0x51000000#32)) [.timerPulse];
      s.env.rst = false ∧ s.agenda = [⟨.host (.write 0x010#16 0x51000000#32), [.timerPulse]⟩] ∧
        nextTurn s = ⟨.host (.write 0x010#16 0x51000000#32), [.timerPulse]⟩ ∧
        decode 0x51000000#32 = .command (.dspNum 1#2) ∧ (Instr.dspNum 1#2).wellFormed = true) ∧
    base.agenda = [] ∧
    ∀ m, (before m [.tick 1#32]).env.rst = false ∧ nextTurn (before m [.tick 1#32]) = ⟨m, [.tick 1#32]⟩ :=
  ⟨by decide, rfl, fun _ => ⟨rfl, rfl⟩⟩

-- both ends of the list of read-only offsets
theorem witness_RegisterWriteSetsOnlyItsOwnFields :
    0x000#16 ∈ [0x000#16, 0x018#16, 0x01C#16, 0x024#16, 0x028#16, 0x080#16, 0x084#16, 0x088#16, 0x08C#16, 0x090#16] ∧
      0x090#16 ∈ [0x000#16, 0x018#16, 0x01C#16, 0x024#16, 0x028#16, 0x080#16, 0x084#16, 0x088#16, 0x08C#16, 0x090#16] ∧
      RegName.team ≠ .dcfg .c2 := by decide

-- both ends of the pixel RAM, and an address just below and just above the stored bytes
theorem witness_PixelWriteReadsBackWithTheMarker :
    0 < 1024 ∧ 1023 < 1024 ∧ 0x1FFB < 0x1000 + 4 * 1023 ∧ 0x1000 + 4 * 0 + 4 ≤ 0x1004 := by decide

-- the clauses: misaligned (inside and outside a reserved range), and aligned at both ends of each reserved range
theorem witness_BusErrorsAreRecordedAndDropped :
    [0x011#16, 0x02D#16, 0xFFFF#16].all (fun a => decide (a.toNat % 4 ≠ 0)) = true ∧
    [0x02C#16, 0x03C#16, 0x058#16, 0x05C#16, 0x06C#16, 0x074#16, 0x07C#16, 0x094#16, 0x0FFC#16, 0x2000#16,
      0xFFFC#16].all (fun a => decide (a.toNat % 4 = 0) && decide (targetOf a = .reserved)) = true ∧
    [0x028#16, 0x040#16, 0x054#16, 0x060#16, 0x068#16, 0x070#16, 0x080#16, 0x090#16, 0x1000#16,
      0x1FFC#16].all (fun a => decide (a.toNat % 4 = 0) && decide (targetOf a ≠ .reserved)) = true := by decide

-- entries 0 and 18 of the table
theorem witness_StatusAndTableWindowShowTheBlock : 0 < 19 ∧ 18 < 19 := by decide

theorem witness_FirstErrorIsKept :
    base.regs.err = false ∧ (raiseError .badCh 0#32 base).regs.err = true := by decide

theorem witness_ReadsHaveNoSideEffect :
    (0x1FFC#16).toNat % 4 = 0 ∧ targetOf 0x1FFC#16 ≠ .reserved ∧ (0x090#16).toNat % 4 = 0 ∧
      targetOf 0x090#16 ≠ .reserved := by decide

-- the clauses: BUSY, a rejection, a command with an operation, NOP
theorem witness_SubmittedWordIsAcceptedOrOnlyRecorded :
    busy.hostSlot.isSome = true ∧ base.hostSlot = none ∧ decode 0x70000000#32 = .reject .illegalOp ∧
      decode 0x10000000#32 = .command .ledInit ∧ Instr.ledInit ≠ .nop ∧ decode 0x0#32 = .command .nop := by decide

theorem witness_ResetStopsEverythingAtOnce :
    let s := { busy with env := { inputs with rst := true } }
    s.env.rst = true ∧ isHostMove .lfs = false := by decide

/-- A block in which much goes on: a host LED_TX on the hardware port waits for HwDone, the sensor handler of hoop 0 waits
for its render, whose acknowledge record is still to come, and an error stands. -/
def mid : State :=
  { before .dpe [.hwDone] with
    regs := { base.regs with err := true, errCode := .badCh, errInfo := 0x53000000#32, cmd := 0x20000001#32 }
    ram := [(0x1000, 0xFF#8), (0x1001, 0x10#8), (0x1002, 0x20#8), (0x1003, 0x30#8)]
    lines := { base.lines with ddio := ⟨.low, .z, .z⟩ }
    hostSlot := some ⟨0x20000001#32, 0, 0⟩
    lfs := some { lfsAt (.tx .hardware 1#10) .ram [.awaitDone] with
      frame := [0#8, 0#8, 0#8, 0#8, 0xFF#8, 0x10#8, 0x20#8, 0x30#8, 0xFF#8, 0xFF#8] }
    hwx := .waiting
    dpe := some ⟨.num .c0 2#32, .evd, .c0, 100#16, [.relDio, .hold, .record], [true, true, true, true, true, true, true]⟩
    evd := .sensor ⟨.h0, .finish, 1000#32, 1040#32, 40#32, .two, 2#32⟩ }

theorem mid_reservedZero : reservedZero mid.regs :=
  ⟨by decide, by decide, by decide, by decide, by decide, by decide, by decide, by intro k; cases k <;> decide⟩

theorem mid_headersOk : headersOk mid.par.hdrMarker mid.ram := by
  unfold headersOk
  decide

theorem mid_hwxOk : hwxOk mid := by
  refine ⟨?_, fun _ => ⟨_, rfl, rfl⟩⟩
  intro r h
  cases h
  trivial

theorem mid_busOk : busOk mid := by
  intro k
  cases k <;> rfl

theorem mid_ledEnableOk : ledEnableOk mid := by
  intro r h _ l
  cases h
  cases l <;> decide

/-- The hypotheses of every obligation of the form "a step keeps the invariant", RegistersStayLegal to
OnlyLedInitEnablesAnOutput, and of ParametersNeverChange. -/
theorem witness_Invariants : Inv mid ∧ ∃ s', step mid = .next s' :=
  ⟨⟨mid_reservedZero, by unfold errRecordOk; decide, ⟨by decide, mid_headersOk⟩, by unfold hostSlotOk; decide,
    by unfold evdRequestsOk; decide, mid_hwxOk, mid_busOk, mid_ledEnableOk⟩, ⟨_, rfl⟩⟩

-- the clause of an output that becomes enabled
theorem witness_OnlyLedInitEnablesAnOutput :
    let s := { before .lfs [] with lfs := some (lfsAt .init .ram [.enable .dat, .enable .clk]) }
    ledEnableOk s ∧ (s.lines.led .dat).oe = false ∧ ∃ s', step s = .next s' ∧ (s'.lines.led .dat).oe = true := by
  refine ⟨?_, rfl, _, rfl, rfl⟩
  intro r h hi
  cases h
  exact absurd rfl hi

-- the clause of SCORE, and that of TEAM, with a release of an RST that is not asserted
theorem witness_OnlyTheNamedWritersChangeARegister :
    (let s := { before (.evd .timer) [] with evd := .sensor ⟨.h0, .score, 0, 0, 40#32, .two, 0⟩ };
      isHostMove (nextTurn s).move = false ∧ s.env.rst = false ∧ (∀ e ∈ (nextTurn s).events, e ≠ .rst true) ∧
        ∃ s', step s = .next s' ∧ s'.regs.score ≠ s.regs.score) ∧
    (let s := { before (.evd .timer) [.tick 1#32, .rst false] with evd := .timer ⟨.flip, 0⟩ };
      isHostMove (nextTurn s).move = false ∧ s.env.rst = false ∧ (∀ e ∈ (nextTurn s).events, e ≠ .rst true) ∧
        ∃ s', step s = .next s' ∧ s'.regs.team ≠ s.regs.team) :=
  ⟨⟨rfl, rfl, by decide, _, rfl, by decide⟩, ⟨rfl, rfl, by decide, _, rfl, by decide⟩⟩

/-- Both a sensor and the timer are pending and enabled. -/
def twoPending : State := { base with regs := { base.regs with irqEn := 0x80000007#32, irqPend := 0x00000005#32 } }

theorem witness_DispatchStartsADispatchableSource :
    twoPending.evd = .idle ∧ dispatchable twoPending.regs .timer = true ∧
      dispatchable twoPending.regs (.sensor .h0) = true ∧ base.evd = .idle ∧
      dispatchable base.regs .timer = false ∧ ∀ h, dispatchable base.regs (.sensor h) = false :=
  ⟨rfl, by decide, by decide, rfl, by decide, fun h => by cases h <;> decide⟩

-- the clauses of GIE = 0, of every EN bit 0, and of a handler that starts
theorem witness_NoHandlerStartsWhileDisabled :
    let s : Word → State := fun en => { before (.evd .timer) [.sensor .h0 false] with
      regs := { base.regs with irqEn := en, irqPend := 0x00000005#32 } }
    gie (s 0x00000007#32).regs = false ∧ (s 0x80000000#32).regs.irqEn.extractLsb' 0 3 = 0#3 ∧ (s 0x80000004#32).evd = .idle ∧
      (∀ en, ∃ s', step (s en) = .next s') ∧ ∃ s', step (s 0x80000004#32) = .next s' ∧ s'.evd ≠ .idle :=
  ⟨by decide, by decide, rfl, fun _ => ⟨_, rfl⟩, _, rfl, by decide⟩

theorem witness_RunningHandlerIsNeverPreempted :
    let s := { twoPending with agenda := [⟨.evd .timer, []⟩], evd := .sensor ⟨.h1, .dwell, 0, 9#32, 0, .zero, 0⟩ }
    evdSource s.evd = some (.sensor .h1) ∧ ∃ s', step s = .next s' :=
  ⟨rfl, _, rfl⟩

-- the clauses outside reset (with an edge, and with a line that does not change) and that of a release
theorem witness_EdgesAndPulsesLatch :
    base.env.rst = false ∧ (∀ e ∈ [EnvEvent.sensor .h0 false, .rst false], e ≠ .rst true) ∧
      base.prev.get Hoop.h0.bit = base.par.sensIdle ∧
      EnvEvent.sensor .h0 (!base.par.sensIdle) ∈ [EnvEvent.sensor .h0 false, .rst false] ∧
      base.env.sens.get Hoop.h1.bit = base.prev.get Hoop.h1.bit ∧
      (∀ lvl, EnvEvent.sensor .h1 lvl ∉ [EnvEvent.sensor .h0 false, .rst false]) ∧
      (let s := { base with env := { inputs with rst := true, sens := ⟨false, true⟩ } };
        s.env.rst = true ∧ s.env.sens.get Hoop.h0.bit ≠ s.par.sensIdle) := by decide

/-- A turn of the agent `m` with what ENV does in it, both sensors and the timer pending. -/
def clearing (m : Move) (e : Evd) (es : List EnvEvent) : State :=
  { before m es with regs := { base.regs with irqPend := 0x00000007#32 }, evd := e }

-- the clauses of a sensor handler and a timer handler at step 1, and of the host's write, each with a set in the turn, and
-- of a first observation, which needs no event; `base` has PREV at the lines' levels for the clauses with none
theorem witness_SetBeatsClearInOneStep :
    let r : SensorRun := ⟨.h0, .clear, 0, 0, 0, .zero, 0⟩
    let h := clearing (.evd .timer) (.sensor r) [.sensor .h0 (!par.sensIdle)]
    let t := clearing (.evd .timer) (.timer ⟨.clear, 0⟩) [.tick 1#32, .timerPulse]
    let w := clearing (.host (.write 0x008#16 0x00000004#32)) .idle [.timerPulse]
    h.env.rst = false ∧ nextTurn h = ⟨.evd .timer, [.sensor .h0 (!par.sensIdle)]⟩ ∧ evdBlocked h = false ∧
      h.evd = .sensor r ∧ h.prev.get Hoop.h0.bit = h.par.sensIdle ∧ t.env.rst = false ∧
      nextTurn t = ⟨.evd .timer, [.tick 1#32, .timerPulse]⟩ ∧ evdBlocked t = false ∧ t.evd = .timer ⟨.clear, 0⟩ ∧
      (∀ e ∈ [EnvEvent.tick 1#32, .timerPulse], e ≠ .rst true) ∧ w.env.rst = false ∧
      nextTurn w = ⟨.host (.write 0x008#16 0x00000004#32), [.timerPulse]⟩ ∧ (0x00000004#32).getLsbD 2 = true ∧
      ({ w with env := { inputs with sens := ⟨false, true⟩ } }.env.sens.get Hoop.h0.bit ≠ par.sensIdle) ∧
      w.prev = w.env.sens := by decide

/-- The first step of the sensor handler of hoop 0, `ms` after the start of the game. -/
def entering (ms : Word) : State :=
  { base with env := { inputs with tick := ms }, evd := .sensor ⟨.h0, .clear, 0, 0, 0, .zero, 0⟩ }

-- V61 and V62: 199 lies in the window and 200 does not
theorem witness_SettleWindowDiscardsTheEvent :
    evdBlocked (entering 199#32) = false ∧
      ((entering 199#32).env.tick - (entering 199#32).regs.tstart).toNat < (entering 199#32).par.settleMs ∧
      ¬ ((entering 200#32).env.tick - (entering 200#32).regs.tstart).toNat < (entering 200#32).par.settleMs := by decide

theorem witness_SensorHandlerWaitsForTheIdleLevel :
    let r : SensorRun := ⟨.h0, .await, 1000#32, 0, 0, .zero, 0⟩
    let s := { base with env := { inputs with sens := ⟨false, true⟩ }, evd := .sensor r }
    s.evd = .sensor r ∧ r.pos = .await ∧ s.env.sens.get r.hoop.bit ≠ s.par.sensIdle := by decide

-- V63 to V66: the clauses at 9, 10, 64 and 65
theorem witness_DwellScoresTheTeam :
    let s := entering 1000#32
    let e : Word → Inputs := fun ms => { inputs with tick := ms }
    evdBlocked s = false ∧ ¬ (s.env.tick - s.regs.tstart).toNat < s.par.settleMs ∧
      (e 1009#32).sens.get Hoop.h0.bit = s.par.sensIdle ∧ ((e 1009#32).tick - s.env.tick).toNat = 9 ∧
      ((e 1010#32).tick - s.env.tick).toNat = 10 ∧ ((e 1064#32).tick - s.env.tick).toNat = 64 ∧
      ((e 1065#32).tick - s.env.tick).toNat = 65 := by decide

/-- The LFS of `mid` runs for the host. -/
theorem mid_hostRuns (q : LfsRun) (h : mid.lfs = some q) : q.owner = .host := by
  cases h
  rfl

theorem witness_ToneComesBeforeRender :
    let r : SensorRun := ⟨.h1, .tone, 1000#32, 1080#32, 80#32, .one, 1#32⟩
    let s := { mid with evd := .sensor r, dpe := none }
    s.evd = .sensor r ∧ r.pos = .tone ∧ s.env.rst = false ∧ s.tone = .idle ∧ s.lfsEvdReq = none ∧ s.dpeEvdReq = none ∧
      (∀ q, s.lfs = some q → q.owner = .host) ∧ (∀ q, s.dpe = some q → q.owner = .host) ∧
      ∃ q : DpeRun, q.owner = .evd :=
  ⟨rfl, rfl, rfl, rfl, rfl, rfl, mid_hostRuns, nofun, ⟨.num .c1 1#32, .evd, .c1, 0, [], []⟩, rfl⟩

theorem witness_TimerHandlerFlipsRecoloursAndRenders :
    let r : TimerRun := ⟨.clear, 0⟩
    let s := { mid with evd := .timer r, dpe := none }
    s.evd = .timer r ∧ r.pos = .clear ∧ s.tone = .idle ∧ s.lfsEvdReq = none ∧ s.dpeEvdReq = none ∧
      (∀ q, s.lfs = some q → q.owner = .host) ∧ (∀ q, s.dpe = some q → q.owner = .host) ∧
      (∃ q : LfsRun, q.owner = .evd) ∧ ∃ q : DpeRun, q.owner = .evd :=
  ⟨rfl, rfl, rfl, rfl, rfl, mid_hostRuns, nofun, ⟨⟨.fill .software 1#10 0, .evd, .ram, [], []⟩, rfl⟩,
    ⟨.num .c0 1#32, .evd, .c0, 0, [], []⟩, rfl⟩

theorem witness_TwoFlipsRestoreTeamsAndColours :
    (0#32 = 0#32 ∨ 0#32 = 1#32) ∧ (1#32 = 0#32 ∨ 1#32 = 1#32) ∧ (TimerRun.mk .flip 0).pos = .flip := by decide

-- the clauses of an idle LFS and DPE with the EVD's request beside the host's and without it, and of busy ones
theorem witness_EvdRequestGoesBeforeTheHosts :
    let s := { base with
      lfsEvdReq := some (.fill .software 2#10 0#24), lfsHostReq := some .init, dpeEvdReq := some (.num .c0 1#32)
      dpeHostReq := some (.num .c1 2#32) }
    let u := { s with lfsEvdReq := none, dpeEvdReq := none }
    s.lfs = none ∧ s.lfsEvdReq = some (.fill .software 2#10 0#24) ∧ s.lfsHostReq = some .init ∧ s.dpe = none ∧
      s.dpeEvdReq = some (.num .c0 1#32) ∧ s.dpeHostReq = some (.num .c1 2#32) ∧ u.lfsEvdReq = none ∧
      u.lfsHostReq = some .init ∧ u.dpeEvdReq = none ∧ u.dpeHostReq = some (.num .c1 2#32) ∧ mid.lfs.isSome = true ∧
      mid.dpe.isSome = true := by decide

-- the EVD's FILL on each port, and its RENDER of 0 and of a negative number
theorem witness_RequestsOfTheEvd :
    let fill := fun p => { base with lfsEvdReq := some (.fill p 1023#10 0xFF#24) }
    let render := fun v : Word => { base with dpeEvdReq := some (.num .c1 v) }
    (fill .software).lfs = none ∧ (fill .software).lfsEvdReq = some (.fill .software 1023#10 0xFF#24) ∧
      (fill .hardware).lfs = none ∧ (fill .hardware).lfsEvdReq = some (.fill .hardware 1023#10 0xFF#24) ∧
      (fill .hardware).env.rst = false ∧ (render 0#32).dpe = none ∧ (render 0#32).dpeEvdReq = some (.num .c1 0#32) ∧
      0 ≤ (0#32 : Word).toInt ∧ (render 0x80000000#32).dpeEvdReq = some (.num .c1 0x80000000#32) ∧
      (0x80000000#32 : Word).toInt < 0 := by decide

theorem witness_StartedOperationsKeepTheirConfiguration :
    (∃ r, mid.dpe = some r) ∧ ∃ r, mid.lfs = some r :=
  ⟨⟨_, rfl⟩, ⟨_, rfl⟩⟩

-- the clauses of the step that takes pixel 0 on each port, and of another step
theorem witness_PixelWordsAreTakenWholeAtTheirStep :
    (let r := lfsAt (.tx .software 1#10) .ram (.sendPixel 0 :: (endFrame 1).flatMap ledByteActs)
      let s := { base with lfs := some r }
      s.lfs = some r ∧ r.src = .ram ∧
        r.todo = .sendPixel 0 :: (endFrame 1).flatMap ledByteActs) ∧
    (let r := lfsAt (.tx .hardware 1#10) .ram [.packPixel 0, .handOver 1, .awaitDone]
      let s := { base with lfs := some r }
      s.lfs = some r ∧ r.src = .ram ∧ r.todo = .packPixel 0 :: .handOver 1 :: [.awaitDone]) ∧
    (let r := lfsAt (.tx .software 1#10) .ram [.hold]
      let s := { base with lfs := some r }
      s.lfs = some r ∧ r.src = .ram ∧
        ∀ i, r.todo.head? ≠ some (.sendPixel i) ∧ r.todo.head? ≠ some (.packPixel i)) := by
  refine ⟨⟨rfl, rfl, rfl⟩, ⟨rfl, rfl, rfl⟩, rfl, rfl, ?_⟩
  intro i
  constructor <;> intro h <;> cases h

-- the clauses of the sample and of the record, with none and with seven acknowledges
theorem witness_SampleAndRecordFollowTheRules :
    (∃ r, { base with dpe := some (dpeAt (.num .c0 1#32) [.sample, .pullClk] []) }.dpe = some r ∧
      r.todo = [.sample, .pullClk]) ∧
    (dpeAt (.num .c0 1#32) [.record] []).acks.length ≤ 7 ∧
    (dpeAt (.num .c0 1#32) [.record] (List.replicate 7 true)).acks.length ≤ 7 :=
  ⟨⟨_, rfl, rfl⟩, by decide, by decide⟩

-- the clauses of 9998 and 9999 do not meet
theorem witness_NumbersAreRenderedRightJustified : 9998 < 9999 ∧ 9999 ≤ 9999 := by decide

-- the clauses of 0, 1, 5999 and 6000 do not meet
theorem witness_ClockIsClampedAndShowsFourDigits :
    (0 : Int) < 1 ∧ (1 : Int) ≤ 1 ∧ (1 : Int) ≤ 5999 ∧ (5999 : Int) ≤ 5999 ∧ (5999 : Int) < 6000 := by decide

theorem witness_FrameCarriesItsPixels :
    3 < 4 ∧ [0x302010FF#32, 0x0#32][1]? = some 0x0#32 := by decide

theorem witness_DisplayReceivesThePhase : Chan.c1 ≠ Chan.c0 := by decide

theorem witness_QuiescentBlockHasNoStep :
    quiescent base = true ∧ isHostMove (.evd .timer) = false := by decide

end Sys2Proof.Tests
end

section
/-! SUPPORT. The decoder read backwards: a word that decodes to a command is that command's word (30_encoding.md R112 to
R114). -/

namespace Sys2Proof

/-- What a word that decodes to a command has passed: opcode, reserved bits, ranges (30_encoding.md R114). -/
theorem decode_command_inv {w : Word} {i : Instr} (h : decode w = .command i) :
    ∃ f, formatOf (opField w) = some f ∧ assembleFields w = some i ∧ w &&& rsvdMask f = 0#32 ∧ rangeError i = none := by
  simp only [decode] at h
  split at h
  case h_1 f j hf hj =>
    split at h
    · cases h
    · rename_i hm
      split at h
      · cases h
      · rename_i hr
        cases h
        exact ⟨f, hf, hj, by simpa using hm, hr⟩
  case h_2 => cases h

/-- A field inside the reserved bits of a word that keeps them at 0 is 0. -/
theorem extractLsb'_eq_zero_of_mask {w m : Word} (h : w &&& m = 0#32) (a n : Nat)
    (hm : m.extractLsb' a n = BitVec.allOnes n) : w.extractLsb' a n = 0#n := by
  have h2 : (w &&& m).extractLsb' a n = 0#n := by rw [h]; exact BitVec.extractLsb'_zero
  rwa [BitVec.extractLsb'_and, hm, BitVec.and_allOnes] at h2

/-- One bit as a field. -/
theorem ofBool_getLsbD_eq_extractLsb' (w : Word) (k : Nat) : BitVec.ofBool (w.getLsbD k) = w.extractLsb' k 1 := by
  rw [BitVec.getLsbD_eq_extractLsb']
  generalize w.extractLsb' k 1 = b
  revert b
  decide

theorem portBit_portField (w : Word) : portBit (portField w) = w.extractLsb' 27 1 := by
  rw [← ofBool_getLsbD_eq_extractLsb', portField]
  cases w.getLsbD 27 <;> rfl

/-- With its reserved bits at 0, a word is the word of the command its fields make, whatever their ranges
(30_encoding.md R112): `encode` lays side by side the fields that `assembleFields` took out of it. -/
theorem encode_of_assembleFields {w : Word} {f : Format} {i : Instr} (hf : formatOf (opField w) = some f)
    (hi : assembleFields w = some i) (hm : w &&& rsvdMask f = 0#32) : encode i = w := by
  have op : ∀ k : BitVec 4, (opField w).toNat = k.toNat → k = w.extractLsb' 28 4 :=
    fun k h => (BitVec.eq_of_toNat_eq h).symm
  have zero : ∀ a n, (rsvdMask f).extractLsb' a n = BitVec.allOnes n → 0#n = w.extractLsb' a n :=
    fun a n h => (extractLsb'_eq_zero_of_mask hm a n h).symm
  have glue := @BitVec.extractLsb'_append_extractLsb'_eq_extractLsb' 32
  have whole := @BitVec.extractLsb'_eq_self 32 w
  have bit := ofBool_getLsbD_eq_extractLsb' w
  unfold assembleFields at hi
  split at hi <;> rename_i ho <;> simp only [formatOf, ho] at hf <;> cases hf <;> cases hi
  case h_1 => -- NOP
    simp only [encode, op 0x0#4 ho, zero 0 28 (by decide), glue, whole]
  case h_2 => -- LED_INIT
    simp only [encode, op 0x1#4 ho, zero 0 28 (by decide), glue, whole]
  case h_3 => -- LED_TX
    simp only [encode, op 0x2#4 ho, portBit_portField, zero 10 17 (by decide), countField, glue, whole]
  case h_4 => -- LED_FILL
    simp only [encode, op 0x3#4 ho, portBit_portField, zero 10 17 (by decide), countField, glue, whole]
  case h_5 => -- DSP_SEGS
    simp only [encode, op 0x4#4 ho, zero 26 2 (by decide), chField, zero 18 6 (by decide), addrField,
      zero 11 5 (by decide), lenField, zero 1 7 (by decide), colonField, bit, glue, whole]
  case h_6 => -- DSP_NUM
    simp only [encode, op 0x5#4 ho, zero 26 2 (by decide), chField, zero 0 24 (by decide), glue, whole]
  case h_7 => -- DSP_CLOCK
    simp only [encode, op 0x6#4 ho, zero 26 2 (by decide), chField, zero 1 23 (by decide), colonField, bit, glue, whole]

/-- 30_encoding.md R112 to R114: no bit of a word that decodes to a command is dropped. -/
theorem encode_of_decode {w : Word} {i : Instr} (h : decode w = .command i) : encode i = w := by
  obtain ⟨f, hf, hi, hm, -⟩ := decode_command_inv h
  exact encode_of_assembleFields hf hi hm

end Sys2Proof
end

section
/-! SUPPORT. No operation of a step writes the OPEN parameters. -/

namespace Sys2Proof.Machine

open Sys2Proof

@[simp] theorem raiseError_par (c : ErrCode) (info : Word) (s : State) : (raiseError c info s).par = s.par := by
  rcases raiseError_cases c info s with ⟨-, h⟩ | ⟨-, h⟩ <;> rw [h]

@[simp] theorem resetBlock_par (s : State) : (resetBlock s).par = s.par := rfl

@[simp] theorem writeReg_par (r : RegName) (v : Word) (s : State) : (writeReg r v s).par = s.par := by
  rw [writeReg_eq]

theorem exec_par {i : Instr} {s t : State} (h : exec i s = .next t) : t.par = s.par := by
  rcases exec_cases h with ⟨c, -, rfl⟩ | ⟨-, rfl | ⟨op, rfl⟩ | ⟨op, rfl⟩⟩
  · exact raiseError_par c _ s
  · rfl
  · exact queueLfs_par _ op _
  · exact queueDpe_par _ op _

@[simp] theorem evdStep_par (p : Source) (s : State) : (evdStep p s).par = s.par := by
  obtain ⟨g, e, t, a, q, es, h⟩ := evdStep_eq p s
  rw [h]

@[simp] theorem lfsStep_par (s : State) : (lfsStep s).par = s.par := by
  obtain ⟨l, x, n, es, hs, a, b, r, h, -⟩ := lfsStep_frame s
  rw [h]

@[simp] theorem dpeStep_par (s : State) : (dpeStep s).par = s.par := by
  obtain ⟨l, g, es, hs, a, b, r, h, -⟩ := dpeStep_frame s
  rw [h]

@[simp] theorem envApply_par (e : EnvEvent) (s : State) : (envApply e s).par = s.par := by
  rcases envApply_cases e s with ⟨-, h⟩ | ⟨i, g, x, t, es, h, -⟩ <;> rw [h]
  rfl

@[simp] theorem observeHoop_par (h : Hoop) (s : State) : (observeHoop h s).par = s.par := rfl

end Sys2Proof.Machine
end

section
/-! SUPPORT. Submitting the word of a command at CMD is the command's meaning (60_exceptions.md R263). -/

namespace Sys2Proof.Machine

open Sys2Proof

theorem exec_eq_submitCommand (i : Instr) (s : State) : ∃ acc, exec i s = .next (submitCommand i s acc) := by
  cases i <;> exact ⟨_, rfl⟩

/-- A command while the host slot is full is recorded as BUSY with its word, whatever command it is. -/
theorem exec_of_full (i : Instr) {s : State} (h : s.hostSlot.isSome = true) :
    exec i s = .next (raiseError .busy (encode i) s) := by
  obtain ⟨acc, he⟩ := exec_eq_submitCommand i s
  rw [he, submitCommand, if_pos h]

/-- BUSY is checked before the word is decoded, and records the word: the same as the command's own BUSY, since no bit of
the word is lost by decoding. -/
theorem submit_of_decode {w : Word} {i : Instr} (hd : decode w = .command i) (s : State) : submit w s = exec i s := by
  unfold submit
  split
  · rename_i hs
    rw [exec_of_full i hs, encode_of_decode hd]
  · rw [hd]

theorem memWrite_cmd (w : Word) (s : State) : memWrite 0x010#16 w s = submit w s := rfl

/-- Outside reset, a host write is MemWrite after the write's event, and then the end of the turn. -/
theorem step_of_hostWrite {s t : State} {a : Addr} {v : Word} {es : List EnvEvent} (hr : s.env.rst = false)
    (hn : nextTurn s = ⟨.host (.write a v), es⟩) (h : memWrite a v ((popTurn s).emit (.regWrite a v)) = .next t) :
    step s = .next (endTurn es t) :=
  step_of_move hr hn h

end Sys2Proof.Machine
end

section
/-! The obligations of 00_scope.md. -/

namespace Sys2Proof.Machine

open Sys2Proof

/-- Settles O37: each operation a step is made of keeps the parameters, so every step does. -/
theorem parametersNeverChange : Obligations.ParametersNeverChange := by
  intro s s' h
  refine @step_keeps (fun u => u.par = s.par) ?hown ?hreset ?herr ?hpix ?hreg ?hcmd ?hevd ?hlfs ?hdpe ?henv ?hobs s s' rfl h
  case hown => exact fun _ _ _ _ _ hu => hu
  case hreset => exact fun u hu => (resetBlock_par u).trans hu
  case herr => exact fun c w u _ hu => (raiseError_par c w u).trans hu
  case hpix => exact fun i v u _ hu => (pixWrite_par i v u).trans hu
  case hreg => exact fun r v u hu => (writeReg_par r v u).trans hu
  case hcmd => exact fun _ _ _ _ he hu => (exec_par he).trans hu
  case hevd => exact fun p u hu => (evdStep_par p u).trans hu
  case hlfs => exact fun u hu => (lfsStep_par u).trans hu
  case hdpe => exact fun u hu => (dpeStep_par u).trans hu
  case henv => exact fun e u hu => (envApply_par e u).trans hu
  case hobs => exact fun k u hu => (observeHoop_par k u).trans hu

/-- Settles O18: `step_of_move` for each kind of turn; at CMD, `submit_of_decode` turns MemWrite into `exec`. -/
theorem stepRunsTheDecodedCommand : Obligations.StepRunsTheDecodedCommand := by
  refine ⟨fun s t ts h => ⟨by simp [nextTurn, h], by simp [popTurn, h]⟩,
    fun s h => ⟨by simp [nextTurn, h], by simp [popTurn, h]⟩, fun s es hr => ⟨?_, ?_, ?_, ?_, ?_, ?_, ?_⟩⟩
  · intro w i hn hd _
    obtain ⟨t, ht⟩ := exec_next i ((popTurn s).emit (.regWrite 0x010#16 w))
    refine ⟨t, ht, step_of_hostWrite hr hn ?_⟩
    rw [memWrite_cmd, submit_of_decode hd, ht]
  · intro a v hn
    obtain ⟨t, ht⟩ := memWrite_next a v ((popTurn s).emit (.regWrite a v))
    exact ⟨t, ht, step_of_hostWrite hr hn ht⟩
  · exact fun a hn => step_of_move hr hn rfl
  · exact fun pick hn => step_of_move hr hn rfl
  · exact fun hn => step_of_move hr hn rfl
  · exact fun hn => step_of_move hr hn rfl
  · exact fun hn => step_of_move hr hn rfl

end Sys2Proof.Machine
end

section
/-! SUPPORT. The register invariants under every operation of a step. -/

namespace Sys2Proof.Machine

open Sys2Proof

/-- Every reserved bit is 0, and ERRCODE is NONE exactly while ERR = 0 (10_state.md R32 to R52, R34). -/
def registersOk (r : Regs) : Prop := reservedZero r ∧ errRecordOk r

theorem registersOk_setPending {r : Regs} (h : registersOk r) (x : Source) : registersOk (setPending r x) :=
  ⟨reservedZero_setPending r x h.1, h.2⟩

theorem registersOk_clearPending {r : Regs} (h : registersOk r) (x : Source) : registersOk (clearPending r x) :=
  ⟨reservedZero_clearPending r x h.1, h.2⟩

theorem registersOk_recordAcks {r : Regs} (h : registersOk r) (acks : List Bool) (k : Chan) :
    registersOk (recordAcks r acks k) := by
  obtain ⟨⟨hen, hpend, -, hrest⟩, herr⟩ := h
  exact ⟨⟨hen, hpend, dackWord_reserved acks k, hrest⟩, herr⟩

theorem mask_xor (a b m : Word) (ha : a &&& m = 0#32) (hb : b &&& m = 0#32) : (a ^^^ b) &&& m = 0#32 := by
  have distrib : (a ^^^ b) &&& m = (a &&& m) ^^^ (b &&& m) := by
    ext i hi
    simp [Bool.and_xor_distrib_right]
  rw [distrib, ha, hb, BitVec.xor_self]

/-- A flip of the two team bits leaves the reserved bits of TEAM at 0. -/
theorem registersOk_flip {r : Regs} (h : registersOk r) :
    registersOk { r with team := r.team ^^^ 0x00000003#32 } := by
  obtain ⟨⟨hen, hpend, hdack, hteam, hrest⟩, herr⟩ := h
  refine ⟨⟨hen, hpend, hdack, ?_, hrest⟩, herr⟩
  exact mask_xor _ _ _ hteam rfl

/-- A recorded error has a code other than NONE (60_exceptions.md R261). -/
theorem registersOk_raiseError {c : ErrCode} (hc : c ≠ .none) (w : Word) {s : State} (h : registersOk s.regs) :
    registersOk (raiseError c w s).regs := by
  rcases raiseError_cases c w s with ⟨-, e⟩ | ⟨-, e⟩ <;> rw [e]
  · exact h
  · exact ⟨h.1, by simp [errRecordOk, hc]⟩

theorem registersOk_exec {i : Instr} {s t : State} (he : exec i s = .next t) (h : registersOk s.regs) :
    registersOk t.regs := by
  rcases exec_cases he with ⟨c, hc, rfl⟩ | ⟨-, rfl | ⟨op, rfl⟩ | ⟨op, rfl⟩⟩
  · exact registersOk_raiseError hc _ h
  all_goals exact h

theorem registersOk_sensorStep (r : SensorRun) {s : State} (h : registersOk s.regs) :
    registersOk (sensorStep r s).regs := by
  rcases sensorStep_regs r s with ⟨-, e⟩ | ⟨-, e⟩ | ⟨-, v, e⟩ | e <;> rw [e]
  · exact registersOk_clearPending h _
  all_goals exact h

theorem registersOk_timerStep (r : TimerRun) {s : State} (h : registersOk s.regs) :
    registersOk (timerStep r s).regs := by
  rcases timerStep_regs r s with ⟨-, e⟩ | ⟨-, e⟩ | e <;> rw [e]
  · exact registersOk_clearPending h _
  · exact registersOk_flip h
  · exact h

theorem registersOk_evdStep (p : Source) {s : State} (h : registersOk s.regs) : registersOk (evdStep p s).regs := by
  rcases evdStep_cases p s with e | ⟨x, -, -, e⟩ | ⟨r, -, -, e⟩ | ⟨r, -, -, e⟩ <;> rw [e]
  · exact h
  · exact h
  · exact registersOk_sensorStep r h
  · exact registersOk_timerStep r h

theorem registersOk_lfsStep {s : State} (h : registersOk s.regs) : registersOk (lfsStep s).regs := by
  obtain ⟨l, x, n, es, hs, a, b, r, e, -⟩ := lfsStep_frame s
  rw [e]
  exact h

theorem registersOk_dpeStep {s : State} (h : registersOk s.regs) : registersOk (dpeStep s).regs := by
  obtain ⟨l, g, es, hs, a, b, r, e, -, -, hg⟩ := dpeStep_frame s
  rw [e]
  rcases hg with rfl | ⟨q, -, rfl⟩
  · exact h
  · exact registersOk_recordAcks h _ _

theorem registersOk_envApply (e : EnvEvent) {s : State} (h : registersOk s.regs) : registersOk (envApply e s).regs := by
  rcases envApply_cases e s with ⟨-, he⟩ | ⟨i, g, x, t, es, he, rfl | rfl | ⟨-, rfl⟩, -⟩ <;> rw [he]
  · exact registersOk_reset _ _
  · exact h
  · exact registersOk_setPending h _
  · exact h

theorem registersOk_observeHoop (k : Hoop) {s : State} (h : registersOk s.regs) :
    registersOk (observeHoop k s).regs := by
  obtain ⟨g, e, ⟨rfl, -⟩ | ⟨rfl, -⟩⟩ := observeHoop_eq k s <;> rw [e]
  · exact registersOk_setPending h _
  · exact h

end Sys2Proof.Machine
end

section
/-! SUPPORT. Only a host write of a pixel word and a reset change the pixel RAM. -/

namespace Sys2Proof.Machine

open Sys2Proof

@[simp] theorem raiseError_ram (c : ErrCode) (info : Word) (s : State) : (raiseError c info s).ram = s.ram := by
  rcases raiseError_cases c info s with ⟨-, h⟩ | ⟨-, h⟩ <;> rw [h]

@[simp] theorem resetBlock_ram (s : State) : (resetBlock s).ram = [] := rfl

@[simp] theorem writeReg_ram (r : RegName) (v : Word) (s : State) : (writeReg r v s).ram = s.ram := by
  rw [writeReg_eq]

theorem exec_ram {i : Instr} {s t : State} (h : exec i s = .next t) : t.ram = s.ram := by
  rcases exec_cases h with ⟨c, -, rfl⟩ | ⟨-, rfl | ⟨op, rfl⟩ | ⟨op, rfl⟩⟩
  · exact raiseError_ram c _ s
  · rfl
  · exact queueLfs_ram _ op _
  · exact queueDpe_ram _ op _

@[simp] theorem evdStep_ram (p : Source) (s : State) : (evdStep p s).ram = s.ram := by
  obtain ⟨g, e, t, a, q, es, h⟩ := evdStep_eq p s
  rw [h]

@[simp] theorem lfsStep_ram (s : State) : (lfsStep s).ram = s.ram := by
  obtain ⟨l, x, n, es, hs, a, b, r, h, -⟩ := lfsStep_frame s
  rw [h]

@[simp] theorem dpeStep_ram (s : State) : (dpeStep s).ram = s.ram := by
  obtain ⟨l, g, es, hs, a, b, r, h, -⟩ := dpeStep_frame s
  rw [h]

/-- ENV writes no pixel RAM but by asserting RST, after which nothing is listed (log 7). -/
theorem envApply_ram (e : EnvEvent) (s : State) : (envApply e s).ram = [] ∨ (envApply e s).ram = s.ram := by
  rcases envApply_cases e s with ⟨-, h⟩ | ⟨i, g, x, t, es, h, -⟩ <;> rw [h]
  · exact .inl rfl
  · exact .inr rfl

@[simp] theorem observeHoop_ram (h : Hoop) (s : State) : (observeHoop h s).ram = s.ram := rfl

/-- The canonical form and the headers rest on the pixel RAM and the parameters only. -/
theorem ramOk_congr {s u : State} (hram : u.ram = s.ram) (hpar : u.par = s.par) (h : ramOk s) : ramOk u := by
  unfold ramOk
  rw [hram, hpar]
  exact h

theorem ramOk_of_empty {s : State} (h : s.ram = []) : ramOk s := by
  unfold ramOk
  rw [h]
  exact ⟨memory_wf_nil, nofun⟩

theorem ramOk_envApply (e : EnvEvent) {s : State} (h : ramOk s) : ramOk (envApply e s) := by
  rcases envApply_ram e s with he | he
  · exact ramOk_of_empty he
  · exact ramOk_congr he (envApply_par e s) h

end Sys2Proof.Machine
end

section
/-! SUPPORT. The operations in flight (10_state.md R72, R73, 20_memory.md R95): what each operation of a step does to the
number of the host's and of the EVD's. -/

namespace Sys2Proof.Machine

open Sys2Proof

theorem lfsRunsFor_of_none {s : State} (h : s.lfs = none) (o : Requester) : lfsRunsFor s o = false := by
  simp [lfsRunsFor, h]

theorem lfsRunsFor_of_some {s : State} {r : LfsRun} (h : s.lfs = some r) (o : Requester) :
    lfsRunsFor s o = decide (r.owner = o) := by
  simp [lfsRunsFor, h]

theorem dpeRunsFor_of_none {s : State} (h : s.dpe = none) (o : Requester) : dpeRunsFor s o = false := by
  simp [dpeRunsFor, h]

theorem dpeRunsFor_of_some {s : State} {r : DpeRun} (h : s.dpe = some r) (o : Requester) :
    dpeRunsFor s o = decide (r.owner = o) := by
  simp [dpeRunsFor, h]

/-- A micro-step of the DPE completes the operation or goes on with it, for the same requester. -/
theorem dpeMicro_ends_or_goes_on (r : DpeRun) (s : State) : ∃ l g e,
    dpeMicro r s = complete r.owner { s with dpe := none, lines := l, regs := g, hist := e } ∨
      ∃ r', r'.owner = r.owner ∧ dpeMicro r s = { s with dpe := some r', lines := l, regs := g, hist := e } := by
  obtain ⟨l, g, e, r', rest, -, -, -, -, -, howner, -, -, -, -, h⟩ := dpeMicro_cases r s
  refine ⟨l, g, e, ?_⟩
  rcases dpeAdvance_cases r' rest { s with lines := l, regs := g, hist := e } with ⟨-, h2⟩ | ⟨-, h2⟩
  · exact .inl (by rw [h, h2, howner])
  · exact .inr ⟨{ r' with todo := rest }, howner, h.trans h2⟩

/-! ### The host's -/

/-- An LFS turn keeps the number of the host's operations and its slot, or completes one of them and empties the slot. -/
theorem lfsStep_hostInFlight (s : State) :
    (hostInFlight (lfsStep s) = hostInFlight s ∧ (lfsStep s).hostSlot = s.hostSlot) ∨
      (hostInFlight (lfsStep s) + 1 = hostInFlight s ∧ (lfsStep s).hostSlot = none) := by
  rcases lfsStep_cases s with ⟨-, -, -, e⟩ | ⟨op, hl, -, e⟩ | ⟨op, hl, -, hq, e⟩ | ⟨r, hr, e⟩ <;> rw [e]
  · exact .inl ⟨rfl, rfl⟩
  · refine .inl ⟨?_, rfl⟩
    show s.lfsHostReq.isSome.toNat + s.dpeHostReq.isSome.toNat + 0 + (dpeRunsFor s .host).toNat = _
    simp only [hostInFlight, lfsRunsFor_of_none hl, Bool.toNat_false]
  · refine .inl ⟨?_, rfl⟩
    show 0 + s.dpeHostReq.isSome.toNat + 1 + (dpeRunsFor s .host).toNat = _
    simp only [hostInFlight, hq, lfsRunsFor_of_none hl, Option.isSome_some, Bool.toNat_true, Bool.toNat_false]
    omega
  · rcases lfsMicro_cases r s with e | ⟨l, x, n, es, -, -, e | ⟨r', -, howner, e⟩⟩ <;> rw [e]
    · exact .inl ⟨rfl, rfl⟩
    · cases ho : r.owner with
      | host =>
        refine .inr ⟨?_, rfl⟩
        show s.lfsHostReq.isSome.toNat + s.dpeHostReq.isSome.toNat + 0 + (dpeRunsFor s .host).toNat + 1 = _
        simp only [hostInFlight, lfsRunsFor_of_some hr, ho, decide_true, Bool.toNat_true]
        omega
      | evd =>
        refine .inl ⟨?_, rfl⟩
        show s.lfsHostReq.isSome.toNat + s.dpeHostReq.isSome.toNat + 0 + (dpeRunsFor s .host).toNat = _
        simp only [hostInFlight, lfsRunsFor_of_some hr, ho, reduceCtorEq, decide_false, Bool.toNat_false]
    · refine .inl ⟨?_, rfl⟩
      show s.lfsHostReq.isSome.toNat + s.dpeHostReq.isSome.toNat + (decide (r'.owner = .host)).toNat +
        (dpeRunsFor s .host).toNat = _
      simp only [hostInFlight, lfsRunsFor_of_some hr, howner]

/-- A DPE turn does the same. -/
theorem dpeStep_hostInFlight (s : State) :
    (hostInFlight (dpeStep s) = hostInFlight s ∧ (dpeStep s).hostSlot = s.hostSlot) ∨
      (hostInFlight (dpeStep s) + 1 = hostInFlight s ∧ (dpeStep s).hostSlot = none) := by
  rcases dpeStep_cases s with ⟨-, -, -, e⟩ | ⟨op, hl, -, e⟩ | ⟨op, hl, -, hq, e⟩ | ⟨r, hr, e⟩ <;> rw [e]
  · exact .inl ⟨rfl, rfl⟩
  · refine .inl ⟨?_, rfl⟩
    show s.lfsHostReq.isSome.toNat + s.dpeHostReq.isSome.toNat + (lfsRunsFor s .host).toNat + 0 = _
    simp only [hostInFlight, dpeRunsFor_of_none hl, Bool.toNat_false]
  · refine .inl ⟨?_, rfl⟩
    show s.lfsHostReq.isSome.toNat + 0 + (lfsRunsFor s .host).toNat + 1 = _
    simp only [hostInFlight, hq, dpeRunsFor_of_none hl, Option.isSome_some, Bool.toNat_true, Bool.toNat_false]
    omega
  · obtain ⟨l, g, es, e | ⟨r', howner, e⟩⟩ := dpeMicro_ends_or_goes_on r s <;> rw [e]
    · cases ho : r.owner with
      | host =>
        refine .inr ⟨?_, rfl⟩
        show s.lfsHostReq.isSome.toNat + s.dpeHostReq.isSome.toNat + (lfsRunsFor s .host).toNat + 0 + 1 = _
        simp only [hostInFlight, dpeRunsFor_of_some hr, ho, decide_true, Bool.toNat_true, Nat.add_zero]
      | evd =>
        refine .inl ⟨?_, rfl⟩
        show s.lfsHostReq.isSome.toNat + s.dpeHostReq.isSome.toNat + (lfsRunsFor s .host).toNat + 0 = _
        simp only [hostInFlight, dpeRunsFor_of_some hr, ho, reduceCtorEq, decide_false, Bool.toNat_false]
    · refine .inl ⟨?_, rfl⟩
      show s.lfsHostReq.isSome.toNat + s.dpeHostReq.isSome.toNat + (lfsRunsFor s .host).toNat +
        (decide (r'.owner = .host)).toNat = _
      simp only [hostInFlight, dpeRunsFor_of_some hr, howner]

/-- A turn that keeps the number and the slot, or completes one operation and empties the slot, keeps the invariant: the
number is at most 1. -/
theorem hostSlotOk_of_inFlight {s u : State} (hs : hostSlotOk s)
    (h : (hostInFlight u = hostInFlight s ∧ u.hostSlot = s.hostSlot) ∨
      (hostInFlight u + 1 = hostInFlight s ∧ u.hostSlot = none)) : hostSlotOk u := by
  unfold hostSlotOk at hs ⊢
  rcases h with ⟨hn, hslot⟩ | ⟨hn, hslot⟩
  · rw [hn, hslot, hs]
  · have := Bool.toNat_le s.hostSlot.isSome
    rw [hslot]
    show hostInFlight u = 0
    omega

theorem hostSlotOk_raiseError (c : ErrCode) (w : Word) {s : State} (h : hostSlotOk s) :
    hostSlotOk (raiseError c w s) := by
  rcases raiseError_cases c w s with ⟨-, e⟩ | ⟨-, e⟩ <;> rw [e] <;> exact h

theorem hostInFlight_eq_zero_iff (s : State) : hostInFlight s = 0 ↔
    s.lfsHostReq = none ∧ s.dpeHostReq = none ∧ lfsRunsFor s .host = false ∧ dpeRunsFor s .host = false := by
  simp [hostInFlight, and_assoc]

/-- Acceptance fills the host slot and one request slot, both empty before (60_exceptions.md R263). -/
theorem hostSlotOk_exec {i : Instr} {s t : State} (hempty : s.hostSlot = none) (he : exec i s = .next t)
    (hs : hostSlotOk s) : hostSlotOk t := by
  obtain ⟨hlfsReq, hdpeReq, hlfs, hdpe⟩ := (hostInFlight_eq_zero_iff s).mp (by rw [hs, hempty]; rfl)
  rcases exec_cases he with ⟨c, -, rfl⟩ | ⟨-, rfl | ⟨op, rfl⟩ | ⟨op, rfl⟩⟩
  · exact hostSlotOk_raiseError _ _ hs
  · exact hs
  · show 1 + s.dpeHostReq.isSome.toNat + (lfsRunsFor s .host).toNat + (dpeRunsFor s .host).toNat = 1
    rw [hdpeReq, hlfs, hdpe]
    rfl
  · show s.lfsHostReq.isSome.toNat + 1 + (lfsRunsFor s .host).toNat + (dpeRunsFor s .host).toNat = 1
    rw [hlfsReq, hlfs, hdpe]
    rfl

theorem hostSlotOk_evdStep (p : Source) {s : State} (h : hostSlotOk s) : hostSlotOk (evdStep p s) := by
  obtain ⟨g, e, t, a, q, es, he⟩ := evdStep_eq p s
  rw [he]
  exact h

theorem hostSlotOk_envApply (e : EnvEvent) {s : State} (h : hostSlotOk s) : hostSlotOk (envApply e s) := by
  rcases envApply_cases e s with ⟨-, he⟩ | ⟨i, g, x, t, es, he, -⟩ <;> rw [he]
  · rfl
  · exact h

/-! ### The EVD's -/

/-- An LFS turn makes no request for the EVD, and may complete one. -/
theorem lfsStep_evdInFlight (s : State) : evdInFlight (lfsStep s) ≤ evdInFlight s ∧ (lfsStep s).evd = s.evd := by
  rcases lfsStep_cases s with ⟨-, -, -, e⟩ | ⟨op, hl, hq, e⟩ | ⟨op, hl, -, -, e⟩ | ⟨r, hr, e⟩ <;> rw [e]
  · exact ⟨le_rfl, rfl⟩
  · refine ⟨?_, rfl⟩
    show 0 + s.dpeEvdReq.isSome.toNat + 1 + (dpeRunsFor s .evd).toNat + (decide (s.tone = .waiting)).toNat ≤ _
    simp only [evdInFlight, hq, Option.isSome_some, Bool.toNat_true]
    omega
  · refine ⟨?_, rfl⟩
    show s.lfsEvdReq.isSome.toNat + s.dpeEvdReq.isSome.toNat + 0 + (dpeRunsFor s .evd).toNat +
      (decide (s.tone = .waiting)).toNat ≤ _
    simp only [evdInFlight]
    omega
  · rcases lfsMicro_cases r s with e | ⟨l, x, n, es, -, -, e | ⟨r', -, howner, e⟩⟩ <;> rw [e]
    · exact ⟨le_rfl, rfl⟩
    · obtain ⟨h, ec⟩ := complete_eq r.owner { s with lfs := none, lines := l, hwx := x, draws := n, hist := es }
      rw [ec]
      refine ⟨?_, rfl⟩
      show s.lfsEvdReq.isSome.toNat + s.dpeEvdReq.isSome.toNat + 0 + (dpeRunsFor s .evd).toNat +
        (decide (s.tone = .waiting)).toNat ≤ _
      simp only [evdInFlight]
      omega
    · refine ⟨le_of_eq ?_, rfl⟩
      show s.lfsEvdReq.isSome.toNat + s.dpeEvdReq.isSome.toNat + (decide (r'.owner = .evd)).toNat +
        (dpeRunsFor s .evd).toNat + (decide (s.tone = .waiting)).toNat = _
      simp only [evdInFlight, lfsRunsFor_of_some hr, howner]

/-- Nor does a DPE turn. -/
theorem dpeStep_evdInFlight (s : State) : evdInFlight (dpeStep s) ≤ evdInFlight s ∧ (dpeStep s).evd = s.evd := by
  rcases dpeStep_cases s with ⟨-, -, -, e⟩ | ⟨op, hl, hq, e⟩ | ⟨op, hl, -, -, e⟩ | ⟨r, hr, e⟩ <;> rw [e]
  · exact ⟨le_rfl, rfl⟩
  · refine ⟨?_, rfl⟩
    show s.lfsEvdReq.isSome.toNat + 0 + (lfsRunsFor s .evd).toNat + 1 + (decide (s.tone = .waiting)).toNat ≤ _
    simp only [evdInFlight, hq, Option.isSome_some, Bool.toNat_true]
    omega
  · refine ⟨?_, rfl⟩
    show s.lfsEvdReq.isSome.toNat + s.dpeEvdReq.isSome.toNat + (lfsRunsFor s .evd).toNat + 0 +
      (decide (s.tone = .waiting)).toNat ≤ _
    simp only [evdInFlight]
    omega
  · obtain ⟨l, g, es, e | ⟨r', howner, e⟩⟩ := dpeMicro_ends_or_goes_on r s <;> rw [e]
    · obtain ⟨h, ec⟩ := complete_eq r.owner { s with dpe := none, lines := l, regs := g, hist := es }
      rw [ec]
      refine ⟨?_, rfl⟩
      show s.lfsEvdReq.isSome.toNat + s.dpeEvdReq.isSome.toNat + (lfsRunsFor s .evd).toNat + 0 +
        (decide (s.tone = .waiting)).toNat ≤ _
      simp only [evdInFlight]
      omega
    · refine ⟨le_of_eq ?_, rfl⟩
      show s.lfsEvdReq.isSome.toNat + s.dpeEvdReq.isSome.toNat + (lfsRunsFor s .evd).toNat +
        (decide (r'.owner = .evd)).toNat + (decide (s.tone = .waiting)).toNat = _
      simp only [evdInFlight, dpeRunsFor_of_some hr, howner]

/-- Fewer requests of the same EVD are still at most one, and none while it is idle. -/
theorem evdRequestsOk_of_le {s u : State} (hs : evdRequestsOk s) (hn : evdInFlight u ≤ evdInFlight s)
    (he : u.evd = s.evd) : evdRequestsOk u := by
  obtain ⟨hle, hidle⟩ := hs
  refine ⟨hn.trans hle, fun h => ?_⟩
  rw [he] at h
  have := hidle h
  omega

theorem evd_idle_of_evdAct {e : Evd} (h : evdAct e = false) : e = .idle := by
  cases e with
  | idle => rfl
  | sensor _ => cases h
  | timer _ => cases h

theorem evdRequestsOk_raiseError (c : ErrCode) (w : Word) {s : State} (h : evdRequestsOk s) :
    evdRequestsOk (raiseError c w s) := by
  rcases raiseError_cases c w s with ⟨-, e⟩ | ⟨-, e⟩ <;> rw [e] <;> exact h

/-- A handler's step comes with nothing outstanding, makes at most one request, and none when it ends. -/
theorem evdRequestsOk_sensorStep {s : State} {r : SensorRun} (hr : s.evd = .sensor r) (hb : evdBlocked s = false) :
    evdRequestsOk (sensorStep r s) := by
  obtain ⟨hlfsReq, hdpeReq, hlfs, hdpe, htone⟩ := (evdBlocked_false_iff s).mp hb
  obtain ⟨g, e, t, q, es, h, hgo, hend, hreq⟩ := sensorStep_eq hr
  have hn : evdInFlight (sensorStep r s) = q.isSome.toNat + (decide (t = .waiting)).toNat := by
    rw [h]
    show s.lfsEvdReq.isSome.toNat + q.isSome.toNat + (lfsRunsFor s .evd).toNat + (dpeRunsFor s .evd).toNat + _ = _
    rw [hlfsReq, hlfs, hdpe]
    simp
  unfold evdRequestsOk
  rw [hn, h]
  constructor
  · rcases hreq with ⟨rfl, rfl⟩ | ⟨rfl, rfl⟩ | ⟨rfl, hq⟩
    · simp [htone, hdpeReq]
    · simp [hdpeReq]
    · simp [htone, hq]
  · intro hact
    obtain ⟨rfl, rfl, -⟩ := hend (evd_idle_of_evdAct hact)
    simp [htone, hdpeReq]

theorem evdRequestsOk_timerStep (r : TimerRun) {s : State} (hb : evdBlocked s = false) :
    evdRequestsOk (timerStep r s) := by
  obtain ⟨hlfsReq, hdpeReq, hlfs, hdpe, htone⟩ := (evdBlocked_false_iff s).mp hb
  obtain ⟨g, e, a, q, h, hgo, hend, hreq⟩ := timerStep_eq r s
  have hn : evdInFlight (timerStep r s) = a.isSome.toNat + q.isSome.toNat := by
    rw [h]
    show a.isSome.toNat + q.isSome.toNat + (lfsRunsFor s .evd).toNat + (dpeRunsFor s .evd).toNat +
      (decide (s.tone = .waiting)).toNat = _
    rw [hlfs, hdpe, htone]
    rfl
  unfold evdRequestsOk
  rw [hn, h]
  constructor
  · rcases hreq with ⟨rfl, rfl⟩ | ⟨ha, rfl⟩ | ⟨rfl, hq⟩
    · simp [hlfsReq, hdpeReq]
    · simp [ha, hdpeReq]
    · simp [hlfsReq, hq]
  · intro hact
    obtain ⟨rfl, rfl, -⟩ := hend (evd_idle_of_evdAct hact)
    simp [hlfsReq, hdpeReq]

theorem evdRequestsOk_evdStep (p : Source) {s : State} (h : evdRequestsOk s) : evdRequestsOk (evdStep p s) := by
  rcases evdStep_cases p s with e | ⟨x, -, -, e⟩ | ⟨r, hr, hb, e⟩ | ⟨r, -, hb, e⟩ <;> rw [e]
  · exact h
  · exact ⟨h.1, fun hidle => by cases x <;> cases hidle⟩
  · exact evdRequestsOk_sensorStep hr hb
  · exact evdRequestsOk_timerStep r hb

/-- ENV makes no request: ToneDone completes one, and a reset drops them all. -/
theorem evdRequestsOk_envApply (e : EnvEvent) {s : State} (h : evdRequestsOk s) : evdRequestsOk (envApply e s) := by
  rcases envApply_cases e s with ⟨-, he⟩ | ⟨i, g, x, t, es, he, -, -, ht⟩ <;> rw [he]
  · exact ⟨Nat.zero_le 1, fun _ => rfl⟩
  · refine evdRequestsOk_of_le h (Nat.add_le_add_left ?_ _) rfl
    rcases ht with rfl | rfl
    · exact le_rfl
    · exact Nat.zero_le _

theorem evdRequestsOk_exec {i : Instr} {s t : State} (he : exec i s = .next t) (h : evdRequestsOk s) :
    evdRequestsOk t := by
  rcases exec_cases he with ⟨c, -, rfl⟩ | ⟨-, rfl | ⟨op, rfl⟩ | ⟨op, rfl⟩⟩
  · exact evdRequestsOk_raiseError _ _ h
  all_goals exact h

end Sys2Proof.Machine
end

section
/-! SUPPORT. The hand-off to the hardware unit and the wait for it (40_led_serializer.md R144, R148). -/

namespace Sys2Proof.Machine

open Sys2Proof

/-- Micro-steps without a hand-off put before others change nothing of the rule for hand-offs. -/
theorem handOverLast_append {a : List LfsAct} (ha : ∀ n, LfsAct.handOver n ∉ a) (b : List LfsAct) :
    handOverLast (a ++ b) ↔ handOverLast b := by
  induction a with
  | nil => exact Iff.rfl
  | cons x xs ih =>
    have hxs := ih fun n hn => ha n (List.mem_cons_of_mem x hn)
    cases x with
    | handOver n => exact absurd List.mem_cons_self (ha n)
    | _ => exact hxs

theorem handOver_notMem_ledByteActs (n : Nat) (bytes : List Byte) :
    LfsAct.handOver n ∉ bytes.flatMap ledByteActs := by
  simp [ledByteActs, ledBitActs]

/-- The one hand-off of an operation is followed by its wait, the operation's last micro-step. -/
theorem handOverLast_lfsActs (op : LfsOp) : handOverLast (lfsActs op) := by
  have frame : ∀ p n, handOverLast (frameActs p n) := by
    intro p n
    cases p with
    | hardware =>
      refine (handOverLast_append (a := (List.range n.toNat).map .packPixel) (fun _ => by simp) _).mpr ?_
      rfl
    | software =>
      rw [frameActs, frameActsSw, ← List.append_nil (_ ++ _ ++ _)]
      refine (handOverLast_append (fun k => ?_) []).mpr trivial
      simp [handOver_notMem_ledByteActs, -List.mem_flatMap]
  cases op with
  | init => trivial
  | tx p n => exact frame p n
  | fill p n c => exact frame p n

/-- Going on with micro-steps that keep the rule, the hand-off not waiting or waited for next, keeps the invariant. -/
theorem hwxOk_lfsAdvance (r : LfsRun) {rest : List LfsAct} {s : State} (hrest : handOverLast rest)
    (hwait : s.hwx = .waiting → rest = [.awaitDone]) : hwxOk (lfsAdvance r rest s) := by
  rcases lfsAdvance_cases r rest s with ⟨hnil, e⟩ | ⟨-, e⟩
  · obtain ⟨h, ec⟩ := complete_eq r.owner { s with lfs := none }
    rw [e, ec]
    refine ⟨nofun, fun hw => ?_⟩
    rw [hnil] at hwait
    cases hwait hw
  · rw [e]
    refine ⟨fun q hq => ?_, fun hw => ⟨_, rfl, hwait hw⟩⟩
    cases hq
    exact hrest

/-- A start finds no hand-off waiting: none waits while the LFS is idle. -/
theorem hwxOk_lfsStart (op : LfsOp) (o : Requester) {s : State} (hl : s.lfs = none) (h : hwxOk s) :
    hwxOk (lfsStart op o s) := by
  rw [lfsStart_eq]
  refine hwxOk_lfsAdvance _ (handOverLast_lfsActs op) fun hw => ?_
  obtain ⟨r, hr, -⟩ := h.2 hw
  rw [hl] at hr
  cases hr

theorem hwxOk_lfsMicro {r : LfsRun} {s : State} (hr : s.lfs = some r) (h : hwxOk s) : hwxOk (lfsMicro r s) := by
  have htodo : handOverLast r.todo := h.1 r hr
  have hwait : s.hwx = .waiting → r.todo = [.awaitDone] := by
    intro hw
    obtain ⟨q, hq, hqt⟩ := h.2 hw
    rw [hr] at hq
    cases hq
    exact hqt
  unfold lfsMicro
  split <;> rename_i ht <;> rw [ht] at htodo hwait
  case h_1 => exact hwxOk_lfsAdvance r (rest := []) trivial fun hw => nomatch hwait hw
  case h_2 => exact hwxOk_lfsAdvance r htodo fun hw => nomatch hwait hw
  case h_3 => exact hwxOk_lfsAdvance r htodo fun hw => nomatch hwait hw
  case h_4 => exact hwxOk_lfsAdvance r htodo fun hw => nomatch hwait hw
  case h_5 i rest => -- a pixel is taken: its bytes' micro-steps come first
    refine hwxOk_lfsAdvance r ((handOverLast_append (fun n => handOver_notMem_ledByteActs n _) rest).mpr htodo) ?_
    rw [afterSrcRead_eq]
    exact fun hw => nomatch hwait hw
  case h_6 i rest =>
    refine hwxOk_lfsAdvance _ htodo ?_
    rw [afterSrcRead_eq]
    exact fun hw => nomatch hwait hw
  case h_7 n rest => -- the hand-off: what is left is its wait
    cases htodo
    exact hwxOk_lfsAdvance _ trivial fun _ => rfl
  case h_8 rest => -- the wait
    split
    · rename_i hidle
      exact hwxOk_lfsAdvance r htodo fun hw => nomatch hidle.symm.trans hw
    · exact h

theorem hwxOk_lfsStep {s : State} (h : hwxOk s) : hwxOk (lfsStep s) := by
  rcases lfsStep_cases s with ⟨-, -, -, e⟩ | ⟨op, hl, -, e⟩ | ⟨op, hl, -, -, e⟩ | ⟨r, hr, e⟩ <;> rw [e]
  · exact h
  · exact hwxOk_lfsStart op .evd (s := { s with lfsEvdReq := none }) hl h
  · exact hwxOk_lfsStart op .host (s := { s with lfsHostReq := none }) hl h
  · exact hwxOk_lfsMicro hr h

theorem hwxOk_dpeStep {s : State} (h : hwxOk s) : hwxOk (dpeStep s) := by
  obtain ⟨l, g, es, hs, a, b, r, e, -⟩ := dpeStep_frame s
  rw [e]
  exact h

theorem hwxOk_evdStep (p : Source) {s : State} (h : hwxOk s) : hwxOk (evdStep p s) := by
  obtain ⟨g, e, t, a, q, es, he⟩ := evdStep_eq p s
  rw [he]
  exact h

theorem hwxOk_raiseError (c : ErrCode) (w : Word) {s : State} (h : hwxOk s) : hwxOk (raiseError c w s) := by
  rcases raiseError_cases c w s with ⟨-, e⟩ | ⟨-, e⟩ <;> rw [e] <;> exact h

theorem hwxOk_exec {i : Instr} {s t : State} (he : exec i s = .next t) (h : hwxOk s) : hwxOk t := by
  rcases exec_cases he with ⟨c, -, rfl⟩ | ⟨-, rfl | ⟨op, rfl⟩ | ⟨op, rfl⟩⟩
  · exact hwxOk_raiseError _ _ h
  all_goals exact h

/-- ENV starts no hand-off: HwDone completes one, and a reset drops it with its operation. -/
theorem hwxOk_envApply (e : EnvEvent) {s : State} (h : hwxOk s) : hwxOk (envApply e s) := by
  rcases envApply_cases e s with ⟨-, he⟩ | ⟨i, g, x, t, es, he, -, rfl | rfl, -⟩ <;> rw [he]
  · exact ⟨nofun, nofun⟩
  · exact h
  · exact ⟨h.1, nofun⟩

end Sys2Proof.Machine
end

section
/-! SUPPORT. The pixel words, STATUS and the digit table at their addresses, and the acceptance of a command. -/

namespace Sys2Proof.Machine

open Sys2Proof

/-- The offset of pixel word `i` is aligned and is that word's (20_memory.md R81). -/
theorem targetOf_pixAddr {i : Nat} (h : i < 1024) :
    misaligned (BitVec.ofNat 16 (0x1000 + 4 * i)) = false ∧ targetOf (BitVec.ofNat 16 (0x1000 + 4 * i)) = .pixel i := by
  have hn : (BitVec.ofNat 16 (0x1000 + 4 * i)).toNat = 0x1000 + 4 * i := by
    rw [BitVec.toNat_ofNat]
    omega
  constructor
  · have : (BitVec.ofNat 16 (0x1000 + 4 * i)).extractLsb' 0 2 = 0#2 := by
      apply BitVec.eq_of_toNat_eq
      rw [BitVec.extractLsb'_toNat, hn]
      simp
    simp [misaligned, this]
  · unfold targetOf
    rw [hn]
    split
    case h_27 =>
      rw [if_pos (by omega)]
      congr 1
      omega
    all_goals omega

/-- A host's 1 in IRQ_PEND clears its bit (10_state.md R33). -/
theorem pending_writeReg_irqPend (v : Word) (s : State) (x : Source) :
    pending (writeReg .irqPend v s).regs x = (pending s.regs x && !v.getLsbD (sourceNum x)) := by
  simp only [pending, writeReg, writeOneClear]
  rcases x with ⟨_ | _⟩ | _ <;> simp [sourceNum]

/-! ### STATUS (10_state.md R34) -/

theorem statusWord_reserved (s : State) : statusWord s &&& 0xFFFE0EC0#32 = 0#32 := by
  unfold statusWord
  generalize errNum s.regs.errCode = c, evdSrc s.evd = e
  apply BitVec.eq_of_getLsbD_eq
  intro i hi
  simp only [BitVec.getLsbD_and, BitVec.getLsbD_append]
  interval_cases i <;> simp

/-- The flags of STATUS: HBUSY, LFS_BUSY, DPE_BUSY, EVD_ACT, ERR and DNACK. -/
theorem statusWord_flags (s : State) :
    (statusWord s).getLsbD 0 = s.hostSlot.isSome ∧ (statusWord s).getLsbD 1 = s.lfs.isSome ∧
      (statusWord s).getLsbD 2 = s.dpe.isSome ∧ (statusWord s).getLsbD 3 = evdAct s.evd ∧
      (statusWord s).getLsbD 8 = s.regs.err ∧ (statusWord s).getLsbD 16 = s.regs.dnack := by
  simp only [statusWord, BitVec.getLsbD_append]
  simp [hbusy]

theorem statusWord_evdSrc (s : State) : (statusWord s).extractLsb' 4 2 = evdSrc s.evd := by
  unfold statusWord
  ext i hi
  simp only [BitVec.getElem_extractLsb', BitVec.getLsbD_append]
  interval_cases i <;> simp

theorem statusWord_errCode (s : State) : (statusWord s).extractLsb' 12 4 = errNum s.regs.errCode := by
  unfold statusWord
  ext i hi
  simp only [BitVec.getElem_extractLsb', BitVec.getLsbD_append]
  interval_cases i <;> simp

/-- A word whose reserved bits are 0 is all in its fields. -/
theorem and_eq_self_of_reserved {a m : Word} (h : a &&& ~~~m = 0#32) : a &&& m = a :=
  calc a &&& m = a &&& m ||| a &&& ~~~m := by rw [h, BitVec.or_zero]
    _ = a := by rw [← BitVec.and_or_distrib_left, BitVec.or_not_self, BitVec.and_allOnes]

/-- A read of STATUS shows the whole word: its mask leaves out reserved bits only. -/
theorem memReadValue_status (s : State) : memReadValue 0x00C#16 s = statusWord s := by
  exact and_eq_self_of_reserved (statusWord_reserved s)

theorem evdAct_iff (e : Evd) : evdAct e = true ↔ e ≠ .idle := by
  cases e <;> simp [evdAct]

/-- Byte `b` of SEGROM<j> is entry 4j + b of the digit table (10_state.md R49). -/
theorem segromWord_byte (rom : Vector Byte 19) (j : Fin 5) {b : Nat} (hb : b < 4) :
    (segromWord rom j).extractLsb' (8 * b) 8 = seg rom (4 * j.val + b) := by
  obtain ⟨h0, h1, h2, h3⟩ := byteOf_wordOf (seg rom (4 * j.val)) (seg rom (4 * j.val + 1)) (seg rom (4 * j.val + 2))
    (seg rom (4 * j.val + 3))
  interval_cases b
  · exact h0
  · exact h1
  · exact h2
  · exact h3

theorem seg_of_lt (rom : Vector Byte 19) {k : Nat} (h : k < 19) : seg rom k = rom[k] := dif_pos h

/-! ### Acceptance (60_exceptions.md R263) -/

/-- With the host slot empty a well-formed command changes the CMD read view, and every one but NOP fills the host slot
and a request slot. -/
theorem exec_of_empty {i : Instr} (hw : i.wellFormed = true) {s : State} (hs : s.hostSlot = none) :
    (i = .nop ∧ exec i s = .next { s with regs := { s.regs with cmd := encode i } }) ∨
      (i ≠ .nop ∧
        ((∃ op, exec i s = .next (queueLfs (encode i) op { s with regs := { s.regs with cmd := encode i } })) ∨
          ∃ op, exec i s = .next (queueDpe (encode i) op { s with regs := { s.regs with cmd := encode i } }))) := by
  have accept : ∀ acc : State → State, submitCommand i s acc = acc { s with regs := { s.regs with cmd := encode i } } := by
    intro acc
    simp [submitCommand, hs, (rangeError_none_iff i).mpr hw]
  have chan : ∀ (ch : BitVec 2) (w : Word) (op : Chan → DpeOp) (u : State), ch ≠ 3#2 →
      ∃ o, queueOnChan ch w op u = queueDpe w o u := by
    intro ch w op u hch
    obtain ⟨k, hk⟩ := chanOf_of_ne hch
    exact ⟨op k, by simp [queueOnChan, hk]⟩
  cases i with
  | nop => exact .inl ⟨rfl, congrArg _ (accept id)⟩
  | ledInit => exact .inr ⟨nofun, .inl ⟨_, congrArg _ (accept _)⟩⟩
  | ledTx p n => exact .inr ⟨nofun, .inl ⟨_, congrArg _ (accept _)⟩⟩
  | ledFill p n => exact .inr ⟨nofun, .inl ⟨_, congrArg _ (accept _)⟩⟩
  | dspSegs ch a l c =>
    have hch : ch ≠ 3#2 := by
      rintro rfl
      simp [Instr.wellFormed] at hw
    obtain ⟨o, ho⟩ := chan ch _ _ _ hch
    exact .inr ⟨nofun, .inr ⟨o, congrArg _ ((accept _).trans ho)⟩⟩
  | dspNum ch =>
    obtain ⟨o, ho⟩ := chan ch _ _ _ (by simpa [Instr.wellFormed] using hw)
    exact .inr ⟨nofun, .inr ⟨o, congrArg _ ((accept _).trans ho)⟩⟩
  | dspClock ch c =>
    obtain ⟨o, ho⟩ := chan ch _ _ _ (by simpa [Instr.wellFormed] using hw)
    exact .inr ⟨nofun, .inr ⟨o, congrArg _ ((accept _).trans ho)⟩⟩

end Sys2Proof.Machine
end

section
/-! SUPPORT. What the engines read and write of the registers and the request slots (10_state.md R72, R74, R95). -/

namespace Sys2Proof.Machine

open Sys2Proof

/-! ### Starts -/

theorem lfsStep_evdReq {s : State} {op : LfsOp} (h1 : s.lfs = none) (h2 : s.lfsEvdReq = some op) :
    lfsStep s = lfsStart op .evd { s with lfsEvdReq := none } := by
  simp only [lfsStep, h1, h2]

theorem lfsStep_hostReq {s : State} {op : LfsOp} (h1 : s.lfs = none) (h2 : s.lfsEvdReq = none)
    (h3 : s.lfsHostReq = some op) : lfsStep s = lfsStart op .host { s with lfsHostReq := none } := by
  simp only [lfsStep, h1, h2, h3]

theorem dpeStep_evdReq {s : State} {op : DpeOp} (h1 : s.dpe = none) (h2 : s.dpeEvdReq = some op) :
    dpeStep s = dpeStart op .evd { s with dpeEvdReq := none } := by
  simp only [dpeStep, h1, h2]

theorem dpeStep_hostReq {s : State} {op : DpeOp} (h1 : s.dpe = none) (h2 : s.dpeEvdReq = none)
    (h3 : s.dpeHostReq = some op) : dpeStep s = dpeStart op .host { s with dpeHostReq := none } := by
  simp only [dpeStep, h1, h2, h3]

theorem dpeStep_busy {s : State} {r : DpeRun} (h : s.dpe = some r) : dpeStep s = dpeMicro r s := by
  simp only [dpeStep, h]

/-! ### A busy engine -/

theorem lfsAdvance_frame (r : LfsRun) (rest : List LfsAct) (s : State) (g : Regs) (x y : Option LfsOp) :
    lfsAdvance r rest { s with regs := g, lfsEvdReq := x, lfsHostReq := y } =
      { lfsAdvance r rest s with regs := g, lfsEvdReq := x, lfsHostReq := y } := by
  cases rest with
  | cons a as => rfl
  | nil => cases h : r.owner <;> simp only [lfsAdvance, complete, h]

/-- A pixel read looks at no register and no slot. -/
theorem afterSrcRead_frame (src : PixSrc) (i : Nat) (s : State) (g : Regs) (x y : Option LfsOp) :
    afterSrcRead src i { s with regs := g, lfsEvdReq := x, lfsHostReq := y } =
      { afterSrcRead src i s with regs := g, lfsEvdReq := x, lfsHostReq := y } := by
  cases src with
  | fill w => rfl
  | ram =>
    simp only [afterSrcRead, afterPixRead]
    split <;> rfl

theorem srcWord_frame (src : PixSrc) (i : Nat) (s : State) (g : Regs) (x y : Option LfsOp) :
    srcWord src i { s with regs := g, lfsEvdReq := x, lfsHostReq := y } = srcWord src i s := by
  cases src <;> rfl

/-- A micro-step of the LFS neither looks at the registers and the LFS's request slots nor writes them. -/
theorem lfsMicro_frame (r : LfsRun) (s : State) (g : Regs) (x y : Option LfsOp) :
    lfsMicro r { s with regs := g, lfsEvdReq := x, lfsHostReq := y } =
      { lfsMicro r s with regs := g, lfsEvdReq := x, lfsHostReq := y } := by
  unfold lfsMicro
  split
  case h_1 => exact lfsAdvance_frame r [] s g x y
  case h_2 => exact lfsAdvance_frame r _ (driveLed _ _ s) g x y
  case h_3 => exact lfsAdvance_frame r _ (enableLed _ s) g x y
  case h_4 => exact lfsAdvance_frame r _ (holdFor _ _ s) g x y
  case h_5 => rw [afterSrcRead_frame, srcWord_frame, lfsAdvance_frame]
  case h_6 => rw [afterSrcRead_frame, srcWord_frame, lfsAdvance_frame]
  case h_7 => exact lfsAdvance_frame _ _ (({ s with hwx := .waiting }).emit _) g x y
  case h_8 =>
    dsimp only
    split
    · exact lfsAdvance_frame r _ s g x y
    · rfl

theorem lfsMicro_keeps (r : LfsRun) (s : State) : (lfsMicro r s).regs = s.regs ∧
    (lfsMicro r s).lfsEvdReq = s.lfsEvdReq ∧ (lfsMicro r s).lfsHostReq = s.lfsHostReq :=
  have own : lfsMicro r s =
      { lfsMicro r s with regs := s.regs, lfsEvdReq := s.lfsEvdReq, lfsHostReq := s.lfsHostReq } :=
    lfsMicro_frame r s s.regs s.lfsEvdReq s.lfsHostReq
  ⟨by rw [own], by rw [own], by rw [own]⟩

theorem dpeAdvance_frame (r : DpeRun) (rest : List DpeAct) (s : State) (g : Regs) (x y : Option DpeOp) :
    dpeAdvance r rest { s with regs := g, dpeEvdReq := x, dpeHostReq := y } =
      { dpeAdvance r rest s with regs := g, dpeEvdReq := x, dpeHostReq := y } := by
  cases rest with
  | cons a as => rfl
  | nil => cases h : r.owner <;> simp only [dpeAdvance, complete, h]

theorem dpeAdvance_regs (r : DpeRun) (rest : List DpeAct) (s : State) : (dpeAdvance r rest s).regs = s.regs := by
  cases rest with
  | cons a as => rfl
  | nil => cases h : r.owner <;> simp only [dpeAdvance, complete, h]

/-- A micro-step of the DPE writes DACK and DNACK at the record and looks at no register and no request slot: it commutes
with every change `f` of the registers that the record commutes with. -/
theorem dpeMicro_frame (r : DpeRun) (s : State) {f : Regs → Regs} (x y : Option DpeOp)
    (hf : ∀ g acks k, recordAcks (f g) acks k = f (recordAcks g acks k)) :
    dpeMicro r { s with regs := f s.regs, dpeEvdReq := x, dpeHostReq := y } =
      { dpeMicro r s with regs := f (dpeMicro r s).regs, dpeEvdReq := x, dpeHostReq := y } := by
  have adv : ∀ (q : DpeRun) (rest : List DpeAct) (u : State),
      dpeAdvance q rest { u with regs := f u.regs, dpeEvdReq := x, dpeHostReq := y } =
        { dpeAdvance q rest u with regs := f (dpeAdvance q rest u).regs, dpeEvdReq := x, dpeHostReq := y } := by
    intro q rest u
    rw [dpeAdvance_frame, dpeAdvance_regs]
  unfold dpeMicro
  split
  case h_1 => exact adv r [] s
  case h_2 => exact adv r _ (pullLow (.dclk r.chan) s)
  case h_3 => exact adv r _ (pullLow (.ddio r.chan) s)
  case h_4 => exact adv r _ (release (.dclk r.chan) s)
  case h_5 => exact adv r _ (release (.ddio r.chan) s)
  case h_6 => exact adv r _ (holdFor _ _ s)
  case h_7 => exact adv _ _ (s.emit _)
  case h_8 rest _ =>
    dsimp only
    rw [hf]
    exact adv r rest { s with regs := recordAcks s.regs r.acks r.chan }
  case h_9 => exact adv r _ s

theorem dpeMicro_keeps (r : DpeRun) (s : State) :
    (dpeMicro r s).dpeEvdReq = s.dpeEvdReq ∧ (dpeMicro r s).dpeHostReq = s.dpeHostReq :=
  have own : dpeMicro r s = { dpeMicro r s with dpeEvdReq := s.dpeEvdReq, dpeHostReq := s.dpeHostReq } :=
    dpeMicro_frame r s (f := id) s.dpeEvdReq s.dpeHostReq fun _ _ _ => rfl
  ⟨by rw [own], by rw [own]⟩

theorem lfsStep_regs (s : State) : (lfsStep s).regs = s.regs := by
  obtain ⟨l, x, n, es, hs, a, b, r, h, -⟩ := lfsStep_frame s
  rw [h]

/-! ### A turn with other registers -/

theorem lfsStart_withRegs (op : LfsOp) (o : Requester) (s : State) {g : Regs} (h : defBri g = defBri s.regs) :
    lfsStart op o { s with regs := g } = { lfsStart op o s with regs := g } := by
  rw [lfsStart, lfsStart]
  cases op <;> simp only [lfsSrc, h]

/-- An LFS turn is the same with other registers, unless it starts an operation and DEFBRI is another. -/
theorem lfsStep_withRegs (s : State) {g : Regs} (h : s.lfs = none → defBri g = defBri s.regs) :
    lfsStep { s with regs := g } = { lfsStep s with regs := g } := by
  rcases lfsStep_cases s with ⟨hl, he, hh, e⟩ | ⟨op, hl, he, e⟩ | ⟨op, hl, he, hh, e⟩ | ⟨r, hl, e⟩ <;> rw [e]
  · simp only [lfsStep, hl, he, hh]
  · rw [lfsStep_evdReq (s := { s with regs := g }) hl he]
    exact lfsStart_withRegs op .evd { s with lfsEvdReq := none } (h hl)
  · rw [lfsStep_hostReq (s := { s with regs := g }) hl he hh]
    exact lfsStart_withRegs op .host { s with lfsHostReq := none } (h hl)
  · obtain ⟨-, hevdReq, hhostReq⟩ := lfsMicro_keeps r s
    rw [lfsStep_busy (s := { s with regs := g }) hl]
    exact (lfsMicro_frame r s g s.lfsEvdReq s.lfsHostReq).trans (by simp only [hevdReq, hhostReq])

theorem dpeStart_withRegs (op : DpeOp) (o : Requester) (s : State) {g : Regs} (h : g.dcfg = s.regs.dcfg) :
    dpeStart op o { s with regs := g } = { dpeStart op o s with regs := g } := by
  simp only [dpeStart, bitDlyOf, nibbleOf, h]

/-- A DPE turn commutes with a change of registers other than DACK and DNACK, unless it starts an operation and DCFG
changes. -/
theorem dpeStep_mapRegs (s : State) {f : Regs → Regs}
    (hf : ∀ g acks k, recordAcks (f g) acks k = f (recordAcks g acks k))
    (h : s.dpe = none → (f s.regs).dcfg = s.regs.dcfg) :
    dpeStep { s with regs := f s.regs } = { dpeStep s with regs := f (dpeStep s).regs } := by
  rcases dpeStep_cases s with ⟨hl, he, hh, e⟩ | ⟨op, hl, he, e⟩ | ⟨op, hl, he, hh, e⟩ | ⟨r, hl, e⟩ <;> rw [e]
  · simp only [dpeStep, hl, he, hh]
  · rw [dpeStep_evdReq (s := { s with regs := f s.regs }) hl he]
    exact dpeStart_withRegs op .evd { s with dpeEvdReq := none } (h hl)
  · rw [dpeStep_hostReq (s := { s with regs := f s.regs }) hl he hh]
    exact dpeStart_withRegs op .host { s with dpeHostReq := none } (h hl)
  · obtain ⟨hevdReq, hhostReq⟩ := dpeMicro_keeps r s
    rw [dpeStep_busy (s := { s with regs := f s.regs }) hl]
    exact (dpeMicro_frame r s s.dpeEvdReq s.dpeHostReq hf).trans (by simp only [hevdReq, hhostReq])

end Sys2Proof.Machine
end

section
/-! SUPPORT. The waits of the EVD for its requests (10_state.md R72), and the colours of the strips. -/

namespace Sys2Proof.Machine

open Sys2Proof

/-- A handler waits while its request of the LFS is in its slot, and while the LFS runs it. -/
theorem evdStep_waits_lfs {p : Source} {u : State} {op : LfsOp} (he : u.evd ≠ .idle) (hq : u.lfsEvdReq = some op) :
    evdStep p u = u ∧ ∀ q : LfsRun, q.owner = .evd →
      evdStep p { u with lfsEvdReq := none, lfs := some q } = { u with lfsEvdReq := none, lfs := some q } :=
  ⟨evdStep_blocked he (evdBlocked_of_lfsEvdReq hq), fun _ ho => evdStep_blocked he (evdBlocked_of_lfsRun rfl ho)⟩

/-- And likewise for its request of the DPE. -/
theorem evdStep_waits_dpe {p : Source} {u : State} {op : DpeOp} (he : u.evd ≠ .idle) (hq : u.dpeEvdReq = some op) :
    evdStep p u = u ∧ ∀ q : DpeRun, q.owner = .evd →
      evdStep p { u with dpeEvdReq := none, dpe := some q } = { u with dpeEvdReq := none, dpe := some q } :=
  ⟨evdStep_blocked he (evdBlocked_of_dpeEvdReq hq), fun _ ho => evdStep_blocked he (evdBlocked_of_dpeRun rfl ho)⟩

/-- The colours of the strips, written out (42_event_dispatcher.md R238). -/
theorem stripColors_eq (r : Regs) : stripColors r =
    (if r.team.getLsbD 0 then r.color2 else r.color1, if r.team.getLsbD 0 then r.color1 else r.color2) := by
  unfold stripColors teamOf
  cases r.team.getLsbD 0 <;> rfl

end Sys2Proof.Machine
end

section
/-! SUPPORT. What reads right after reset, and the invariants there (10_state.md R76). -/

namespace Sys2Proof.Machine

open Sys2Proof

/-- A pixel word reads with the header marker, whatever its other bits (20_memory.md R92). -/
theorem withHeader_header (hdr : BitVec 3) (w : Word) : (withHeader hdr w).extractLsb' 5 3 = hdr := by
  ext i hi
  simp only [withHeader, BitVec.getElem_extractLsb', BitVec.getLsbD_append]
  interval_cases i <;> simp

/-- LEDCFG right after reset: DEFBRI and S2PORT (10_state.md R46, R76). -/
theorem ledcfg_reset (b : BitVec 5) :
    (0#3 ++ b ++ 0x020000#24 : Word) &&& 0x1F0303FF#32 = (b.setWidth 32 <<< 24) ||| 0x00020000#32 := by
  revert b
  decide

theorem statusWord_reset (p : Params) (i : Inputs) : statusWord (State.resetWith p i) = 0#32 := by
  simp [statusWord, State.resetWith, Regs.reset, hbusy, errNum, evdSrc, evdSource, evdAct]

theorem team_reset : 0x00000002#32 &&& 0x00000003#32 = 0x00000002#32 := by decide

theorem busOk_resetWith (p : Params) (i : Inputs) : busOk (State.resetWith p i) := by
  intro k
  cases k <;> rfl

/-- Nothing is requested, runs or waits right after reset. -/
theorem inv_resetWith (p : Params) (i : Inputs) : Inv (State.resetWith p i) :=
  ⟨(registersOk_reset p i.tick).1, (registersOk_reset p i.tick).2, ⟨memory_wf_nil, nofun⟩, rfl,
    ⟨Nat.zero_le 1, fun _ => rfl⟩, ⟨nofun, nofun⟩, busOk_resetWith p i, nofun⟩

end Sys2Proof.Machine
end

section
/-! SUPPORT. The end of a turn outside reset: an observation, then each event with an observation after it, and what that
makes of the pending bits (60_exceptions.md R270, R271). -/

namespace Sys2Proof.Machine

open Sys2Proof

/-! ### One event of ENV -/

theorem envApply_prev {e : EnvEvent} (he : e ≠ .rst true) (s : State) : (envApply e s).prev = s.prev := by
  rcases envApply_cases e s with ⟨h, -⟩ | ⟨i, g, x, t, es, h, -⟩
  · exact absurd h he
  · rw [h]

/-- ENV's events but an assertion of RST leave RST deasserted. -/
theorem envApply_rst {e : EnvEvent} (he : e ≠ .rst true) {s : State} (hr : s.env.rst = false) :
    (envApply e s).env.rst = false := by
  cases e with
  | tick ms => exact hr
  | sensor h lvl => exact hr
  | display k pull => exact hr
  | timerPulse => simp [envApply, hr, timerPulse]
  | hwDone => cases h : s.hwx <;> simp [envApply, hwDone, h, hr]
  | toneDone => cases h : s.tone <;> simp [envApply, toneDone, h, hr]
  | rst b =>
    cases b with
    | true => exact absurd rfl he
    | false => simp [envApply, releaseReset, hr]

theorem hoop_bit_injective {h k : Hoop} (hb : h.bit = k.bit) : h = k := by
  cases h <;> cases k <;> simp [Hoop.bit] at hb ⊢

/-- A sensor line keeps its level unless ENV sets it. -/
theorem envApply_sens {e : EnvEvent} {h : Hoop} (he : e ≠ .rst true) (hs : ∀ lvl, e ≠ .sensor h lvl) (s : State) :
    (envApply e s).env.sens.get h.bit = s.env.sens.get h.bit := by
  cases e with
  | tick ms => rfl
  | display k pull => rfl
  | sensor k lvl =>
    have hk : k ≠ h := fun hk => hs lvl (by rw [hk])
    exact two_get_set_ne _ (fun hb => hk (hoop_bit_injective hb)) _
  | timerPulse =>
    simp only [envApply]
    split <;> rfl
  | hwDone => cases hx : s.hwx <;> simp only [envApply, hwDone, hx] <;> split <;> rfl
  | toneDone => cases hx : s.tone <;> simp only [envApply, toneDone, hx] <;> split <;> rfl
  | rst b =>
    cases b with
    | true => exact absurd rfl he
    | false =>
      simp only [envApply, releaseReset]
      split <;> rfl

/-- No event of ENV touches the pending bit of a sensor but an assertion of RST. -/
theorem pending_envApply_sensor {e : EnvEvent} (he : e ≠ .rst true) (h : Hoop) (s : State) :
    pending (envApply e s).regs (.sensor h) = pending s.regs (.sensor h) := by
  rcases envApply_cases e s with ⟨hrst, -⟩ | ⟨i, g, x, t, es, heq, rfl | rfl | ⟨-, rfl⟩, -⟩
  · exact absurd hrst he
  all_goals rw [heq]
  · rw [pending_setPending]
    cases h <;> exact Bool.or_false _
  · rfl

/-- No event of ENV clears a pending bit but an assertion of RST. -/
theorem pending_envApply_of_pending {e : EnvEvent} (he : e ≠ .rst true) {x : Source} {s : State}
    (hp : pending s.regs x = true) : pending (envApply e s).regs x = true := by
  rcases envApply_cases e s with ⟨hrst, -⟩ | ⟨i, g, y, t, es, heq, rfl | rfl | ⟨-, rfl⟩, -⟩
  · exact absurd hrst he
  all_goals rw [heq]
  · exact hp
  · rw [pending_setPending, hp, Bool.true_or]
  · exact hp

theorem pending_timerPulse {s : State} (hr : s.env.rst = false) :
    pending (envApply .timerPulse s).regs .timer = true := by
  simp only [envApply, hr, timerPulse]
  exact (pending_setPending _ _ _).trans (Bool.or_true _)

/-! ### Observations -/

/-- An observation clears no pending bit. -/
theorem pending_observe_of_pending {x : Source} {s : State} (hp : pending s.regs x = true) :
    pending (observe s).regs x = true := by
  cases x with
  | sensor h => rw [pending_observe, hp, Bool.true_or]
  | timer => rw [pending_observe_timer, hp]

/-- A line that has not changed has no edge. -/
theorem sensorEdge_of_eq {h : Hoop} {s : State} (hs : s.env.sens.get h.bit = s.prev.get h.bit) :
    sensorEdge h s = false := by
  unfold sensorEdge
  rw [hs]
  cases s.prev.get h.bit <;> cases s.par.sensIdle <;> rfl

theorem pending_observe_of_eq {h : Hoop} {s : State} (hs : s.env.sens.get h.bit = s.prev.get h.bit) :
    pending (observe s).regs (.sensor h) = pending s.regs (.sensor h) := by
  rw [pending_observe, sensorEdge_of_eq hs, Bool.or_false]

theorem two_set_get {α : Type} (p : Two α) (i : Bool) : p.set i (p.get i) = p := by cases i <;> rfl

theorem observeHoop_of_eq {h : Hoop} {s : State} (hs : s.env.sens.get h.bit = s.prev.get h.bit) :
    observeHoop h s = s := by
  rw [observeHoop, sensorEdge_of_eq hs, hs, two_set_get]
  rfl

/-- A second observation of the same levels changes nothing. -/
theorem observe_observe (s : State) : observe (observe s) = observe s := by
  have quiet : ∀ u : State, u.env.sens = u.prev → observe u = u := by
    intro u hu
    have h0 : observeHoop .h0 u = u := observeHoop_of_eq (by rw [hu])
    rw [observe, h0, observeHoop_of_eq (by rw [hu])]
  exact quiet (observe s) rfl

theorem endTurn_nil {s : State} (hr : s.env.rst = false) : endTurn [] s = observe s := observeLines_of_running hr

/-- The end of a turn, event by event: an observation, the event, and the rest. -/
theorem endTurn_cons {e : EnvEvent} (he : e ≠ .rst true) (es : List EnvEvent) {s : State} (hr : s.env.rst = false) :
    endTurn (e :: es) s = endTurn es (envApply e (observe s)) := by
  have hro : (observe s).env.rst = false := hr
  unfold endTurn
  rw [observeLines_of_running hr, envApplyAll, envStep, observeLines_of_running hro, observe_observe]
  cases e with
  | rst b =>
    cases b with
    | true => exact absurd rfl he
    | false =>
      have hsame : envApply (.rst false) (observe s) = observe s := by simp [envApply, releaseReset, hr]
      rw [hsame, observeLines_of_running hro, observe_observe]
      rfl
  | _ => rfl

/-! ### Pending bits at the end of a turn -/

/-- A pending bit that the first observation finds set or sets is set at the end: nothing of ENV's clears it. -/
theorem pending_endTurn_of_observe {x : Source} {es : List EnvEvent} (hes : ∀ e ∈ es, e ≠ .rst true) {s : State}
    (hr : s.env.rst = false) (hp : pending (observe s).regs x = true) : pending (endTurn es s).regs x = true := by
  induction es generalizing s with
  | nil => rwa [endTurn_nil hr]
  | cons e es ih =>
    obtain ⟨he, hes⟩ := List.forall_mem_cons.mp hes
    rw [endTurn_cons he es hr]
    exact ih hes (envApply_rst he (s := observe s) hr) (pending_observe_of_pending (pending_envApply_of_pending he hp))

/-- PREV has followed the lines at the end of a turn. -/
theorem prev_endTurn {es : List EnvEvent} (hes : ∀ e ∈ es, e ≠ .rst true) {s : State} (hr : s.env.rst = false) :
    (endTurn es s).prev = (endTurn es s).env.sens := by
  induction es generalizing s with
  | nil => rw [endTurn_nil hr, observe_prev, observe_env]
  | cons e es ih =>
    obtain ⟨he, hes⟩ := List.forall_mem_cons.mp hes
    rw [endTurn_cons he es hr]
    exact ih hes (envApply_rst he (s := observe s) hr)

/-- A line that ENV takes to the active level, and that was idle at the last observation, has its bit set at the end. -/
theorem pending_endTurn_of_sensor {h : Hoop} {es : List EnvEvent} (hes : ∀ e ∈ es, e ≠ .rst true) {s : State}
    (hr : s.env.rst = false) (hidle : s.prev.get h.bit = s.par.sensIdle)
    (hmem : EnvEvent.sensor h (!s.par.sensIdle) ∈ es) : pending (endTurn es s).regs (.sensor h) = true := by
  induction es generalizing s with
  | nil => cases hmem
  | cons e es ih =>
    by_cases hedge : sensorEdge h s = true
    · refine pending_endTurn_of_observe hes hr ?_
      rw [pending_observe, hedge, Bool.or_true]
    · have hlevel : s.env.sens.get h.bit = s.par.sensIdle := by
        simpa [sensorEdge, hidle] using hedge
      obtain ⟨he, hes⟩ := List.forall_mem_cons.mp hes
      have hprev : (envApply e (observe s)).prev.get h.bit = s.par.sensIdle := by
        rw [envApply_prev he, observe_prev, hlevel]
      have hpar : (envApply e (observe s)).par = s.par := envApply_par e _
      rw [endTurn_cons he es hr]
      rcases List.mem_cons.mp hmem with heq | hmem
      · refine pending_endTurn_of_observe hes (envApply_rst he (s := observe s) hr) ?_
        have hactive : (envApply e (observe s)).env.sens.get h.bit = !s.par.sensIdle := by
          rw [← heq]
          exact two_get_set_same _ _ _
        rw [pending_observe, sensorEdge, hprev, hpar, hactive]
        simp
      · exact ih hes (envApply_rst he (s := observe s) hr) (hprev.trans (by rw [hpar])) (by rwa [hpar])

/-- A line that has not changed and that ENV leaves alone keeps its bit. -/
theorem pending_endTurn_of_quiet {h : Hoop} {es : List EnvEvent} (hes : ∀ e ∈ es, e ≠ .rst true)
    (hquiet : ∀ lvl, EnvEvent.sensor h lvl ∉ es) {s : State} (hr : s.env.rst = false)
    (hsame : s.env.sens.get h.bit = s.prev.get h.bit) :
    pending (endTurn es s).regs (.sensor h) = pending s.regs (.sensor h) := by
  induction es generalizing s with
  | nil => rw [endTurn_nil hr, pending_observe_of_eq hsame]
  | cons e es ih =>
    obtain ⟨he, hes⟩ := List.forall_mem_cons.mp hes
    have hsens : ∀ lvl, e ≠ .sensor h lvl := fun lvl hlvl => hquiet lvl (hlvl ▸ List.mem_cons_self)
    have hsame' : (envApply e (observe s)).env.sens.get h.bit = (envApply e (observe s)).prev.get h.bit := by
      rw [envApply_sens he hsens, envApply_prev he, observe_prev, observe_env]
    have hrest : ∀ lvl, EnvEvent.sensor h lvl ∉ es := fun lvl hm => hquiet lvl (List.mem_cons_of_mem e hm)
    rw [endTurn_cons he es hr, ih hes hrest (envApply_rst he (s := observe s) hr) hsame', pending_envApply_sensor he,
      pending_observe_of_eq hsame]

/-- A timer pulse in a turn leaves P2 set. -/
theorem pending_endTurn_of_timerPulse {es : List EnvEvent} (hes : ∀ e ∈ es, e ≠ .rst true) {s : State}
    (hr : s.env.rst = false) (hmem : EnvEvent.timerPulse ∈ es) : pending (endTurn es s).regs .timer = true := by
  induction es generalizing s with
  | nil => cases hmem
  | cons e es ih =>
    obtain ⟨he, hes⟩ := List.forall_mem_cons.mp hes
    rw [endTurn_cons he es hr]
    rcases List.mem_cons.mp hmem with heq | hmem
    · refine pending_endTurn_of_observe hes (envApply_rst he (s := observe s) hr) (pending_observe_of_pending ?_)
      rw [← heq]
      exact pending_timerPulse (s := observe s) hr
    · exact ih hes (envApply_rst he (s := observe s) hr) hmem

/-- The state a release leaves: the block at its reset values, RST deasserted, TSTART read (log 17). -/
theorem endTurn_release {s : State} (hr : s.env.rst = true) : endTurn [.rst false] (resetBlock s) =
    { resetBlock s with
      env := { s.env with rst := false }, regs := { (resetBlock s).regs with tstart := s.env.tick } } := by
  have hrst : (resetBlock s).env.rst = true := hr
  simp only [endTurn, observeLines_of_reset hrst, envApplyAll, envStep, envApply, releaseReset, hrst, isReset]
  rfl

/-! ### A clear in a turn (10_state.md R33) -/

@[simp] theorem popTurn_par (s : State) : (popTurn s).par = s.par := by
  obtain ⟨as, n, h⟩ := popTurn_eq s
  rw [h]

@[simp] theorem popTurn_prev (s : State) : (popTurn s).prev = s.prev := by
  obtain ⟨as, n, h⟩ := popTurn_eq s
  rw [h]

@[simp] theorem popTurn_evd (s : State) : (popTurn s).evd = s.evd := by
  obtain ⟨as, n, h⟩ := popTurn_eq s
  rw [h]

@[simp] theorem evdBlocked_popTurn (s : State) : evdBlocked (popTurn s) = evdBlocked s := by
  obtain ⟨as, n, h⟩ := popTurn_eq s
  rw [h]
  rfl

/-- Step 1 of a sensor's handler clears its bit and changes nothing else but its position. -/
theorem evdStep_clear_sensor {p : Source} {s : State} {r : SensorRun} (he : s.evd = .sensor r) (hpos : r.pos = .clear)
    (hb : evdBlocked s = false) : evdStep p s =
      { s with regs := clearPending s.regs (.sensor r.hoop), evd := .sensor { r with pos := .settle } } := by
  rw [evdStep_sensor he hb]
  simp only [sensorStep, hpos]

/-- And so does step 1 of the timer's. -/
theorem evdStep_clear_timer {p : Source} {s : State} {r : TimerRun} (he : s.evd = .timer r) (hpos : r.pos = .clear)
    (hb : evdBlocked s = false) : evdStep p s =
      { s with regs := clearPending s.regs .timer, evd := .timer { r with pos := .flip } } := by
  rw [evdStep_timer he hb]
  simp only [timerStep, hpos]

theorem pending_clearPending_self (r : Regs) (x : Source) : pending (clearPending r x) x = false := by
  rw [pending_clearPending]
  rcases x with ⟨_ | _⟩ | _ <;> exact Bool.and_false _

end Sys2Proof.Machine
end

section
/-! The obligations of 10_state.md. -/

namespace Sys2Proof.Machine

open Sys2Proof

/-- Settles O30: the registers stay legal under each operation a step is made of. -/
theorem registersStayLegal : Obligations.RegistersStayLegal := by
  intro s s' hs h
  refine @step_keeps (fun u => registersOk u.regs) ?hown ?hreset ?herr ?hpix ?hreg ?hcmd ?hevd ?hlfs ?hdpe ?henv ?hobs
    s s' hs h
  case hown => exact fun _ _ _ _ _ hu => hu
  case hreset => exact fun u _ => registersOk_reset u.par u.env.tick
  case herr => exact fun c w u hc hu => registersOk_raiseError hc w hu
  case hpix => exact fun _ _ _ _ hu => hu
  case hreg => exact fun r v u hu => registersOk_writeReg r v u hu
  case hcmd => exact fun _ _ _ _ he hu => registersOk_exec he hu
  case hevd => exact fun p _ hu => registersOk_evdStep p hu
  case hlfs => exact fun _ hu => registersOk_lfsStep hu
  case hdpe => exact fun _ hu => registersOk_dpeStep hu
  case henv => exact fun e _ hu => registersOk_envApply e hu
  case hobs => exact fun k _ hu => registersOk_observeHoop k hu

/-- Settles O31: only a pixel write and a reset touch the RAM; `ramOk_pixWrite` is the one case with content. -/
theorem pixelRamStaysCanonical : Obligations.PixelRamStaysCanonical := by
  intro s s' hs h
  refine @step_keeps ramOk ?hown ?hreset ?herr ?hpix ?hreg ?hcmd ?hevd ?hlfs ?hdpe ?henv ?hobs s s' hs h
  case hown => exact fun _ _ _ _ _ hu => hu
  case hreset => exact fun u _ => ramOk_of_empty (resetBlock_ram u)
  case herr => exact fun c w u _ hu => ramOk_congr (raiseError_ram c w u) (raiseError_par c w u) hu
  case hpix => exact fun _ v _ hi hu => ramOk_pixWrite hu hi v
  case hreg => exact fun r v u hu => ramOk_congr (writeReg_ram r v u) (writeReg_par r v u) hu
  case hcmd => exact fun _ _ _ _ he hu => ramOk_congr (exec_ram he) (exec_par he) hu
  case hevd => exact fun p u hu => ramOk_congr (evdStep_ram p u) (evdStep_par p u) hu
  case hlfs => exact fun u hu => ramOk_congr (lfsStep_ram u) (lfsStep_par u) hu
  case hdpe => exact fun u hu => ramOk_congr (dpeStep_ram u) (dpeStep_par u) hu
  case henv => exact fun e _ hu => ramOk_envApply e hu
  case hobs => exact fun k u hu => ramOk_congr (observeHoop_ram k u) (observeHoop_par k u) hu

/-- Settles O32: the number of the host's operations and the slot change together, at acceptance and at completion. -/
theorem hostSlotFullExactlyWhileInFlight : Obligations.HostSlotFullExactlyWhileInFlight := by
  intro s s' hs h
  refine @step_keeps hostSlotOk ?hown ?hreset ?herr ?hpix ?hreg ?hcmd ?hevd ?hlfs ?hdpe ?henv ?hobs s s' hs h
  case hown => exact fun _ _ _ _ _ hu => hu
  case hreset => exact fun _ _ => rfl
  case herr => exact fun c w _ _ hu => hostSlotOk_raiseError c w hu
  case hpix => exact fun _ _ _ _ hu => hu
  case hreg => exact fun r v u hu => by rw [writeReg_eq]; exact hu
  case hcmd => exact fun _ _ _ hempty he hu => hostSlotOk_exec hempty he hu
  case hevd => exact fun p _ hu => hostSlotOk_evdStep p hu
  case hlfs => exact fun u hu => hostSlotOk_of_inFlight hu (lfsStep_hostInFlight u)
  case hdpe => exact fun u hu => hostSlotOk_of_inFlight hu (dpeStep_hostInFlight u)
  case henv => exact fun e _ hu => hostSlotOk_envApply e hu
  case hobs => exact fun _ _ hu => hu

/-- Settles O33: a handler makes a request only with none outstanding, at most one a step, and ends with none. -/
theorem evdHasAtMostOneRequest : Obligations.EvdHasAtMostOneRequest := by
  intro s s' hs h
  refine @step_keeps evdRequestsOk ?hown ?hreset ?herr ?hpix ?hreg ?hcmd ?hevd ?hlfs ?hdpe ?henv ?hobs s s' hs h
  case hown => exact fun _ _ _ _ _ hu => hu
  case hreset => exact fun _ _ => ⟨Nat.zero_le 1, fun _ => rfl⟩
  case herr => exact fun c w _ _ hu => evdRequestsOk_raiseError c w hu
  case hpix => exact fun _ _ _ _ hu => hu
  case hreg => exact fun r v u hu => by rw [writeReg_eq]; exact hu
  case hcmd => exact fun _ _ _ _ he hu => evdRequestsOk_exec he hu
  case hevd => exact fun p _ hu => evdRequestsOk_evdStep p hu
  case hlfs => exact fun u hu => evdRequestsOk_of_le hu (lfsStep_evdInFlight u).1 (lfsStep_evdInFlight u).2
  case hdpe => exact fun u hu => evdRequestsOk_of_le hu (dpeStep_evdInFlight u).1 (dpeStep_evdInFlight u).2
  case henv => exact fun e _ hu => evdRequestsOk_envApply e hu
  case hobs => exact fun _ _ hu => hu

/-- Settles O34: `hwxOk_lfsMicro` is the step with content; nothing else hands over or waits. -/
theorem handOverIsAlwaysWaitedFor : Obligations.HandOverIsAlwaysWaitedFor := by
  intro s s' hs h
  refine @step_keeps hwxOk ?hown ?hreset ?herr ?hpix ?hreg ?hcmd ?hevd ?hlfs ?hdpe ?henv ?hobs s s' hs h
  case hown => exact fun _ _ _ _ _ hu => hu
  case hreset => exact fun _ _ => ⟨nofun, nofun⟩
  case herr => exact fun c w _ _ hu => hwxOk_raiseError c w hu
  case hpix => exact fun _ _ _ _ hu => hu
  case hreg => exact fun r v u hu => by rw [writeReg_eq]; exact hu
  case hcmd => exact fun _ _ _ _ he hu => hwxOk_exec he hu
  case hevd => exact fun p _ hu => hwxOk_evdStep p hu
  case hlfs => exact fun _ hu => hwxOk_lfsStep hu
  case hdpe => exact fun _ hu => hwxOk_dpeStep hu
  case henv => exact fun e _ hu => hwxOk_envApply e hu
  case hobs => exact fun _ _ hu => hu

/-- Settles O21: the write at the word's offset is `pixWrite`, whose read and frame are laws of the pixel RAM. -/
theorem pixelWriteReadsBackWithTheMarker : Obligations.PixelWriteReadsBackWithTheMarker := by
  intro i v s hi
  obtain ⟨ha, ht⟩ := targetOf_pixAddr hi
  refine ⟨pixWrite (s.emit (.regWrite _ v)) i v, by simp [hostWrite, memWrite, ha, ht], ?_, ?_, rfl⟩
  · simp only [memReadValue, ha, ht]
    exact pixWord_pixWrite_same _ i v
  · exact fun a h => memory_read_writeWord_other s.ram i a _ h

/-- Settles O23: the fields of the STATUS word and the bytes of the table window, each read at its address. -/
theorem statusAndTableWindowShowTheBlock : Obligations.StatusAndTableWindowShowTheBlock := by
  intro s
  dsimp only
  rw [memReadValue_status, statusWord_evdSrc, statusWord_errCode]
  obtain ⟨hhost, hlfs, hdpe, hact, herr, hdnack⟩ := statusWord_flags s
  refine ⟨hhost, hlfs, hdpe, by rw [hact, evdAct_iff], ?_, herr, ?_, hdnack, statusWord_reserved s, fun k hk => ?_, ?_⟩
  · cases s.evd with
    | idle => rfl
    | sensor r => obtain ⟨_ | _, _⟩ := r <;> rfl
    | timer r => rfl
  · cases s.regs.errCode <;> rfl
  · refine ⟨?_, seg_of_lt _ hk⟩
    rw [memReadValue_segrom ⟨k / 4, by omega⟩, segromWord_byte _ _ (Nat.mod_lt k (by decide)), ← seg_of_lt _ hk]
    exact congrArg (seg s.par.segRom) (Nat.div_add_mod k 4)
  · exact (congrArg (BitVec.extractLsb' 24 8) (memReadValue_segrom 4 s)).trans
      (segromWord_byte s.par.segRom 4 (by decide : 3 < 4))

/-- Settles O26: a write of CMD is `submit`, and an accepted command is the one whose word was written. -/
theorem submittedWordIsAcceptedOrOnlyRecorded : Obligations.SubmittedWordIsAcceptedOrOnlyRecorded := by
  intro w s
  simp only [memWrite_cmd]
  refine ⟨fun hfull => ?_, fun c hempty hd => ?_, fun i hempty hd => ?_⟩
  · simp [submit, hfull]
  · simp [submit, hempty, hd]
  · rw [submit_of_decode hd]
    rcases exec_of_empty (decode_command_wellFormed hd) hempty with ⟨hi, he⟩ | ⟨hi, ⟨op, he⟩ | ⟨op, he⟩⟩ <;>
      rw [encode_of_decode hd] at he <;> refine ⟨_, he, rfl, ?_, ?_⟩
    · exact fun h => absurd hi h
    · exact fun _ => hempty
    · exact fun _ => rfl
    · exact fun h => absurd h hi
    · exact fun _ => rfl
    · exact fun h => absurd h hi

/-- Settles O42: the clauses on one event are the definitions; those on a turn are the lemmas on `endTurn`. -/
theorem edgesAndPulsesLatch : Obligations.EdgesAndPulsesLatch := by
  intro s
  refine ⟨fun h => pending_observe h s, pending_observe_timer s, rfl, fun hr => ?_, fun _ => rfl, fun h lvl => ?_,
    fun k pull => ?_, fun hr => ?_, fun hr => ?_, fun hr => ⟨endTurn_nil hr, fun e es he => ?_⟩,
    fun hr es hes => ⟨prev_endTurn hes hr, fun h => ⟨pending_endTurn_of_sensor hes hr,
      fun hsame hquiet => pending_endTurn_of_quiet hes hquiet hr hsame⟩⟩, fun hr => ?_⟩
  · simp only [envApply, hr]
    rfl
  · cases h <;> rfl
  · cases k <;> rfl
  · cases hx : s.hwx <;> simp only [envApply, hr, hwDone, hx] <;> rfl
  · cases hx : s.tone <;> simp only [envApply, hr, toneDone, hx] <;> rfl
  · exact endTurn_cons (by rintro rfl; cases he) es hr
  · rw [endTurn_release hr]
    refine ⟨rfl, fun es h hes hactive => pending_endTurn_of_observe hes rfl ?_⟩
    have hidle : (resetBlock s).prev.get h.bit = s.par.sensIdle := by cases h <;> rfl
    rw [pending_observe, sensorEdge]
    show (_ || (resetBlock s).prev.get h.bit == s.par.sensIdle && s.env.sens.get h.bit != s.par.sensIdle) = true
    simp [hidle, hactive]

/-- Settles O43: the agent's effect comes before the end of the turn, so a clear cannot undo what the end sets. -/
theorem setBeatsClearInOneStep : Obligations.SetBeatsClearInOneStep := by
  intro s m es x hr hn handlerClears hostClears sets hclears
  have cleared : ∃ u, moveStep m (popTurn s) = .next u ∧ u.par = s.par ∧ u.env = s.env ∧ u.prev = s.prev ∧
      pending u.regs x = false := by
    rcases hclears with ⟨hb, ⟨pick, rfl⟩, hx⟩ | ⟨v, rfl, hv⟩
    · rw [← evdBlocked_popTurn] at hb
      refine ⟨evdStep pick (popTurn s), rfl, ?_⟩
      cases x with
      | sensor h =>
        obtain ⟨r, he, rfl, hpos⟩ := hx
        rw [evdStep_clear_sensor ((popTurn_evd s).trans he) hpos hb]
        exact ⟨popTurn_par s, popTurn_env s, popTurn_prev s, pending_clearPending_self _ _⟩
      | timer =>
        obtain ⟨r, he, hpos⟩ := hx
        rw [evdStep_clear_timer ((popTurn_evd s).trans he) hpos hb]
        exact ⟨popTurn_par s, popTurn_env s, popTurn_prev s, pending_clearPending_self _ _⟩
    · have hbit : v.getLsbD (sourceNum x) = true := by rcases x with ⟨_ | _⟩ | _ <;> exact hv
      refine ⟨writeReg .irqPend v ((popTurn s).emit (.regWrite 0x008#16 v)), rfl, popTurn_par s, popTurn_env s,
        popTurn_prev s, ?_⟩
      rw [pending_writeReg_irqPend, hbit]
      exact Bool.and_false _
  obtain ⟨u, hu, hpar, henv, hprev, hpend⟩ := cleared
  have hru : u.env.rst = false := by rw [henv, hr]
  have hstep := step_of_move hr hn hu
  refine ⟨fun hes hsets => ⟨_, hstep, ?_⟩, fun hnil hsame => ⟨_, hstep, ?_⟩⟩
  · cases x with
    | timer => exact pending_endTurn_of_timerPulse hes hru hsets
    | sensor h =>
      obtain ⟨hidle, hactive | hmem⟩ := hsets
      · refine pending_endTurn_of_observe hes hru ?_
        rw [pending_observe, sensorEdge, hprev, hpar, henv]
        simp [hidle, hactive]
      · exact pending_endTurn_of_sensor hes hru (by rw [hprev, hpar, hidle]) (by rwa [hpar])
  · rw [hnil, endTurn_nil hru, ← hpend]
    cases x with
    | timer => exact pending_observe_timer u
    | sensor h => exact pending_observe_of_eq (by rw [henv, hprev, hsame])

/-- Settles O47: each turn is a step of the handler with nothing outstanding, or finds its request outstanding. -/
theorem toneComesBeforeRender : Obligations.ToneComesBeforeRender := by
  intro s r pick hevd hpos hrst htone hlfsReq hdpeReq hlfs hdpe pts k a b
  have free : ∀ e h, evdBlocked { s with evd := e, tone := .idle, hist := h, dpeEvdReq := none } = false :=
    fun e h => evdBlocked_of_none hlfsReq rfl hlfs hdpe rfl
  have ha : a = { s with
      evd := .sensor { r with pos := .render }, tone := .waiting, hist := s.hist ++ [.tone r.hoop pts] } := by
    have hpts : r.pts.num = pts := by
      dsimp only [pts]
      cases r.pts <;> rfl
    rw [← hpts]
    show evdStep pick s = _
    rw [evdStep_sensor hevd (evdBlocked_of_none hlfsReq hdpeReq hlfs hdpe htone)]
    simp only [sensorStep, hpos]
    rfl
  have hdone : envApply .toneDone a = { s with
      evd := .sensor { r with pos := .render }, tone := .idle, hist := s.hist ++ [.tone r.hoop pts] ++ [.toneDone]
      dpeEvdReq := none } := by
    rw [ha]
    simp only [envApply, hrst, toneDone, State.emit]
    simp [hdpeReq]
  have hb : b = { s with
      evd := .sensor { r with pos := .finish }, tone := .idle, hist := s.hist ++ [.tone r.hoop pts] ++ [.toneDone]
      dpeEvdReq := some (.num k r.v) } := by
    have hk : hoopChan r.hoop = k := by
      dsimp only [k]
      cases r.hoop <;> rfl
    rw [← hk]
    show evdStep pick (envApply .toneDone a) = _
    rw [hdone, evdStep_sensor rfl (free _ _)]
    rfl
  have hbwaits := evdStep_waits_dpe (p := pick) (u := b) (op := .num k r.v) (by rw [hb]; nofun) (by rw [hb])
  refine ⟨ha, evdStep_blocked (by rw [ha]; nofun) (evdBlocked_of_tone (by rw [ha])), ?_, hbwaits.1, hbwaits.2, ?_⟩
  · rw [hb, List.append_assoc]
    rfl
  · rw [hb]
    show evdStep pick { s with
      evd := .sensor { r with pos := .finish }, tone := .idle, hist := s.hist ++ [.tone r.hoop pts] ++ [.toneDone]
      dpeEvdReq := none } = _
    rw [evdStep_sensor rfl (free _ _)]
    rfl

/-- Settles O48: each turn is a step of the handler with nothing outstanding, or finds its request outstanding. -/
theorem timerHandlerFlipsRecoloursAndRenders : Obligations.TimerHandlerFlipsRecoloursAndRenders := by
  intro s r pick hevd hpos htone hlfsReq hdpeReq hlfs hdpe team regs c1 c2 n a b c d waitsForLfs waitsForDpe
  have turn : ∀ g q, evdStep pick { s with regs := g, evd := .timer q, lfsEvdReq := none, dpeEvdReq := none } =
      timerStep q { s with regs := g, evd := .timer q, lfsEvdReq := none, dpeEvdReq := none } :=
    fun g q => evdStep_timer rfl (evdBlocked_of_none rfl rfl hlfs hdpe htone)
  have hclear : evdStep pick s = { s with
      regs := clearPending s.regs .timer, evd := .timer { r with pos := .flip }
      lfsEvdReq := none, dpeEvdReq := none } := by
    rw [evdStep_timer hevd (evdBlocked_of_none hlfsReq hdpeReq hlfs hdpe htone)]
    simp only [timerStep, hpos, hlfsReq, hdpeReq]
  have hflip : evdStep pick (evdStep pick s) = { s with
      regs := regs, evd := .timer { r with pos := .strip1 }, lfsEvdReq := none, dpeEvdReq := none } := by
    rw [hclear, turn]
    rfl
  have ha : a = { s with
      regs := regs, evd := .timer ⟨.strip2, c2⟩, dpeEvdReq := none
      lfsEvdReq := some (.fill (s1Port regs) n (colorOf c1)) } := by
    have hcolors : stripColors regs = (c1, c2) := stripColors_eq regs
    show evdStep pick (evdStep pick (evdStep pick s)) = _
    rw [hflip, turn]
    simp only [timerStep, hcolors]
    rfl
  have hb : b = { s with
      regs := regs, evd := .timer ⟨.render0, c2⟩, dpeEvdReq := none
      lfsEvdReq := some (.fill (s2Port regs) n (colorOf c2)) } := by
    show evdStep pick { a with lfsEvdReq := none } = _
    rw [ha]
    exact turn _ _
  have hc : c = { s with
      regs := regs, evd := .timer ⟨.render1, c2⟩, lfsEvdReq := none
      dpeEvdReq := some (.num .c0 (s.regs.score.get (team.getLsbD 0))) } := by
    show evdStep pick { b with lfsEvdReq := none } = _
    rw [hb]
    exact turn _ _
  have hd : d = { s with
      regs := regs, evd := .timer ⟨.finish, c2⟩, lfsEvdReq := none
      dpeEvdReq := some (.num .c1 (s.regs.score.get (team.getLsbD 1))) } := by
    show evdStep pick { c with dpeEvdReq := none } = _
    rw [hc]
    exact turn _ _
  have hend : evdStep pick { d with dpeEvdReq := none } =
      { s with regs := regs, evd := .idle, lfsEvdReq := none, dpeEvdReq := none } := by
    rw [hd]
    exact turn _ _
  refine ⟨?_, evdStep_waits_lfs (by rw [ha]; nofun) (by rw [ha]), ?_, evdStep_waits_lfs (by rw [hb]; nofun) (by rw [hb]),
    hc, evdStep_waits_dpe (by rw [hc]; nofun) (by rw [hc]), hd, evdStep_waits_dpe (by rw [hd]; nofun) (by rw [hd]), hend⟩
  · rw [ha]
    simp only [hdpeReq]
    rfl
  · rw [hb]
    simp only [hdpeReq]
    rfl

/-- Settles O50: the starts with the copies written out, and no micro-step looks at a request slot. -/
theorem evdRequestGoesBeforeTheHosts : Obligations.EvdRequestGoesBeforeTheHosts := by
  intro s
  refine ⟨fun a h1 h2 => ?_, fun b h1 h2 h3 => ?_, fun a h1 h2 => ?_, fun b h1 h2 h3 => ?_, fun r x y h => ?_,
    fun r x y h => ?_⟩
  · exact (lfsStep_evdReq h1 h2).trans (by cases a <;> rfl)
  · exact (lfsStep_hostReq h1 h2 h3).trans (by cases b <;> rfl)
  · exact (dpeStep_evdReq h1 h2).trans (by cases a <;> rfl)
  · exact (dpeStep_hostReq h1 h2 h3).trans (by cases b <;> rfl)
  · rw [lfsStep_busy h, lfsStep_busy (s := { s with lfsEvdReq := x, lfsHostReq := y }) h]
    exact (lfsMicro_frame r s s.regs x y).trans (by simp only [(lfsMicro_keeps r s).1])
  · rw [dpeStep_busy h, dpeStep_busy (s := { s with dpeEvdReq := x, dpeHostReq := y }) h]
    exact dpeMicro_frame (f := id) r s x y fun _ _ _ => rfl

/-- Settles O51: no micro-step reads a register, a start reads DEFBRI or DCFG only, and the record of the acknowledges
writes none of those named. -/
theorem startedOperationsKeepTheirConfiguration : Obligations.StartedOperationsKeepTheirConfiguration := by
  refine fun s => ⟨fun d r h => ?_, fun l r h => ?_, fun x y => ⟨?_, ?_⟩⟩
  · exact dpeStep_mapRegs s (f := fun g => { g with dcfg := d }) (fun _ _ _ => rfl) fun hn => nomatch h.symm.trans hn
  · exact (lfsStep_withRegs s (g := { s.regs with ledcfg := l }) fun hn => nomatch h.symm.trans hn).trans
      (by simp only [lfsStep_regs])
  · exact (lfsStep_withRegs s (g := { s.regs with arg := x, segbuf := y }) fun _ => rfl).trans
      (by simp only [lfsStep_regs])
  · exact dpeStep_mapRegs s (f := fun g => { g with arg := x, segbuf := y }) (fun _ _ _ => rfl) fun _ => rfl

/-- Settles O20: the bits of IRQ_PEND and IRQ_EN are those of `sourceNum`, and the rest is the two write functions. -/
theorem writeOneToClear : Obligations.WriteOneToClear := by
  intro v s
  refine ⟨rfl, ?_, rfl, rfl, rfl, rfl, rfl, rfl, rfl, pending_writeReg_irqPend v s⟩
  show Host.Outcome.next { s with regs := writeStatus s.regs v } = _
  unfold writeStatus
  cases v.getLsbD 8 <;> cases v.getLsbD 16 <;> simp

/-- Settles O27: the reset record, a register read through its mask. -/
theorem resetGivesEveryValueOfTheTable : Obligations.ResetGivesEveryValueOfTheTable := by
  refine ⟨rfl, fun p i => ?_⟩
  have zero : ∀ r, regValue r (State.resetWith p i) = 0#32 → readReg r (State.resetWith p i) = 0#32 := by
    intro r h
    rw [readReg, h, BitVec.zero_and]
  refine ⟨BitVec.and_allOnes, zero .irqEn rfl, zero .irqPend rfl, zero .status (statusWord_reset p i), zero .cmd rfl,
    zero .arg rfl, zero .errInfo rfl, BitVec.and_allOnes, zero .lastDwell rfl, zero .dack rfl, zero .score0 rfl,
    zero .score1 rfl, team_reset, zero .color1 rfl, zero .color2 rfl, ledcfg_reset p.defaultBrightness,
    fun k => zero (.dcfg k) (by cases k <;> rfl), zero .segbuf rfl, fun j => BitVec.and_allOnes, rfl,
    fun n k => withHeader_header _ _, rfl, rfl, fun k => by cases k <;> rfl, rfl, rfl, rfl, rfl, rfl, rfl, rfl, rfl,
    rfl, rfl, rfl, rfl⟩

/-- Settles O29: `inv_resetWith`, for the free parameters and levels too. -/
theorem invariantsHoldAfterReset : Obligations.InvariantsHoldAfterReset :=
  ⟨inv_resetWith _ _, inv_resetWith⟩

end Sys2Proof.Machine
end

section
/-! SUPPORT. The register map at an aligned address, and which addresses are reserved (20_memory.md R81, R82, R84). -/

namespace Sys2Proof.Machine

open Sys2Proof

/-! ### The address map -/

theorem misaligned_iff (a : Addr) : misaligned a = true ↔ a.toNat % 4 ≠ 0 := by
  have low : a.extractLsb' 0 2 = 0#2 ↔ a.toNat % 4 = 0 := by
    rw [← BitVec.toNat_inj, BitVec.extractLsb'_toNat]
    simp
  simp [misaligned, low]

theorem misaligned_eq_false {a : Addr} (h : a.toNat % 4 = 0) : misaligned a = false := by
  simpa [h] using (misaligned_iff a).not

/-- The aligned offsets outside the rows of the map (20_memory.md R81, R82). -/
def reservedOffset (n : Nat) : Prop :=
  (0x02C ≤ n ∧ n < 0x040) ∨ (0x058 ≤ n ∧ n < 0x060) ∨ (0x06C ≤ n ∧ n < 0x070) ∨ (0x074 ≤ n ∧ n < 0x080) ∨
    (0x094 ≤ n ∧ n < 0x1000) ∨ 0x2000 ≤ n

/-- No row of the map is in a reserved range, and an aligned offset in none of them has a row. -/
theorem targetOf_reserved_iff {a : Addr} (h : a.toNat % 4 = 0) : targetOf a = .reserved ↔ reservedOffset a.toNat := by
  unfold targetOf reservedOffset
  generalize a.toNat = n at h
  split
  case h_27 =>
    -- `omega` reads the excluded offsets as `n ≠ k` only, not as `n = k → False`
    simp only [imp_false] at *
    split
    case isTrue hpixel =>
      simp only [reduceCtorEq, false_iff]
      omega
    case isFalse hother =>
      simp only [true_iff]
      omega
  all_goals simp

/-! ### Register accesses -/

/-- A register whose every bit is a field reads as it stands. -/
theorem readReg_of_fieldMask {r : RegName} (h : fieldMask r = BitVec.allOnes 32) (s : State) :
    readReg r s = regValue r s := by
  rw [readReg, h, BitVec.and_allOnes]

/-- A register shows nothing of another register: a write of one leaves every other as it was. -/
theorem regValue_writeReg_ne {r r' : RegName} (h : r' ≠ r) (v : Word) (s : State) :
    regValue r' (writeReg r v s) = regValue r' s := by
  cases r with
  | id | errInfo | tick | lastDwell | dack | segrom | cmd => rfl
  | irqEn => cases r' with | irqEn => exact absurd rfl h | _ => rfl
  | irqPend => cases r' with | irqPend => exact absurd rfl h | _ => rfl
  | status => cases r' with | status => exact absurd rfl h | _ => rfl
  | arg => cases r' with | arg => exact absurd rfl h | _ => rfl
  | tstart => cases r' with | tstart => exact absurd rfl h | _ => rfl
  | score0 => cases r' with | score0 => exact absurd rfl h | _ => rfl
  | score1 => cases r' with | score1 => exact absurd rfl h | _ => rfl
  | team => cases r' with | team => exact absurd rfl h | _ => rfl
  | color1 => cases r' with | color1 => exact absurd rfl h | _ => rfl
  | color2 => cases r' with | color2 => exact absurd rfl h | _ => rfl
  | ledcfg => cases r' with | ledcfg => exact absurd rfl h | _ => rfl
  | segbuf => cases r' with | segbuf => exact absurd rfl h | _ => rfl
  | dcfg k =>
    cases r' with
    | dcfg j => exact three_get_set_ne _ (fun hkj => h (by rw [hkj])) _
    | _ => rfl

end Sys2Proof.Machine
end

section
/-! SUPPORT. What the units write of the registers in a turn that is no host access (20_memory.md R91). -/

namespace Sys2Proof.Machine

open Sys2Proof

/-- The registers `g` are those of `s` but for what a unit of the block may write: IRQ_PEND, LAST_DWELL, DACK and DNACK,
SCORE at step 6 of the sensor handler that runs in `s` and TEAM at step 2 of the timer handler. -/
def UnitsWrote (s : State) (g : Regs) : Prop :=
  ∃ pend dwell dack dnack score team,
    g = { s.regs with
      irqPend := pend, lastDwell := dwell, dack := dack, dnack := dnack, score := score, team := team } ∧
    (score ≠ s.regs.score → ∃ r, s.evd = .sensor r ∧ r.pos = .score) ∧
    (team ≠ s.regs.team → ∃ r, s.evd = .timer r ∧ r.pos = .flip)

theorem unitsWrote_same (s : State) : UnitsWrote s s.regs :=
  ⟨_, _, _, _, _, _, rfl, absurd rfl, absurd rfl⟩

theorem unitsWrote_evdStep (p : Source) (s : State) : UnitsWrote s (evdStep p s).regs := by
  rcases evdStep_cases p s with h | ⟨x, -, -, h⟩ | ⟨r, he, -, h⟩ | ⟨r, he, -, h⟩ <;> rw [h]
  · exact unitsWrote_same s
  · exact unitsWrote_same s
  · rcases sensorStep_regs r s with ⟨-, e⟩ | ⟨-, e⟩ | ⟨hpos, v, e⟩ | e <;> rw [e]
    · exact ⟨_, _, _, _, _, _, rfl, absurd rfl, absurd rfl⟩
    · exact ⟨_, _, _, _, _, _, rfl, absurd rfl, absurd rfl⟩
    · exact ⟨_, _, _, _, _, _, rfl, fun _ => ⟨r, he, hpos⟩, absurd rfl⟩
    · exact unitsWrote_same s
  · rcases timerStep_regs r s with ⟨-, e⟩ | ⟨hpos, e⟩ | e <;> rw [e]
    · exact ⟨_, _, _, _, _, _, rfl, absurd rfl, absurd rfl⟩
    · exact ⟨_, _, _, _, _, _, rfl, absurd rfl, fun _ => ⟨r, he, hpos⟩⟩
    · exact unitsWrote_same s

theorem unitsWrote_dpeStep (s : State) : UnitsWrote s (dpeStep s).regs := by
  obtain ⟨l, g, es, hs, a, b, r, e, -, -, hg⟩ := dpeStep_frame s
  rw [e]
  rcases hg with rfl | ⟨q, -, rfl⟩
  · exact unitsWrote_same s
  · exact ⟨_, _, _, _, _, _, rfl, absurd rfl, absurd rfl⟩

@[simp] theorem evdStep_env (p : Source) (s : State) : (evdStep p s).env = s.env := by
  obtain ⟨g, e, t, a, q, es, h⟩ := evdStep_eq p s
  rw [h]

@[simp] theorem lfsStep_env (s : State) : (lfsStep s).env = s.env := by
  obtain ⟨l, x, n, es, hs, a, b, r, h, -⟩ := lfsStep_frame s
  rw [h]

@[simp] theorem dpeStep_env (s : State) : (dpeStep s).env = s.env := by
  obtain ⟨l, g, es, hs, a, b, r, h, -⟩ := dpeStep_frame s
  rw [h]

/-- A move that is no host access writes no pixel RAM, no input, and of the registers what a unit may write. -/
theorem moveStep_unitsWrote {m : Move} {s u : State} (hm : isHostMove m = false) (h : moveStep m s = .next u) :
    u.ram = s.ram ∧ u.env = s.env ∧ UnitsWrote s u.regs := by
  rcases moveStep_cases h with ⟨a, rfl, -⟩ | ⟨a, v, rfl, -⟩ | ⟨p, -, rfl⟩ | ⟨-, rfl⟩ | ⟨-, rfl⟩ | ⟨-, rfl⟩
  · cases hm
  · cases hm
  · exact ⟨evdStep_ram p s, evdStep_env p s, unitsWrote_evdStep p s⟩
  · exact ⟨lfsStep_ram s, lfsStep_env s, by rw [lfsStep_regs]; exact unitsWrote_same s⟩
  · exact ⟨dpeStep_ram s, dpeStep_env s, unitsWrote_dpeStep s⟩
  · exact ⟨rfl, rfl, unitsWrote_same u⟩

/-- Of the registers and the pixel RAM, ENV's events outside reset, but an assertion of RST, write pending bits only. -/
theorem envApply_regs_ram {e : EnvEvent} (he : e ≠ .rst true) {s : State} (hr : s.env.rst = false) :
    ∃ p, (envApply e s).regs = { s.regs with irqPend := p } ∧ (envApply e s).ram = s.ram := by
  rcases envApply_cases e s with ⟨h, -⟩ | ⟨i, g, x, t, es, h, rfl | rfl | ⟨hrst, -⟩, -⟩
  · exact absurd h he
  · exact ⟨s.regs.irqPend, by rw [h], by rw [h]⟩
  · exact ⟨_, by rw [h]; rfl, by rw [h]⟩
  · rw [hr] at hrst
    cases hrst

/-- And so does the end of a turn outside reset in which RST does not become asserted. -/
theorem endTurn_regs_ram {es : List EnvEvent} (hes : ∀ e ∈ es, e ≠ .rst true) {s : State} (hr : s.env.rst = false) :
    ∃ p, (endTurn es s).regs = { s.regs with irqPend := p } ∧ (endTurn es s).ram = s.ram := by
  induction es generalizing s with
  | nil =>
    rw [endTurn_nil hr]
    exact ⟨_, rfl, rfl⟩
  | cons e es ih =>
    obtain ⟨he, hes⟩ := List.forall_mem_cons.mp hes
    obtain ⟨p, hregs, hram⟩ := envApply_regs_ram he (s := observe s) hr
    obtain ⟨q, hregs', hram'⟩ := ih hes (envApply_rst he (s := observe s) hr)
    rw [endTurn_cons he es hr, hregs', hram', hregs, hram]
    exact ⟨q, rfl, rfl⟩

end Sys2Proof.Machine
end

section
/-! SUPPORT. The LFS's micro-steps and the pixel RAM (20_memory.md R92, R93, 40_led_serializer.md R144, R145). -/

namespace Sys2Proof.Machine

open Sys2Proof

theorem lfsAdvance_pixWrite (r : LfsRun) (rest : List LfsAct) (s : State) (j : Nat) (v : Word) :
    lfsAdvance r rest (pixWrite s j v) = pixWrite (lfsAdvance r rest s) j v := by
  cases rest with
  | cons a as => rfl
  | nil => cases h : r.owner <;> simp only [lfsAdvance, complete, h] <;> rfl

/-- A micro-step that takes no pixel commutes with a write of any pixel word. -/
theorem lfsMicro_pixWrite {r : LfsRun}
    (hr : ∀ i, r.todo.head? ≠ some (.sendPixel i) ∧ r.todo.head? ≠ some (.packPixel i)) (s : State) (j : Nat)
    (v : Word) : lfsMicro r (pixWrite s j v) = pixWrite (lfsMicro r s) j v := by
  unfold lfsMicro
  split
  case h_1 => exact lfsAdvance_pixWrite r [] s j v
  case h_2 => exact lfsAdvance_pixWrite r _ (driveLed _ _ s) j v
  case h_3 => exact lfsAdvance_pixWrite r _ (enableLed _ s) j v
  case h_4 => exact lfsAdvance_pixWrite r _ (holdFor _ _ s) j v
  case h_5 i _ ht => exact absurd (by rw [ht]; rfl) (hr i).1
  case h_6 i _ ht => exact absurd (by rw [ht]; rfl) (hr i).2
  case h_7 => exact lfsAdvance_pixWrite _ _ (({ s with hwx := .waiting }).emit _) j v
  case h_8 =>
    rw [pixWrite_hwx]
    split
    · exact lfsAdvance_pixWrite r _ s j v
    · rfl

/-- At a pixel's step on the software port the word is taken and its four bytes are sent next. -/
theorem lfsMicro_sendPixel {r : LfsRun} (hsrc : r.src = .ram) {i : Nat} {rest : List LfsAct}
    (ht : r.todo = .sendPixel i :: rest) (s : State) : lfsMicro r s = { afterPixRead s i with
      lfs := some { r with todo := (wordBytes (pixWord s i)).flatMap ledByteActs ++ rest } } := by
  obtain ⟨op, owner, src, todo, frame⟩ := r
  obtain rfl : src = .ram := hsrc
  obtain rfl := ht
  rfl

/-- At a pixel's step on the hardware port the word is taken and its four bytes join the frame. -/
theorem lfsMicro_packPixel {r : LfsRun} (hsrc : r.src = .ram) {i : Nat} {a : LfsAct} {rest : List LfsAct}
    (ht : r.todo = .packPixel i :: a :: rest) (s : State) : lfsMicro r s = { afterPixRead s i with
      lfs := some { r with todo := a :: rest, frame := r.frame ++ wordBytes (pixWord s i) } } := by
  obtain ⟨op, owner, src, todo, frame⟩ := r
  obtain rfl : src = .ram := hsrc
  obtain rfl := ht
  rfl

end Sys2Proof.Machine
end

section
/-! The obligations of 20_memory.md. -/

namespace Sys2Proof.Machine

open Sys2Proof

/-- Settles O19: each access is that of the register at its offset; the independence is `regValue_writeReg_ne`. -/
theorem registerWriteSetsOnlyItsOwnFields : Obligations.RegisterWriteSetsOnlyItsOwnFields := by
  intro v s
  have whole : ∀ {r : RegName}, fieldMask r = BitVec.allOnes 32 → readReg r s = regValue r s :=
    fun h => readReg_of_fieldMask h s
  refine ⟨rfl, rfl, rfl, rfl, rfl, rfl, rfl, rfl, rfl, rfl, rfl, rfl, rfl, ?_, whole (r := .id) rfl, rfl, rfl,
    whole (r := .cmd) rfl, whole (r := .arg) rfl, whole (r := .errInfo) rfl, whole (r := .tick) rfl,
    whole (r := .tstart) rfl, whole (r := .lastDwell) rfl, rfl, whole (r := .score0) rfl, whole (r := .score1) rfl, rfl,
    rfl, rfl, rfl, rfl, rfl, rfl, whole (r := .segbuf) rfl, fun r r' h => regValue_writeReg_ne h v s⟩
  intro a ha
  fin_cases ha <;> rfl

/-- Settles O22: the check of the address comes first, then the map, whose reserved ranges are `targetOf_reserved_iff`. -/
theorem busErrorsAreRecordedAndDropped : Obligations.BusErrorsAreRecordedAndDropped := by
  intro a reserved
  refine ⟨fun h v s => ?_, targetOf_reserved_iff, fun h hres v s => ?_⟩
  · simp [memReadValue, afterMemRead, memWrite, (misaligned_iff a).mpr h]
  · have ht : targetOf a = .reserved := (targetOf_reserved_iff h).mpr hres
    simp [memReadValue, afterMemRead, memWrite, misaligned_eq_false h, ht]

/-- Settles O25: an address that exists is a pixel word, whose read is `afterPixRead_eq`, or a register. -/
theorem readsHaveNoSideEffect : Obligations.ReadsHaveNoSideEffect := by
  intro a s halign hne
  have effect : ∃ n, afterMemRead a s = { s with draws := n } := by
    simp only [afterMemRead, misaligned_eq_false halign]
    cases ht : targetOf a with
    | reserved => exact absurd ht hne
    | pixel i => exact afterPixRead_eq s i
    | reg r => exact ⟨s.draws, rfl⟩
  obtain ⟨n, hn⟩ := effect
  exact ⟨n, by rw [hostRead, hn]; rfl⟩

/-- Settles O38: what a unit's move may write, and then ENV's part, which writes pending bits only. -/
theorem onlyTheNamedWritersChangeARegister : Obligations.OnlyTheNamedWritersChangeARegister := by
  intro s s' hm hr hes hstep
  obtain ⟨as, n, hpop⟩ := popTurn_eq s
  rcases step_cases hstep with ⟨hrst, -, -⟩ | ⟨-, u, hu, rfl⟩
  · rw [hr] at hrst
    cases hrst
  · obtain ⟨hram, henv, pend, dwell, dack, dnack, score, team, hregs, hscore, hteam⟩ := moveStep_unitsWrote hm hu
    rw [hpop] at hram henv hregs hscore hteam
    obtain ⟨p, hregs', hram'⟩ := endTurn_regs_ram hes (s := u) (by rw [henv]; exact hr)
    rw [hregs', hram', hregs, hram]
    exact ⟨⟨rfl, rfl, rfl, rfl, rfl, rfl, rfl, rfl, rfl, rfl⟩, hscore, hteam⟩

/-- Settles O52: the two steps that take a pixel, and `lfsMicro_pixWrite` for every other. -/
theorem pixelWordsAreTakenWholeAtTheirStep : Obligations.PixelWordsAreTakenWholeAtTheirStep := by
  refine fun s r hl hsrc => ⟨fun i rest ht => ?_, fun i a rest ht => ?_, fun hr j v => ?_⟩
  · exact (lfsStep_busy hl).trans (lfsMicro_sendPixel hsrc ht s)
  · exact (lfsStep_busy hl).trans (lfsMicro_packPixel hsrc ht s)
  · rw [lfsStep_busy hl, lfsStep_busy (s := pixWrite s j v) hl]
    exact lfsMicro_pixWrite hr s j v

end Sys2Proof.Machine
end

section
/-! SUPPORT. The decoder read forwards: which of the checks of 30_encoding.md R114 answers, and that the word of a
well-formed command passes all of them. -/

namespace Sys2Proof

/-- A word whose opcode exists meets the reserved-bit check, then the range checks of the command its fields make. -/
theorem decode_of_format {w : Word} {f : Format} {i : Instr} (hf : formatOf (opField w) = some f)
    (hi : assembleFields w = some i) :
    decode w = if w &&& rsvdMask f = 0#32 then (rangeError i).elim (.command i) .reject else .reject .rsvdBits := by
  simp only [decode, hf, hi, ite_not]
  cases rangeError i <;> rfl

theorem opField_toNat (w : Word) : (opField w).toNat = (w >>> 28).toNat := by
  simp only [opField, BitVec.extractLsb'_toNat, BitVec.toNat_ushiftRight, Nat.shiftRight_eq_div_pow]
  omega

/-- The opcodes from 7 on have no format (30_encoding.md R111). -/
theorem decode_of_reserved_op {w : Word} (h : 7 ≤ (opField w).toNat) : decode w = .reject .illegalOp := by
  have hf : ∀ op : BitVec 4, 7 ≤ op.toNat → formatOf op = none := by decide
  simp only [decode, hf _ h]

/-- The rows of the opcode table: the format of an opcode and the command of its fields (30_encoding.md R111, R112). -/
theorem opField_cases (w : Word) :
    7 ≤ (opField w).toNat ∨
      ((opField w).toNat = 0 ∧ formatOf (opField w) = some .z ∧ assembleFields w = some .nop) ∨
      ((opField w).toNat = 1 ∧ formatOf (opField w) = some .z ∧ assembleFields w = some .ledInit) ∨
      ((opField w).toNat = 2 ∧ formatOf (opField w) = some .l ∧
        assembleFields w = some (.ledTx (portField w) (countField w))) ∨
      ((opField w).toNat = 3 ∧ formatOf (opField w) = some .l ∧
        assembleFields w = some (.ledFill (portField w) (countField w))) ∨
      ((opField w).toNat = 4 ∧ formatOf (opField w) = some .s ∧
        assembleFields w = some (.dspSegs (chField w) (addrField w) (lenField w) (colonField w))) ∨
      ((opField w).toNat = 5 ∧ formatOf (opField w) = some .d ∧ assembleFields w = some (.dspNum (chField w))) ∨
      ((opField w).toNat = 6 ∧ formatOf (opField w) = some .k ∧
        assembleFields w = some (.dspClock (chField w) (colonField w))) := by
  by_cases h : 7 ≤ (opField w).toNat
  · exact .inl h
  · unfold formatOf assembleFields
    generalize (opField w).toNat = op at h ⊢
    have hlt : op < 7 := Nat.lt_of_not_le h
    interval_cases op <;> simp

theorem rangeError_dspSegs (ch a : BitVec 2) (l : BitVec 3) (c : Bool) :
    rangeError (.dspSegs ch a l c) =
      if ch = 3#2 then some .badCh else if 4 < l.toNat then some .badLen else none := by
  simp [rangeError]

theorem rangeError_dspNum (ch : BitVec 2) : rangeError (.dspNum ch) = if ch = 3#2 then some .badCh else none := by
  simp [rangeError]

theorem rangeError_dspClock (ch : BitVec 2) (c : Bool) :
    rangeError (.dspClock ch c) = if ch = 3#2 then some .badCh else none := by
  simp [rangeError]

/-- The word of any command, in range or not, has its opcode, its reserved bits at 0 and its operands as fields. -/
theorem encodingFields (i : Instr) : Laws.EncodingFields.Statement i := by
  cases i with
  | nop => exact Laws.EncodingFields.nop
  | ledInit => exact Laws.EncodingFields.ledInit
  | ledTx p n => exact Laws.EncodingFields.ledTx p n
  | ledFill p n => exact Laws.EncodingFields.ledFill p n
  | dspSegs ch a l c => exact Laws.EncodingFields.dspSegs ch a l c
  | dspNum ch => exact Laws.EncodingFields.dspNum ch
  | dspClock ch c => exact Laws.EncodingFields.dspClock ch c

/-- The word of a command meets no check but those of its operands' ranges. -/
theorem decode_encode_eq (i : Instr) : decode (encode i) = (rangeError i).elim (.command i) .reject := by
  obtain ⟨hf, hm, hi⟩ := encodingFields i
  rw [decode_of_format hf hi, if_pos hm]

theorem decode_encode {i : Instr} (h : i.wellFormed = true) : decode (encode i) = .command i := by
  rw [decode_encode_eq, (Machine.rangeError_none_iff i).mpr h, Option.elim_none]

end Sys2Proof
end

section
/-! SUPPORT. The assembler: its commands are well formed, so their words decode to them (30_encoding.md R126). -/

namespace Sys2Proof

theorem chanOk_ofNat {k : Nat} (h : k < 3) : chanOk (BitVec.ofNat 2 k) = true := by
  interval_cases k <;> decide

theorem lenOk_ofNat {l : Nat} (h : l < 5) : lenOk (BitVec.ofNat 3 l) = true := by
  interval_cases l <;> decide

theorem Asm.instr?_wellFormed {a : Asm} {i : Instr} (h : a.instr? = some i) : i.wellFormed = true := by
  cases a with
  | nop => cases h; rfl
  | ledInit => cases h; rfl
  | ledTx p n => obtain ⟨-, ⟨⟩⟩ := Option.ite_none_right_eq_some.mp h; rfl
  | ledFill p n => obtain ⟨-, ⟨⟩⟩ := Option.ite_none_right_eq_some.mp h; rfl
  | dspSegs k a l c =>
    obtain ⟨⟨hk, -, hl⟩, ⟨⟩⟩ := Option.ite_none_right_eq_some.mp h
    simp only [Instr.wellFormed, chanOk_ofNat hk, lenOk_ofNat hl, Bool.and_self]
  | dspNum k =>
    obtain ⟨hk, ⟨⟩⟩ := Option.ite_none_right_eq_some.mp h
    exact chanOk_ofNat hk
  | dspClock k c =>
    obtain ⟨hk, ⟨⟩⟩ := Option.ite_none_right_eq_some.mp h
    exact chanOk_ofNat hk

/-- A line with a command assembles to the word of that command, and the word decodes to it. -/
theorem Asm.assemble_of_instr {a : Asm} {i : Instr} (h : a.instr? = some i) :
    a.assemble = some (encode i) ∧ decode (encode i) = .command i :=
  ⟨by rw [Asm.assemble, h, Option.map_some], decode_encode (Asm.instr?_wellFormed h)⟩

theorem Asm.assemble_of_none {a : Asm} (h : a.instr? = none) : a.assemble = none := by
  rw [Asm.assemble, h, Option.map_none]

end Sys2Proof
end

section
/-! SUPPORT. Commands with an operand out of range (30_encoding.md R114; log 24). -/

namespace Sys2Proof.Machine

open Sys2Proof

theorem exec_of_rangeError {i : Instr} {c : ErrCode} {s : State} (hs : s.hostSlot = none)
    (h : rangeError i = some c) : exec i s = .next (raiseError c (encode i) s) := by
  obtain ⟨acc, he⟩ := exec_eq_submitCommand i s
  rw [he]
  simp [submitCommand, hs, h]

end Sys2Proof.Machine
end

section
/-! The obligations of 30_encoding.md. -/

namespace Sys2Proof.Machine

open Sys2Proof

/-- Settles O1: a command's word passes every check, the range checks because the command is well formed. -/
theorem encodeThenDecodeReturnsTheCommand : Obligations.EncodeThenDecodeReturnsTheCommand :=
  fun _ h => decode_encode h

/-- Settles O2: the decoder read backwards, `encode_of_decode`. -/
theorem decodedWordIsTheCommandsWord : Obligations.DecodedWordIsTheCommandsWord :=
  fun _ _ h => ⟨decode_command_wellFormed h, encode_of_decode h⟩

/-- Settles O3: by opcode; under each that exists, the checks of `decode_of_format` with the ranges of its command. -/
theorem decodeChecksInTheRulesOrder : Obligations.DecodeChecksInTheRulesOrder := by
  intro w
  dsimp only
  rw [← opField_toNat]
  rcases opField_cases w with h | ⟨op, hf, hi⟩ | ⟨op, hf, hi⟩ | ⟨op, hf, hi⟩ | ⟨op, hf, hi⟩ | ⟨op, hf, hi⟩ |
    ⟨op, hf, hi⟩ | ⟨op, hf, hi⟩
  · rw [if_pos h, decode_of_reserved_op h]
  all_goals rw [decode_of_format hf hi, op, rsvdMask]
  · simp [rangeError]
  · simp [rangeError]
  · simp [rangeError, portField, countField]
  · simp [rangeError, portField, countField]
  · rw [rangeError_dspSegs, chField, lenField, apply_ite (Option.elim · _ _), apply_ite (Option.elim · _ _)]
    simp [addrField, colonField]
  · rw [rangeError_dspNum, chField, apply_ite (Option.elim · _ _)]
    simp
  · rw [rangeError_dspClock, chField, apply_ite (Option.elim · _ _)]
    simp [colonField]

/-- Settles O5: an operand in range keeps its value in its field, and any other leaves the line without a command. -/
theorem assemblerNeverTruncates : Obligations.AssemblerNeverTruncates := by
  have two : ∀ {k}, k ≤ 2 → (BitVec.ofNat 2 k).toNat = k := fun h => Nat.mod_eq_of_lt (by omega)
  refine ⟨rfl, rfl, fun p n => ?_, fun p n => ?_, fun k a l c => ?_, fun k => ?_, fun k c => ?_⟩ <;> split
  case refine_1.isFalse h | refine_2.isFalse h | refine_3.isFalse h | refine_4.isFalse h | refine_5.isFalse h =>
    exact Asm.assemble_of_none (if_neg (by omega))
  case refine_1.isTrue h => -- LED_TX
    obtain ⟨ha, hd⟩ := Asm.assemble_of_instr (a := .ledTx p n) (if_pos (Nat.lt_succ_of_le h))
    exact ⟨_, _, ha, hd, Nat.mod_eq_of_lt (by omega)⟩
  case refine_2.isTrue h => -- LED_FILL
    obtain ⟨ha, hd⟩ := Asm.assemble_of_instr (a := .ledFill p n) (if_pos (Nat.lt_succ_of_le h))
    exact ⟨_, _, ha, hd, Nat.mod_eq_of_lt (by omega)⟩
  case refine_3.isTrue h => -- DSP_SEGS
    obtain ⟨ha, hd⟩ := Asm.assemble_of_instr (a := .dspSegs k a l c) (if_pos (by omega))
    obtain ⟨hk, hadr, hl⟩ := h
    exact ⟨_, _, _, _, ha, hd, two hk, Nat.mod_eq_of_lt (by omega), Nat.mod_eq_of_lt (by omega)⟩
  case refine_4.isTrue h => -- DSP_NUM
    obtain ⟨ha, hd⟩ := Asm.assemble_of_instr (a := .dspNum k) (if_pos (by omega))
    exact ⟨_, _, ha, hd, two h⟩
  case refine_5.isTrue h => -- DSP_CLOCK
    obtain ⟨ha, hd⟩ := Asm.assemble_of_instr (a := .dspClock k c) (if_pos (by omega))
    exact ⟨_, _, ha, hd, two h⟩

/-- Settles O4: fourteen words, each decoded. -/
theorem writtenOutWordsDecode : Obligations.WrittenOutWordsDecode := by
  unfold Obligations.WrittenOutWordsDecode
  decide

/-- Settles O17: the range check of the command answers before anything is accepted. -/
theorem rangeErrorsAreRecorded : Obligations.RangeErrorsAreRecorded := by
  refine fun s hs => ⟨exec_of_rangeError hs rfl, fun c => ?_, fun a len c => exec_of_rangeError hs rfl,
    fun ch a len c hch hlen => exec_of_rangeError hs ?_⟩
  · have word : ∀ c, encode (.dspClock 3#2 c) = 0x63000000#32 ||| (BitVec.ofBool c).setWidth 32 := by decide
    rw [← word]
    exact exec_of_rangeError hs rfl
  · rw [rangeError_dspSegs, if_neg hch, if_pos hlen]

end Sys2Proof.Machine
end

section
/-! SUPPORT. What a frame's bytes are, one by one, and how long it is (40_led_serializer.md R154, R155). -/

namespace Sys2Proof.Machine

open Sys2Proof

@[simp] theorem wordBytes_length (w : Word) : (wordBytes w).length = 4 := rfl

@[simp] theorem startFrame_length : startFrame.length = 4 := rfl

@[simp] theorem endFrame_length (n : Nat) : (endFrame n).length = endLen n := List.length_replicate

theorem flatMap_wordBytes_length (ws : List Word) : (ws.flatMap wordBytes).length = 4 * ws.length := by
  simp [List.length_flatMap, Nat.mul_comm]

theorem ledFrame_length (ws : List Word) : (ledFrame ws).length = 4 + 4 * ws.length + endLen ws.length := by
  simp only [ledFrame, List.length_append, startFrame_length, flatMap_wordBytes_length, endFrame_length]

theorem wordBytes_getElem? (w : Word) {j : Nat} (hj : j < 4) : (wordBytes w)[j]? = some (byteOf w j) := by
  interval_cases j <;> rfl

/-- Byte `j` of word `i` stands at place 4i + j. -/
theorem flatMap_wordBytes_getElem? {ws : List Word} {i j : Nat} {w : Word} (hw : ws[i]? = some w) (hj : j < 4) :
    (ws.flatMap wordBytes)[4 * i + j]? = some (byteOf w j) := by
  induction ws generalizing i with
  | nil => cases hw
  | cons v vs ih =>
    rw [List.flatMap_cons]
    cases i with
    | zero =>
      cases hw
      rw [Nat.mul_zero, Nat.zero_add, List.getElem?_append_left (by simpa using hj), wordBytes_getElem? _ hj]
    | succ i =>
      rw [List.getElem?_append_right (by simp; omega), wordBytes_length,
        show 4 * (i + 1) + j - 4 = 4 * i + j by omega]
      exact ih hw

end Sys2Proof.Machine
end

section
/-! SUPPORT. A strip's receiver on what the software port sends (40_led_serializer.md R142, 30_encoding.md R122). -/

namespace Sys2Proof.Machine

open Sys2Proof

/-- Each bit is on LED_DAT at the one rise of LED_CLK among its events. -/
theorem ledReceive_bits (dat : Bool) (bs : List Bool) : ledReceive dat (bs.flatMap ledBitEvents) = bs := by
  induction bs generalizing dat with
  | nil => rfl
  | cons b bs ih => exact congrArg (b :: ·) (ih b)

/-- The eight bits of a byte, packed again, are the byte. -/
theorem ofBool_append_bits (b : Byte) :
    BitVec.ofBool (b.getLsbD 7) ++ BitVec.ofBool (b.getLsbD 6) ++ BitVec.ofBool (b.getLsbD 5) ++
      BitVec.ofBool (b.getLsbD 4) ++ BitVec.ofBool (b.getLsbD 3) ++ BitVec.ofBool (b.getLsbD 2) ++
      BitVec.ofBool (b.getLsbD 1) ++ BitVec.ofBool (b.getLsbD 0) = b := by
  revert b
  decide

theorem bytesMsb_bitsMsb (bytes : List Byte) : bytesMsb (bytes.flatMap bitsMsb) = bytes := by
  induction bytes with
  | nil => rfl
  | cons b bs ih => exact congrArg₂ List.cons (ofBool_append_bits b) ih

end Sys2Proof.Machine
end

section
/-! SUPPORT. The number of holds (40_led_serializer.md R149, 41_display_engine.md R191). -/

namespace Sys2Proof.Machine

open Sys2Proof

theorem holdCount_append (u : Engine) (a b : List Event) : holdCount u (a ++ b) = holdCount u a + holdCount u b := by
  induction a with
  | nil => simp [holdCount]
  | cons e es ih => cases e <;> simp [holdCount, ih, Nat.add_assoc]

/-- Pieces with the same number of holds each. -/
theorem holdCount_flatMap {α : Type} {u : Engine} {f : α → List Event} {n : Nat} (h : ∀ x, holdCount u (f x) = n)
    (xs : List α) : holdCount u (xs.flatMap f) = n * xs.length := by
  induction xs with
  | nil => rfl
  | cons x xs ih => rw [List.flatMap_cons, holdCount_append, h, ih, List.length_cons]; ring

/-- Two holds a bit, sixteen a byte. -/
theorem holdCount_ledEvents (bytes : List Byte) : holdCount .lfs (ledEvents bytes) = 16 * bytes.length := by
  have bits : (bytes.flatMap bitsMsb).length = 8 * bytes.length := by
    simp [List.length_flatMap, bitsMsb, Nat.mul_comm]
  rw [ledEvents, holdCount_flatMap (fun _ => rfl : ∀ b, holdCount .lfs (ledBitEvents b) = 2), bits]
  ring

theorem holdCount_dspBitEvents (k : Chan) (t : Nat) (b : Bool) : holdCount .dpe (dspBitEvents k t b) = 2 := by
  cases b <;> rfl

/-- Two holds for each of the eight bits and two for the acknowledge. -/
theorem holdCount_dspByteEvents (k : Chan) (t : Nat) (lvl : Bool) (b : Byte) :
    holdCount .dpe (dspByteEvents k t lvl b) = 18 := by
  rw [dspByteEvents, holdCount_append, holdCount_flatMap (holdCount_dspBitEvents k t)]
  rfl

/-- Three holds for the start and three for the stop of a phase. -/
theorem holdCount_phaseEvents (k : Chan) (t : Nat) (lvl : Bool) (bytes : List Byte) :
    holdCount .dpe (phaseEvents k t lvl bytes) = 6 + 18 * bytes.length := by
  have start : holdCount .dpe (startEvents k t) = 3 := rfl
  have stop : holdCount .dpe (stopEvents k t) = 3 := rfl
  rw [phaseEvents, holdCount_append, holdCount_append, start, stop, holdCount_flatMap (holdCount_dspByteEvents k t lvl)]
  omega

end Sys2Proof.Machine
end

section
/-! SUPPORT. The LED commands: their acceptance, and what the LFS's turns make of a frame on each port
(40_led_serializer.md R143, R144, R148). -/

namespace Sys2Proof.Machine

open Sys2Proof

/-- A well-formed command with the host slot empty is accepted (60_exceptions.md R263). -/
theorem submitCommand_of_empty {i : Instr} (hw : i.wellFormed = true) {s : State} (hs : s.hostSlot = none)
    (acc : State → State) : submitCommand i s acc = acc { s with regs := { s.regs with cmd := encode i } } := by
  simp [submitCommand, hs, (rangeError_none_iff i).mpr hw]

/-- The state in which a command has just been accepted for an operation of the LFS: its word in the CMD read view, the
host slot and the request slot full (10_state.md R73). -/
def ledAccepted (i : Instr) (op : LfsOp) (s : State) : State :=
  queueLfs (encode i) op { s with regs := { s.regs with cmd := encode i } }

theorem exec_ledInit {s : State} (hs : s.hostSlot = none) : exec .ledInit s = .next (ledAccepted .ledInit .init s) :=
  congrArg Host.Outcome.next (submitCommand_of_empty rfl hs _)

theorem exec_ledTx (p : Port) (n : BitVec 10) {s : State} (hs : s.hostSlot = none) :
    exec (.ledTx p n) s = .next (ledAccepted (.ledTx p n) (.tx p n) s) :=
  congrArg Host.Outcome.next (submitCommand_of_empty rfl hs _)

theorem exec_ledFill (p : Port) (n : BitVec 10) {s : State} (hs : s.hostSlot = none) :
    exec (.ledFill p n) s = .next (ledAccepted (.ledFill p n) (.fill p n (colorOf s.regs.arg)) s) :=
  congrArg Host.Outcome.next (submitCommand_of_empty rfl hs _)

/-- An idle LFS without a request of the EVD starts the accepted operation. -/
theorem lfsStep_ledAccepted (i : Instr) (op : LfsOp) {s : State} (hlfs : s.lfs = none) (hevd : s.lfsEvdReq = none) :
    lfsStep (ledAccepted i op s) =
      lfsAdvance (lfsRunOf op .host s) (lfsActs op) { ledAccepted i op s with lfsHostReq := none } := by
  rw [lfsStep_start_host (s := ledAccepted i op s) hlfs hevd rfl]
  cases op <;> rfl

/-- A software-port frame, from its first micro-step to its end: the events of the frame go out and the requester is
told. -/
theorem lfs_frameSw_complete (r : LfsRun) (n : Nat) (s : State) :
    lfsSteps (frameTurns n) (lfsAdvance r (frameActsSw n) s) =
      complete r.owner (ledSent true (ledEvents (ledFrame (srcRead r.src 0 n s).1))
        { s with lfs := none, draws := (srcRead r.src 0 n s).2.draws }) := by
  rw [lfs_frameSw, srcRead_draws]
  rfl

theorem envApply_hwDone {s : State} (hr : s.env.rst = false) (hw : s.hwx = .waiting) :
    envApply .hwDone s = ({ s with hwx := .idle }).emit .hwDone := by
  simp only [envApply, hr, hwDone, hw]
  rfl

/-- The turn after HwDone ends a hand-off and tells the requester (40_led_serializer.md R148). -/
theorem lfsStep_envApply_hwDone (r : LfsRun) {s : State} (hr : s.env.rst = false) (hw : s.hwx = .waiting) :
    lfsStep (envApply .hwDone (lfsAdvance r [.awaitDone] s)) =
      complete r.owner { s with lfs := none, hwx := .idle, hist := s.hist ++ [.hwDone] } := by
  rw [envApply_hwDone (s := lfsAdvance r [.awaitDone] s) hr hw]
  exact lfsStep_awaitDone_idle r [] (({ s with hwx := .idle }).emit .hwDone) rfl

/-- A hardware-port frame: after the pixels and the hand-off the LFS has no step until HwDone, and the turn after it ends
the operation. -/
theorem lfs_frameHw_complete (r : LfsRun) (n : Nat) (s : State) (hf : r.frame = startFrame) (hr : s.env.rst = false) :
    ∃ u, lfsSteps (n + 1) (lfsAdvance r (frameActsHw n) s) = u ∧ u.hwx = .waiting ∧ u.lines = s.lines ∧
      u.hist = s.hist ++ [.hwXfer (ledFrame (srcRead r.src 0 n s).1)] ∧ lfsStep u = u ∧
      lfsStep (envApply .hwDone u) = complete r.owner { s with
        lfs := none, hwx := .idle, draws := (srcRead r.src 0 n s).2.draws
        hist := s.hist ++ [.hwXfer (ledFrame (srcRead r.src 0 n s).1), .hwDone] } := by
  obtain ⟨r', howner, h⟩ := lfs_frameHw r n s hf
  rw [srcRead_draws] at h
  refine ⟨_, h, rfl, rfl, rfl, lfsStep_awaitDone_waiting _ _ _ rfl, ?_⟩
  rw [lfsStep_envApply_hwDone r', howner]
  · simp only [emit_hist, List.append_assoc, List.cons_append, List.nil_append]
    rfl
  · exact hr
  · rfl

/-- An accepted software-port frame: its events go out and the host slot empties (40_led_serializer.md R143, R148). -/
theorem lfsSteps_software_of_accepted (i : Instr) {op : LfsOp} {n : Nat} {s : State} (hacts : lfsActs op = frameActsSw n)
    (hslot : s.hostSlot = none) (hlfs : s.lfs = none) (hevd : s.lfsEvdReq = none) :
    lfsSteps (1 + frameTurns n) (ledAccepted i op s) =
      ledSent true (ledEvents (ledFrame (srcRead (lfsSrc s op) 0 n s).1)) { s with
        regs := { s.regs with cmd := encode i }
        lfsHostReq := none
        draws := (srcRead (lfsSrc s op) 0 n s).2.draws } := by
  obtain ⟨hwords, hdraws⟩ :=
    srcRead_congr (lfsSrc s op) 0 n (s := { ledAccepted i op s with lfsHostReq := none }) (u := s) rfl rfl rfl
  rw [Nat.add_comm, lfsSteps_succ, lfsStep_ledAccepted i op hlfs hevd, hacts, lfs_frameSw_complete]
  simp only [lfsRunOf]
  rw [hwords, hdraws, hslot, hlfs]
  rfl

/-- A software-port frame the EVD has requested: nothing but its events, the lines and the request slot changes. -/
theorem lfsSteps_software_of_evdReq {op : LfsOp} {n : Nat} {s : State} (hacts : lfsActs op = frameActsSw n)
    (hlfs : s.lfs = none) (hreq : s.lfsEvdReq = some op) :
    lfsSteps (1 + frameTurns n) s =
      ledSent true (ledEvents (ledFrame (srcRead (lfsSrc s op) 0 n s).1)) { s with
        lfsEvdReq := none
        draws := (srcRead (lfsSrc s op) 0 n s).2.draws } := by
  obtain ⟨hwords, hdraws⟩ := srcRead_congr (lfsSrc s op) 0 n (s := { s with lfsEvdReq := none }) (u := s) rfl rfl rfl
  rw [Nat.add_comm, lfsSteps_succ, lfsStep_start_evd hlfs hreq, hacts, lfs_frameSw_complete]
  simp only [lfsRunOf]
  rw [hwords, hdraws, hlfs]
  rfl

/-- An accepted hardware-port frame: one hand-off, no line moved, no step until HwDone, and the host slot empty after it
(40_led_serializer.md R144, R148). -/
theorem lfsSteps_hardware_of_accepted (i : Instr) {op : LfsOp} {n : Nat} {s : State} (hacts : lfsActs op = frameActsHw n)
    (hslot : s.hostSlot = none) (hlfs : s.lfs = none) (hevd : s.lfsEvdReq = none) (hr : s.env.rst = false) :
    ∃ u, lfsSteps (n + 2) (ledAccepted i op s) = u ∧ u.hwx = .waiting ∧ u.lines = s.lines ∧
      u.hist = s.hist ++ [.hwXfer (ledFrame (srcRead (lfsSrc s op) 0 n s).1)] ∧ lfsStep u = u ∧
      lfsStep (envApply .hwDone u) = { s with
        regs := { s.regs with cmd := encode i }
        lfsHostReq := none
        hwx := .idle
        draws := (srcRead (lfsSrc s op) 0 n s).2.draws
        hist := s.hist ++ [.hwXfer (ledFrame (srcRead (lfsSrc s op) 0 n s).1), .hwDone] } := by
  obtain ⟨hwords, hdraws⟩ :=
    srcRead_congr (lfsSrc s op) 0 n (s := { ledAccepted i op s with lfsHostReq := none }) (u := s) rfl rfl rfl
  obtain ⟨u, hu, hwait, hlines, hhist, hstay, hdone⟩ :=
    lfs_frameHw_complete (lfsRunOf op .host s) n { ledAccepted i op s with lfsHostReq := none } rfl hr
  simp only [lfsRunOf, hwords, hdraws] at hhist hdone
  refine ⟨u, ?_, hwait, hlines, hhist, hstay, ?_⟩
  · rw [lfsSteps_succ, lfsStep_ledAccepted i op hlfs hevd, hacts, hu]
  · rw [hdone, hslot, hlfs]
    rfl

/-- A hardware-port frame the EVD has requested. -/
theorem lfsSteps_hardware_of_evdReq {op : LfsOp} {n : Nat} {s : State} (hacts : lfsActs op = frameActsHw n)
    (hlfs : s.lfs = none) (hreq : s.lfsEvdReq = some op) (hr : s.env.rst = false) :
    ∃ u, lfsSteps (n + 2) s = u ∧ u.hwx = .waiting ∧ lfsStep u = u ∧
      lfsStep (envApply .hwDone u) = { s with
        lfsEvdReq := none
        hwx := .idle
        draws := (srcRead (lfsSrc s op) 0 n s).2.draws
        hist := s.hist ++ [.hwXfer (ledFrame (srcRead (lfsSrc s op) 0 n s).1), .hwDone] } := by
  obtain ⟨hwords, hdraws⟩ := srcRead_congr (lfsSrc s op) 0 n (s := { s with lfsEvdReq := none }) (u := s) rfl rfl rfl
  obtain ⟨u, hu, hwait, -, -, hstay, hdone⟩ :=
    lfs_frameHw_complete (lfsRunOf op .evd s) n { s with lfsEvdReq := none } rfl hr
  simp only [lfsRunOf, hwords, hdraws] at hdone
  refine ⟨u, ?_, hwait, hstay, ?_⟩
  · rw [lfsSteps_succ, lfsStep_start_evd hlfs hreq, hacts, hu]
  · rw [hdone, hlfs]
    rfl

/-- A fill's word, written out (40_led_serializer.md R141). -/
theorem lfsSrc_fill (s : State) (p : Port) (n : BitVec 10) (color : BitVec 24) : lfsSrc s (.fill p n color) =
    .fill (color ++ s.par.hdrMarker ++ s.regs.ledcfg.extractLsb' 24 5) := rfl

end Sys2Proof.Machine
end

section
/-! SUPPORT. The output enables of the LED lines (40_led_serializer.md R147): only an output-enable step of the LFS sets
one, and only LED_INIT has such steps. -/

namespace Sys2Proof.Machine

open Sys2Proof

/-! ### Which micro-steps an operation has -/

theorem enable_notMem_ledByteActs (l : LedPin) (bytes : List Byte) : LfsAct.enable l ∉ bytes.flatMap ledByteActs := by
  simp [ledByteActs, ledBitActs]

theorem enable_notMem_frameActs (l : LedPin) (p : Port) (n : BitVec 10) : LfsAct.enable l ∉ frameActs p n := by
  cases p with
  | hardware => simp [frameActs, frameActsHw]
  | software => simp [frameActs, frameActsSw, enable_notMem_ledByteActs, -List.mem_flatMap]

theorem enable_notMem_lfsActs {op : LfsOp} (hop : op ≠ .init) (l : LedPin) : LfsAct.enable l ∉ lfsActs op := by
  cases op with
  | init => exact absurd rfl hop
  | tx p n => exact enable_notMem_frameActs l p n
  | fill p n c => exact enable_notMem_frameActs l p n

/-! ### The invariant -/

theorem ledEnableOk_of_lfs_eq {s u : State} (hl : u.lfs = s.lfs) (h : ledEnableOk s) : ledEnableOk u := by
  unfold ledEnableOk
  rw [hl]
  exact h

theorem ledEnableOk_of_none {s : State} (hl : s.lfs = none) : ledEnableOk s := by
  intro r hr
  rw [hl] at hr
  cases hr

/-- Going on with micro-steps of which only LED_INIT's enable an output keeps the invariant. -/
theorem ledEnableOk_lfsAdvance {r : LfsRun} {rest : List LfsAct} (h : r.op ≠ .init → ∀ l, LfsAct.enable l ∉ rest)
    (s : State) : ledEnableOk (lfsAdvance r rest s) := by
  rcases lfsAdvance_cases r rest s with ⟨-, e⟩ | ⟨-, e⟩ <;> rw [e]
  · obtain ⟨x, ec⟩ := complete_eq r.owner { s with lfs := none }
    rw [ec]
    exact ledEnableOk_of_none rfl
  · intro q hq
    cases hq
    exact h

theorem ledEnableOk_lfsStart (op : LfsOp) (o : Requester) (s : State) : ledEnableOk (lfsStart op o s) := by
  rw [lfsStart_eq]
  exact ledEnableOk_lfsAdvance (fun hop => enable_notMem_lfsActs hop) s

theorem ledEnableOk_lfsMicro {r : LfsRun} {s : State} (hr : s.lfs = some r) (h : ledEnableOk s) :
    ledEnableOk (lfsMicro r s) := by
  have htodo : r.op ≠ .init → ∀ l, LfsAct.enable l ∉ r.todo := h r hr
  have hrest : ∀ {a rest}, r.todo = a :: rest → r.op ≠ .init → ∀ l, LfsAct.enable l ∉ rest :=
    fun ht hop l hm => htodo hop l (ht ▸ List.mem_cons_of_mem _ hm)
  unfold lfsMicro
  split <;> rename_i ht
  case h_1 => exact ledEnableOk_lfsAdvance (r := r) (rest := []) (fun _ _ => List.not_mem_nil) s
  case h_5 => -- a pixel is taken: the micro-steps of its bytes enable nothing
    refine ledEnableOk_lfsAdvance (fun hop l hm => ?_) _
    rcases List.mem_append.mp hm with hm | hm
    · exact enable_notMem_ledByteActs l _ hm
    · exact hrest ht hop l hm
  case h_8 => -- the wait
    split
    · exact ledEnableOk_lfsAdvance (hrest ht) s
    · exact h
  all_goals
    refine ledEnableOk_lfsAdvance ?_ _
    exact hrest ht

theorem ledEnableOk_lfsStep {s : State} (h : ledEnableOk s) : ledEnableOk (lfsStep s) := by
  rcases lfsStep_cases s with ⟨-, -, -, e⟩ | ⟨op, -, -, e⟩ | ⟨op, -, -, -, e⟩ | ⟨r, hr, e⟩ <;> rw [e]
  · exact h
  · exact ledEnableOk_lfsStart op .evd _
  · exact ledEnableOk_lfsStart op .host _
  · exact ledEnableOk_lfsMicro hr h

/-! ### What else leaves the LFS alone -/

@[simp] theorem raiseError_lfs (c : ErrCode) (w : Word) (s : State) : (raiseError c w s).lfs = s.lfs := by
  rcases raiseError_cases c w s with ⟨-, e⟩ | ⟨-, e⟩ <;> rw [e]

@[simp] theorem writeReg_lfs (r : RegName) (v : Word) (s : State) : (writeReg r v s).lfs = s.lfs := by rw [writeReg_eq]

theorem exec_lfs {i : Instr} {s t : State} (h : exec i s = .next t) : t.lfs = s.lfs := by
  rcases exec_cases h with ⟨c, -, rfl⟩ | ⟨-, rfl | ⟨op, rfl⟩ | ⟨op, rfl⟩⟩
  · exact raiseError_lfs c _ s
  all_goals rfl

@[simp] theorem evdStep_lfs (p : Source) (s : State) : (evdStep p s).lfs = s.lfs := by
  obtain ⟨g, e, t, a, q, es, h⟩ := evdStep_eq p s
  rw [h]

@[simp] theorem dpeStep_lfs (s : State) : (dpeStep s).lfs = s.lfs := by
  obtain ⟨l, g, es, hs, a, b, r, h, -⟩ := dpeStep_frame s
  rw [h]

theorem ledEnableOk_envApply (e : EnvEvent) {s : State} (h : ledEnableOk s) : ledEnableOk (envApply e s) := by
  rcases envApply_cases e s with ⟨-, he⟩ | ⟨i, g, x, t, es, he, -⟩ <;> rw [he]
  · exact ledEnableOk_of_none rfl
  · exact h

/-! ### The outputs -/

/-- An LED output is not enabled (10_state.md R60). -/
def outputOff (l : LedPin) (s : State) : Prop := (s.lines.led l).oe = false

theorem outputOff_of_lines_eq {l : LedPin} {s u : State} (hl : u.lines = s.lines) (h : outputOff l s) :
    outputOff l u := by
  unfold outputOff
  rw [hl]
  exact h

theorem outputOff_resetBlock (l : LedPin) (s : State) : outputOff l (resetBlock s) := by
  cases l <;> rfl

theorem lfsAdvance_lines (r : LfsRun) (rest : List LfsAct) (s : State) : (lfsAdvance r rest s).lines = s.lines := by
  rcases lfsAdvance_cases r rest s with ⟨-, e⟩ | ⟨-, e⟩ <;> rw [e]
  obtain ⟨x, ec⟩ := complete_eq r.owner { s with lfs := none }
  rw [ec]

theorem outputOff_driveLed {l : LedPin} {s : State} (h : outputOff l s) (p : LedPin) (v : Bool) :
    outputOff l (driveLed p v s) := by
  cases p <;> cases l <;> exact h

theorem outputOff_enableLed {l p : LedPin} {s : State} (h : outputOff l s) (hp : p ≠ l) :
    outputOff l (enableLed p s) := by
  cases p <;> cases l
  case dat.dat => exact absurd rfl hp
  case clk.clk => exact absurd rfl hp
  all_goals exact h

/-- Only an output-enable step enables an output. -/
theorem outputOff_lfsMicro {l : LedPin} {r : LfsRun} {s : State} (hl : LfsAct.enable l ∉ r.todo) (h : outputOff l s) :
    outputOff l (lfsMicro r s) := by
  have adv : ∀ (q : LfsRun) (rest : List LfsAct) (u : State), outputOff l u → outputOff l (lfsAdvance q rest u) :=
    fun q rest u => outputOff_of_lines_eq (lfsAdvance_lines q rest u)
  unfold lfsMicro
  split <;> rename_i ht
  case h_1 => exact adv r [] s h
  case h_2 => exact adv r _ _ (outputOff_driveLed h _ _)
  case h_3 p rest => exact adv r _ _ (outputOff_enableLed h fun hp => hl (by rw [ht, hp]; exact List.mem_cons_self))
  case h_4 => exact adv r _ _ h
  case h_5 => exact adv r _ _ (by rw [afterSrcRead_eq]; exact h)
  case h_6 => exact adv _ _ _ (by rw [afterSrcRead_eq]; exact h)
  case h_7 => exact adv _ _ _ h
  case h_8 =>
    split
    · exact adv r _ s h
    · exact h

/-- While the LFS does not run LED_INIT its turn enables no output. -/
theorem outputOff_lfsStep {l : LedPin} {s : State} (hok : ledEnableOk s) (hinit : ∀ r, s.lfs = some r → r.op ≠ .init)
    (h : outputOff l s) : outputOff l (lfsStep s) := by
  rcases lfsStep_cases s with ⟨-, -, -, e⟩ | ⟨op, -, -, e⟩ | ⟨op, -, -, -, e⟩ | ⟨r, hr, e⟩ <;> rw [e]
  · exact h
  · exact h
  · exact h
  · exact outputOff_lfsMicro (hok r hr (hinit r hr) l) h

theorem outputOff_dpeStep {l : LedPin} {s : State} (h : outputOff l s) : outputOff l (dpeStep s) := by
  obtain ⟨ls, g, es, hs, a, b, r, e, hdat, hclk, -⟩ := dpeStep_frame s
  rw [e]
  cases l with
  | dat => exact (congrArg LedLine.oe hdat).trans h
  | clk => exact (congrArg LedLine.oe hclk).trans h

@[simp] theorem evdStep_lines (p : Source) (s : State) : (evdStep p s).lines = s.lines := by
  obtain ⟨g, e, t, a, q, es, h⟩ := evdStep_eq p s
  rw [h]

@[simp] theorem raiseError_lines (c : ErrCode) (w : Word) (s : State) : (raiseError c w s).lines = s.lines := by
  rcases raiseError_cases c w s with ⟨-, e⟩ | ⟨-, e⟩ <;> rw [e]

@[simp] theorem writeReg_lines (r : RegName) (v : Word) (s : State) : (writeReg r v s).lines = s.lines := by
  rw [writeReg_eq]

theorem exec_lines {i : Instr} {s t : State} (h : exec i s = .next t) : t.lines = s.lines := by
  rcases exec_cases h with ⟨c, -, rfl⟩ | ⟨-, rfl | ⟨op, rfl⟩ | ⟨op, rfl⟩⟩
  · exact raiseError_lines c _ s
  all_goals rfl

@[simp] theorem afterMemRead_lines (a : Addr) (s : State) : (afterMemRead a s).lines = s.lines := by
  rcases afterMemRead_cases a s with ⟨c, w, -, e⟩ | ⟨n, e⟩ <;> rw [e]
  exact raiseError_lines c w s

theorem memWrite_lines {a : Addr} {v : Word} {s t : State} (h : memWrite a v s = .next t) : t.lines = s.lines := by
  rcases memWrite_cases h with ⟨c, w, -, rfl⟩ | ⟨i, -, rfl⟩ | ⟨r, rfl⟩ | ⟨-, i, -, he⟩
  · exact raiseError_lines c w s
  · exact pixWrite_lines i v s
  · exact writeReg_lines r v s
  · exact exec_lines he

/-- While the LFS does not run LED_INIT no agent's step enables an output. -/
theorem outputOff_moveStep {l : LedPin} {m : Move} {s u : State} (hok : ledEnableOk s)
    (hinit : ∀ r, s.lfs = some r → r.op ≠ .init) (h : outputOff l s) (hm : moveStep m s = .next u) : outputOff l u := by
  rcases moveStep_cases hm with ⟨a, -, rfl⟩ | ⟨a, v, -, hw⟩ | ⟨p, -, rfl⟩ | ⟨-, rfl⟩ | ⟨-, rfl⟩ | ⟨-, rfl⟩
  · exact outputOff_of_lines_eq (afterMemRead_lines a s) h
  · exact outputOff_of_lines_eq (memWrite_lines hw) h
  · exact outputOff_of_lines_eq (evdStep_lines p s) h
  · exact outputOff_lfsStep hok hinit h
  · exact outputOff_dpeStep h
  · exact h

/-- ENV enables no output: it leaves the lines alone, or resets the block. -/
theorem outputOff_endTurn {l : LedPin} (es : List EnvEvent) {s : State} (h : outputOff l s) :
    outputOff l (endTurn es s) := by
  refine endTurn_keeps (P := outputOff l) (fun e u hu => ?_) (fun _ _ hu => hu) es h
  rcases envApply_cases e u with ⟨-, he⟩ | ⟨i, g, x, t, evs, he, -⟩ <;> rw [he]
  · exact outputOff_resetBlock l _
  · exact hu

end Sys2Proof.Machine
end

section
/-! The obligations of 40_led_serializer.md. -/

namespace Sys2Proof.Machine

open Sys2Proof

/-- Settles O6: acceptance of NOP is the CMD read view alone; a word of opcode 0 whose reserved bits are all 0 is NOP's
word, 0. -/
theorem nopChangesOnlyTheCmdReadView : Obligations.NopChangesOnlyTheCmdReadView := by
  refine ⟨fun s hs => congrArg Host.Outcome.next (submitCommand_of_empty rfl hs id),
    fun s c hs => exec_of_full .nop (by rw [hs]; rfl), fun w hop hw => ?_⟩
  have hop : opField w = 0#4 := hop
  have hf : formatOf (opField w) = some .z := by rw [hop]; rfl
  have hi : assembleFields w = some .nop := by rw [assembleFields, hop]; rfl
  rw [decode_of_format hf hi, if_neg]
  intro hm
  exact hw (encode_of_assembleFields hf hi hm).symm

/-- Settles O8: the start and the four steps, one lemma each. -/
theorem ledInitEnablesBothOutputsAtZero : Obligations.LedInitEnablesBothOutputsAtZero := by
  intro s hslot hlfs hevd
  refine ⟨_, exec_ledInit hslot, rfl, ?_⟩
  rw [lfsSteps_succ, lfsStep_ledAccepted _ _ hlfs hevd]
  simp only [lfsActs, ledInitActs, lfsSteps, lfsStep_drive, lfsStep_enable, enableLed, driveLed, State.emit,
    List.append_assoc, List.cons_append, List.nil_append]
  rw [hslot, hlfs]
  rfl

/-- Settles O9: the frame of the pixels as they read. -/
theorem ledTxSoftwareSendsTheFrame : Obligations.LedTxSoftwareSendsTheFrame := by
  intro n s hslot hlfs hevd
  refine ⟨_, exec_ledTx .software n hslot, rfl, ?_⟩
  rw [lfsSteps_software_of_accepted _ rfl hslot hlfs hevd, lfsSrc, srcRead_ram]
  rfl

/-- Settles O10: the hand-off of that frame. -/
theorem ledTxHardwareHandsTheFrameOver : Obligations.LedTxHardwareHandsTheFrameOver := by
  intro n s hslot hlfs hevd hr
  obtain ⟨u, hu, hwait, hlines, hhist, hstay, hdone⟩ :=
    lfsSteps_hardware_of_accepted (.ledTx .hardware n) (op := .tx .hardware n) rfl hslot hlfs hevd hr
  rw [lfsSrc, srcRead_ram] at hhist hdone
  exact ⟨_, u, exec_ledTx .hardware n hslot, rfl, hu, hwait, hlines, hhist, hstay, hdone⟩

/-- Settles O11: every pixel of a fill is the fill word, and taking it reads nothing. -/
theorem ledFillSoftwareSendsOneColour : Obligations.LedFillSoftwareSendsOneColour := by
  refine ⟨fun n s hslot hlfs hevd => ⟨_, exec_ledFill .software n hslot, rfl, ?_⟩, fun n color s hlfs hreq => ?_⟩
  · rw [lfsSteps_software_of_accepted _ rfl hslot hlfs hevd, lfsSrc_fill, srcRead_fill]
    rfl
  · rw [lfsSteps_software_of_evdReq rfl hlfs hreq, lfsSrc_fill, srcRead_fill]
    rfl

/-- Settles O12: the hand-off of that frame, for the host and for the EVD. -/
theorem ledFillHardwareHandsOneColourOver : Obligations.LedFillHardwareHandsOneColourOver := by
  refine ⟨fun n s hslot hlfs hevd hr => ?_, fun n color s hlfs hreq hr => ?_⟩
  · obtain ⟨u, hu, hwait, -, -, hstay, hdone⟩ := lfsSteps_hardware_of_accepted (.ledFill .hardware n)
      (op := .fill .hardware n (colorOf s.regs.arg)) rfl hslot hlfs hevd hr
    rw [lfsSrc_fill, srcRead_fill] at hdone
    exact ⟨_, u, exec_ledFill .hardware n hslot, rfl, hu, hwait, hstay, hdone⟩
  · obtain ⟨u, hu, hwait, hstay, hdone⟩ := lfsSteps_hardware_of_evdReq rfl hlfs hreq hr
    rw [lfsSrc_fill, srcRead_fill] at hdone
    exact ⟨u, hu, hwait, hstay, hdone⟩

/-- Settles O36: each operation a step is made of keeps the invariant; and while the LFS does not run LED_INIT each keeps
an output that is off. -/
theorem onlyLedInitEnablesAnOutput : Obligations.OnlyLedInitEnablesAnOutput := by
  intro s s' hs h
  constructor
  · refine @step_keeps ledEnableOk ?hown ?hreset ?herr ?hpix ?hreg ?hcmd ?hevd ?hlfs ?hdpe ?henv ?hobs s s' hs h
    case hown => exact fun _ _ _ _ _ hu => hu
    case hreset => exact fun _ _ => ledEnableOk_of_none rfl
    case herr => exact fun c w u _ => ledEnableOk_of_lfs_eq (raiseError_lfs c w u)
    case hpix => exact fun _ _ _ _ hu => hu
    case hreg => exact fun r v u => ledEnableOk_of_lfs_eq (writeReg_lfs r v u)
    case hcmd => exact fun _ _ _ _ he => ledEnableOk_of_lfs_eq (exec_lfs he)
    case hevd => exact fun p u => ledEnableOk_of_lfs_eq (evdStep_lfs p u)
    case hlfs => exact fun _ => ledEnableOk_lfsStep
    case hdpe => exact fun u => ledEnableOk_of_lfs_eq (dpeStep_lfs u)
    case henv => exact fun e _ => ledEnableOk_envApply e
    case hobs => exact fun _ _ hu => hu
  · intro l hoff hon
    by_contra hinit
    have hinit : ∀ r, s.lfs = some r → r.op ≠ .init := fun r hr hop => hinit ⟨r, hr, hop⟩
    have hstays : outputOff l s' := by
      obtain ⟨as, n, hp⟩ := popTurn_eq s
      rcases step_cases h with ⟨-, -, rfl⟩ | ⟨-, u, hu, rfl⟩
      · exact outputOff_endTurn _ (outputOff_resetBlock l _)
      · rw [hp] at hu
        exact outputOff_endTurn _ (outputOff_moveStep (s := { s with agenda := as, turns := n }) hs hinit hoff hu)
    cases hstays.symm.trans hon

/-- Settles O56: byte by byte, the start frame, the words, the end frame. -/
theorem frameCarriesItsPixels : Obligations.FrameCarriesItsPixels := by
  intro ws
  have hend : endLen ws.length = (ws.length + 15) / 16 + 1 := rfl
  have hhead : (startFrame ++ ws.flatMap wordBytes).length = 4 + 4 * ws.length := by
    rw [List.length_append, startFrame_length, flatMap_wordBytes_length]
  refine ⟨ledFrame_length ws, fun i hi => ?_, fun i j w hw hj => ?_, ?_, by omega, by omega, by omega⟩
  · rw [ledFrame, List.append_assoc, List.getElem?_append_left hi]
    interval_cases i <;> rfl
  · have hi : i < ws.length := (List.getElem?_eq_some_iff.mp hw).1
    rw [ledFrame, List.getElem?_append_left (by omega), Nat.add_assoc, List.getElem?_append_right (by simp),
      startFrame_length, Nat.add_sub_cancel_left, flatMap_wordBytes_getElem? hw hj]
    rfl
  · rw [ledFrame, ← hhead, List.drop_left]
    rfl

/-- Settles O57: the receiver gets the bits, and the bits packed are the bytes. -/
theorem stripReceivesTheBytesSent : Obligations.StripReceivesTheBytesSent := by
  intro dat bytes
  rw [ledEvents, ledReceive_bits, bytesMsb_bitsMsb]

/-- Settles O59: sixteen holds for each byte of the frame; six for each of the three phases and eighteen for each of the
3 + m bytes of a segment write. -/
theorem holdsAreCounted : Obligations.HoldsAreCounted := by
  refine ⟨fun ws => by rw [holdCount_ledEvents, ledFrame_length], fun k t lvl addr segs colon nibble => ?_⟩
  simp only [phasesEvents, segPhases, List.flatMap_cons, List.flatMap_nil, holdCount_append, holdCount_phaseEvents,
    List.length_cons, List.length_map, List.length_nil, holdCount]
  omega

end Sys2Proof.Machine
end

section
/-! SUPPORT. The display bus (41_display_engine.md R170, R179): what each operation of a step makes of the channels' lines
and of the micro-steps left to do. -/

namespace Sys2Proof.Machine

open Sys2Proof

theorem busOk_none_iff {s : State} (h : s.dpe = none) : busOk s ↔ ∀ k, chanLines s k = (.z, .z) := by
  simp only [busOk, h]

/-- While an operation runs, its own channel's lines are released by the micro-steps left; the others are released. -/
theorem busOk_some_iff {s : State} {r : DpeRun} (h : s.dpe = some r) :
    busOk s ↔ linesAfter r.todo (chanLines s r.chan) = (.z, .z) ∧ ∀ j, j ≠ r.chan → chanLines s j = (.z, .z) := by
  simp only [busOk, h]
  constructor
  · intro hk
    exact ⟨by simpa using hk r.chan, fun j hj => by simpa [Ne.symm hj] using hk j⟩
  · rintro ⟨hown, hother⟩ k
    split
    · subst k; exact hown
    · rename_i hk; exact hother k (Ne.symm hk)

theorem busOk_congr {s u : State} (hdpe : u.dpe = s.dpe) (hdclk : u.lines.dclk = s.lines.dclk)
    (hddio : u.lines.ddio = s.lines.ddio) (h : busOk s) : busOk u := by
  simp only [busOk, chanLines, hdpe, hdclk, hddio] at h ⊢
  exact h

/-- Going on with micro-steps that release the lines of the run's channel, or ending with them released. -/
theorem busOk_dpeAdvance {r : DpeRun} {rest : List DpeAct} {s : State}
    (hown : linesAfter rest (chanLines s r.chan) = (.z, .z)) (hother : ∀ j, j ≠ r.chan → chanLines s j = (.z, .z)) :
    busOk (dpeAdvance r rest s) := by
  rcases dpeAdvance_cases r rest s with ⟨hnil, e⟩ | ⟨-, e⟩ <;> rw [e]
  · obtain ⟨x, ec⟩ := complete_eq r.owner { s with dpe := none }
    rw [ec, busOk_none_iff rfl]
    intro k
    by_cases hk : k = r.chan
    · subst k hnil
      exact hown
    · exact hother k hk
  · exact (busOk_some_iff (r := { r with todo := rest }) rfl).mpr ⟨hown, hother⟩

/-- An operation starts from released lines, and its micro-steps release them again (41_display_engine.md R179). -/
theorem busOk_dpeStart (op : DpeOp) (o : Requester) {s : State} (h : ∀ k, chanLines s k = (.z, .z)) :
    busOk (dpeStart op o s) := by
  rw [dpeStart_eq]
  refine busOk_dpeAdvance ?_ fun j _ => h j
  rw [h]
  exact linesAfter_dpeActs _ _ op

theorem busOk_dpeMicro {r : DpeRun} {s : State} (hr : s.dpe = some r) (h : busOk s) : busOk (dpeMicro r s) := by
  obtain ⟨hown, hother⟩ := (busOk_some_iff hr).mp h
  obtain ⟨l, g, e, r', rest, hothers, -, -, -, -, -, hchan, -, -, hlines, hmicro⟩ := dpeMicro_cases r s
  rw [hmicro]
  refine busOk_dpeAdvance ?_ fun j hj => ?_ <;> rw [hchan] at *
  · exact hlines.symm.trans hown
  · obtain ⟨hdclk, hddio⟩ := hothers j hj
    exact (congrArg₂ Prod.mk hdclk hddio).trans (hother j hj)

theorem busOk_dpeStep {s : State} (h : busOk s) : busOk (dpeStep s) := by
  rcases dpeStep_cases s with ⟨-, -, -, e⟩ | ⟨op, hd, -, e⟩ | ⟨op, hd, -, -, e⟩ | ⟨r, hr, e⟩ <;> rw [e]
  · exact h
  · exact busOk_dpeStart op .evd ((busOk_none_iff hd).mp h)
  · exact busOk_dpeStart op .host ((busOk_none_iff hd).mp h)
  · exact busOk_dpeMicro hr h

/-- The LFS moves LED lines only. -/
theorem busOk_lfsStep {s : State} (h : busOk s) : busOk (lfsStep s) := by
  obtain ⟨l, x, n, es, hs, a, b, r, e, hdclk, hddio⟩ := lfsStep_frame s
  rw [e]
  exact busOk_congr (s := s) rfl hdclk hddio h

theorem busOk_evdStep (p : Source) {s : State} (h : busOk s) : busOk (evdStep p s) := by
  obtain ⟨g, e, t, a, q, es, he⟩ := evdStep_eq p s
  rw [he]
  exact h

theorem busOk_raiseError (c : ErrCode) (w : Word) {s : State} (h : busOk s) : busOk (raiseError c w s) := by
  rcases raiseError_cases c w s with ⟨-, e⟩ | ⟨-, e⟩ <;> rw [e] <;> exact h

/-- A command moves no line at its CMD write: it is rejected, or it waits in a request slot. -/
theorem busOk_exec {i : Instr} {s t : State} (he : exec i s = .next t) (h : busOk s) : busOk t := by
  rcases exec_cases he with ⟨c, -, rfl⟩ | ⟨-, rfl | ⟨op, rfl⟩ | ⟨op, rfl⟩⟩
  · exact busOk_raiseError c _ h
  all_goals exact h

theorem busOk_resetBlock (s : State) : busOk (resetBlock s) := busOk_resetWith s.par s.env

theorem busOk_envApply (e : EnvEvent) {s : State} (h : busOk s) : busOk (envApply e s) := by
  rcases envApply_cases e s with ⟨-, he⟩ | ⟨i, g, x, t, es, he, -⟩ <;> rw [he]
  · exact busOk_resetBlock _
  · exact h

end Sys2Proof.Machine
end

section
/-! SUPPORT. The display commands: their acceptance, and what the DPE's turns make of a segment write
(41_display_engine.md R185, R190, R192). -/

namespace Sys2Proof.Machine

open Sys2Proof

theorem chanOk_of_chanOf {ch : BitVec 2} {k : Chan} (h : chanOf ch = some k) : chanOk ch = true := by
  have : ∀ ch : BitVec 2, (chanOf ch).isSome = true → chanOk ch = true := by decide
  exact this ch (by rw [h]; rfl)

theorem queueOnChan_of_chanOf {ch : BitVec 2} {k : Chan} (h : chanOf ch = some k) (w : Word) (op : Chan → DpeOp)
    (s : State) : queueOnChan ch w op s = queueDpe w (op k) s := by
  simp only [queueOnChan, h]

/-- The state in which a command has just been accepted for an operation of the DPE: its word in the CMD read view, the
host slot and the request slot full (10_state.md R73). -/
def dspAccepted (i : Instr) (op : DpeOp) (s : State) : State :=
  queueDpe (encode i) op { s with regs := { s.regs with cmd := encode i } }

theorem submitCommand_dspAccepted {i : Instr} (hw : i.wellFormed = true) {ch : BitVec 2} {k : Chan}
    (hch : chanOf ch = some k) {s : State} (hs : s.hostSlot = none) (op : Chan → DpeOp) :
    submitCommand i s (queueOnChan ch (encode i) op) = dspAccepted i (op k) s :=
  (submitCommand_of_empty hw hs _).trans (queueOnChan_of_chanOf hch _ _ _)

theorem exec_dspSegs {ch : BitVec 2} {k : Chan} {len : BitVec 3} {s : State} (hch : chanOf ch = some k)
    (hlen : len.toNat ≤ 4) (hs : s.hostSlot = none) (addr : BitVec 2) (colon : Bool) :
    exec (.dspSegs ch addr len colon) s = .next (dspAccepted (.dspSegs ch addr len colon)
      (.segs k addr ((List.range len.toNat).map fun i => s.regs.segbuf.extractLsb' (8 * i) 8) colon) s) := by
  have hw : (Instr.dspSegs ch addr len colon).wellFormed = true :=
    Bool.and_eq_true_iff.mpr ⟨chanOk_of_chanOf hch, decide_eq_true hlen⟩
  rw [← segBytes_eq _ hlen]
  exact congrArg Host.Outcome.next (submitCommand_dspAccepted hw hch hs _)

theorem exec_dspNum {ch : BitVec 2} {k : Chan} {s : State} (hch : chanOf ch = some k) (hs : s.hostSlot = none) :
    exec (.dspNum ch) s = .next (dspAccepted (.dspNum ch) (.num k s.regs.arg) s) :=
  congrArg Host.Outcome.next
    (submitCommand_dspAccepted (i := .dspNum ch) (chanOk_of_chanOf hch) hch hs fun k => .num k s.regs.arg)

theorem exec_dspClock {ch : BitVec 2} {k : Chan} {s : State} (hch : chanOf ch = some k) (hs : s.hostSlot = none)
    (colon : Bool) :
    exec (.dspClock ch colon) s = .next (dspAccepted (.dspClock ch colon) (.clock k s.regs.arg colon) s) :=
  congrArg Host.Outcome.next
    (submitCommand_dspAccepted (i := .dspClock ch colon) (chanOk_of_chanOf hch) hch hs fun k => .clock k s.regs.arg colon)

theorem dpeSteps_succ (k : Nat) (s : State) : dpeSteps (k + 1) s = dpeSteps k (dpeStep s) := rfl

theorem dpeSteps_two (s : State) : dpeSteps 2 s = dpeStep (dpeStep s) := rfl

/-- An idle DPE without a request of the EVD starts the accepted operation. -/
theorem dpeStep_dspAccepted (i : Instr) (op : DpeOp) {s : State} (hdpe : s.dpe = none) (hevd : s.dpeEvdReq = none) :
    dpeStep (dspAccepted i op s) =
      dpeAdvance (dpeRunOf op .host s) (dpeActs s.par.segRom (nibbleOf s.regs (dpeChan op)) op)
        { dspAccepted i op s with dpeHostReq := none } :=
  dpeStep_start_host (s := dspAccepted i op s) hdpe hevd rfl

/-- The state in which a segment write on channel `k` has ended: its events emitted, the lines of its channel released,
one acknowledge for each of its 3 + m bytes recorded, all with the level the display holds (41_display_engine.md R190). -/
def segsWritten (k : Chan) (addr : BitVec 2) (segs : List Byte) (colon : Bool) (s : State) : State :=
  { dspMoved k .z .z (phasesEvents k (bitDlyOf s.regs k).toNat (!s.env.dioPull.get k)
      (segPhases addr segs colon (nibbleOf s.regs k))) s with
    regs := recordAcks s.regs (List.replicate (3 + segs.length) (s.env.dioPull.get k)) k }

/-- An accepted operation that is a segment write: the write goes out and the host slot empties. -/
theorem dpeSteps_of_accepted (i : Instr) {op : DpeOp} {addr : BitVec 2} {segs : List Byte} {colon : Bool} {s : State}
    (hacts : ∀ nibble, dpeActs s.par.segRom nibble op = segWriteActs addr segs colon nibble)
    (hslot : s.hostSlot = none) (hdpe : s.dpe = none) (hevd : s.dpeEvdReq = none) :
    dpeSteps (1 + segWriteTurns segs.length) (dspAccepted i op s) =
      segsWritten (dpeChan op) addr segs colon
        { s with regs := { s.regs with cmd := encode i }, dpeHostReq := none } := by
  rw [Nat.add_comm, dpeSteps_succ, dpeStep_dspAccepted i op hdpe hevd, hacts, dpe_segWrite _ _ _ _ _ _ rfl]
  show complete .host _ = _
  simp only [complete, segsWritten, dspMoved, dpeRunOf]
  rw [hslot, hdpe]
  rfl

/-- A segment write the EVD has requested: nothing but what the write changes and the request slot changes. -/
theorem dpeSteps_of_evdReq {op : DpeOp} {addr : BitVec 2} {segs : List Byte} {colon : Bool} {s : State}
    (hacts : ∀ nibble, dpeActs s.par.segRom nibble op = segWriteActs addr segs colon nibble)
    (hdpe : s.dpe = none) (hreq : s.dpeEvdReq = some op) :
    dpeSteps (1 + segWriteTurns segs.length) s =
      segsWritten (dpeChan op) addr segs colon { s with dpeEvdReq := none } := by
  rw [Nat.add_comm, dpeSteps_succ, dpeStep_start_evd hdpe hreq, hacts, dpe_segWrite _ _ _ _ _ _ rfl]
  show complete .evd _ = _
  simp only [complete, segsWritten, dspMoved, dpeRunOf]
  rw [hdpe]

/-- A number from 0 on is written at address 0 without colon (41_display_engine.md R200). -/
theorem dpeActs_num {v : Word} (hv : 0 ≤ v.toInt) (rom : Vector Byte 19) (nibble : BitVec 4) (k : Chan) :
    dpeActs rom nibble (.num k v) = segWriteActs 0#2 (renderNum rom v.toInt.toNat) false nibble :=
  if_neg (Int.not_lt.mpr hv)

/-- A negative number sends nothing (41_display_engine.md R200). -/
theorem dpeActs_num_negative {v : Word} (hv : v.toInt < 0) (rom : Vector Byte 19) (nibble : BitVec 4) (k : Chan) :
    dpeActs rom nibble (.num k v) = [.skip] := if_pos hv

end Sys2Proof.Machine
end

section
/-! SUPPORT. The sample and the record of the acknowledges (41_display_engine.md R178, R190, 10_state.md R41). -/

namespace Sys2Proof.Machine

open Sys2Proof

/-- A DDIO line is 1 exactly while neither the block nor the display pulls it low (10_state.md R61). -/
theorem dioLevel_eq (s : State) (k : Chan) :
    dioLevel s k = (decide (s.lines.ddio.get k = .z) && !s.env.dioPull.get k) := by
  unfold dioLevel
  cases s.lines.ddio.get k <;> rfl

theorem bitsNat_testBit (bs : List Bool) (i : Nat) : (bitsNat bs).testBit i = bs.getD i false := by
  induction bs generalizing i with
  | nil => simp [bitsNat]
  | cons b bs ih =>
    cases i with
    | zero => cases b <;> simp [bitsNat]
    | succ i =>
      have hdiv : bitsNat (b :: bs) / 2 = bitsNat bs := by
        have hb : b.toNat < 2 := b.toNat_lt
        rw [bitsNat]
        omega
      rw [Nat.testBit_succ, hdiv, ih, List.getD_cons_succ]

/-- ACK: bit i of DACK is the acknowledge of byte i. -/
theorem dackWord_ack (acks : List Bool) (k : Chan) {i : Nat} (hi : i < 7) :
    (dackWord acks k).getLsbD i = acks.getD i false := by
  rw [dackWord, BitVec.getLsbD_append, if_pos hi, BitVec.getLsbD_ofNat, decide_eq_true hi, Bool.true_and,
    bitsNat_testBit]

theorem dackWord_count (acks : List Bool) (k : Chan) :
    (dackWord acks k).extractLsb' 8 3 = BitVec.ofNat 3 acks.length := by
  unfold dackWord
  generalize BitVec.ofNat 3 acks.length = n
  ext i hi
  simp only [BitVec.getElem_extractLsb', BitVec.getLsbD_append]
  interval_cases i <;> simp

theorem dackWord_chan (acks : List Bool) (k : Chan) : (dackWord acks k).extractLsb' 12 2 = chanBits k := by
  unfold dackWord
  generalize chanBits k = c
  ext i hi
  simp only [BitVec.getElem_extractLsb', BitVec.getLsbD_append]
  interval_cases i <;> simp

/-- The sample of a run that goes on. -/
theorem dpeStep_of_sample {s : State} {r : DpeRun} {a : DpeAct} {rest : List DpeAct} (hr : s.dpe = some r)
    (ht : r.todo = .sample :: a :: rest) :
    dpeStep s = { s with
      dpe := some { r with todo := a :: rest, acks := r.acks ++ [!dioLevel s r.chan] }
      hist := s.hist ++ [.sample (.ddio r.chan) (dioLevel s r.chan)] } := by
  rw [dpeStep_busy hr]
  simp only [dpeMicro, ht, dpeAdvance]
  rfl

/-- The record, the last step of an operation: it completes. -/
theorem dpeStep_of_record {s : State} {r : DpeRun} (hr : s.dpe = some r) (ht : r.todo = [.record]) :
    dpeStep s = complete r.owner { s with dpe := none, regs := recordAcks s.regs r.acks r.chan } := by
  rw [dpeStep_busy hr]
  simp only [dpeMicro, ht, dpeAdvance]

theorem complete_hostSlot (o : Requester) (s : State) :
    (complete o s).hostSlot = if o = .host then none else s.hostSlot := by
  cases o <;> rfl

end Sys2Proof.Machine
end

section
/-! SUPPORT. Decimal digits (41_display_engine.md R199, R202). -/

namespace Sys2Proof.Machine

open Sys2Proof

/-- The number of a list of decimal digits, most significant first, is the one they were taken from; they are digits, and
none is a leading zero. -/
theorem decDigits_spec {v : Nat} (hv : v < 10000) :
    (∀ d ∈ decDigits v, d < 10) ∧ (decDigits v).foldl (fun n d => 10 * n + d) 0 = v ∧ 1 ≤ (decDigits v).length ∧
      (1 < (decDigits v).length → (decDigits v).head? ≠ some 0) := by
  unfold decDigits
  split
  · simp; omega
  split
  · simp; omega
  split
  · simp; omega
  · simp; omega

theorem renderNum_of_lt (rom : Vector Byte 19) {v : Nat} (hv : v < 9999) : renderNum rom v =
    List.replicate (4 - (decDigits v).length) 0x00#8 ++ (decDigits v).map (seg rom) := if_neg (Nat.not_le.mpr hv)

theorem clampSeconds_of_range {s : Int} (h1 : 1 ≤ s) (h2 : s ≤ 5999) : clampSeconds s = s.toNat := by
  rw [clampSeconds, if_neg (by omega), if_neg (by omega)]

end Sys2Proof.Machine
end

section
/-! SUPPORT. A display's receiver on what the DPE sends in a phase (41_display_engine.md R172 to R177). -/

namespace Sys2Proof.Machine

open Sys2Proof

theorem dspReceive_start (k : Chan) (t : Nat) (es : List Event) :
    dspReceive k true true (startEvents k t ++ es) = .start :: dspReceive k false false es := by
  simp [startEvents, dspReceive]

/-- A bit is the data level at the one rise of the clock; the data line moves only while the clock is low. -/
theorem dspReceive_bit (k : Chan) (t : Nat) (c d b : Bool) (es : List Event) :
    dspReceive k c d (dspBitEvents k t b ++ es) = .bit b :: dspReceive k true b es := by
  cases b <;> simp [dspBitEvents, dspReceive]

theorem dspReceive_bits (k : Chan) (t : Nat) (c d : Bool) (b : Bool) (bs : List Bool) (es : List Event) :
    dspReceive k c d ((b :: bs).flatMap (dspBitEvents k t) ++ es) =
      (b :: bs).map .bit ++ dspReceive k true ((b :: bs).getLast (List.cons_ne_nil b bs)) es := by
  induction bs generalizing c d b with
  | nil => exact dspReceive_bit k t c d b es
  | cons b' bs ih =>
    rw [List.flatMap_cons, List.append_assoc, dspReceive_bit, ih]
    rfl

theorem dspReceive_ack (k : Chan) (t : Nat) (lvl c d : Bool) (es : List Event) :
    dspReceive k c d (ackEvents k t lvl ++ es) = .bit true :: dspReceive k true true es := by
  simp [ackEvents, dspReceive]

theorem dspReceive_stop (k : Chan) (t : Nat) (c d : Bool) : dspReceive k c d (stopEvents k t) = [.bit false, .stop] := by
  simp [stopEvents, dspReceive]

/-- What a display sees of one byte: its bits from bit 0 and the released acknowledge bit. -/
def byteSigns (b : Byte) : List BusSign := (bitsLsb b).map .bit ++ [.bit true]

theorem dspReceive_byte (k : Chan) (t : Nat) (lvl c d : Bool) (b : Byte) (es : List Event) :
    dspReceive k c d (dspByteEvents k t lvl b ++ es) = byteSigns b ++ dspReceive k true true es := by
  rw [dspByteEvents, List.append_assoc, bitsLsb, dspReceive_bits, dspReceive_ack, byteSigns, List.append_assoc]
  rfl

/-- The bytes of a phase and its stop, from any levels of the lines. -/
theorem dspReceive_bytes_stop (k : Chan) (t : Nat) (lvl c d : Bool) (bytes : List Byte) :
    dspReceive k c d (bytes.flatMap (dspByteEvents k t lvl) ++ stopEvents k t) =
      bytes.flatMap byteSigns ++ [.bit false, .stop] := by
  induction bytes generalizing c d with
  | nil => exact dspReceive_stop k t c d
  | cons b bs ih =>
    rw [List.flatMap_cons, List.append_assoc, dspReceive_byte, ih, List.flatMap_cons, List.append_assoc]

/-! ### Another channel's display -/

/-- The channel whose line an event moves. -/
def movedChan : Event → Option Chan
  | .pullLow (.dclk k) => some k
  | .pullLow (.ddio k) => some k
  | .release (.dclk k) => some k
  | .release (.ddio k) => some k
  | _ => none

theorem dspReceive_cons_of_movedChan_ne {j : Chan} {e : Event} (he : movedChan e ≠ some j) (c d : Bool)
    (es : List Event) : dspReceive j c d (e :: es) = dspReceive j c d es := by
  cases e with
  | pullLow l => cases l <;> exact if_neg fun hk => he (congrArg some hk)
  | release l => cases l <;> exact if_neg fun hk => he (congrArg some hk)
  | _ => rfl

/-- A receiver sees nothing of events that move no line of its channel. -/
theorem dspReceive_of_movedChan_ne {j : Chan} {es : List Event} (h : ∀ e ∈ es, movedChan e ≠ some j) (c d : Bool) :
    dspReceive j c d es = [] := by
  induction es with
  | nil => rfl
  | cons e es ih =>
    obtain ⟨he, hes⟩ := List.forall_mem_cons.mp h
    rw [dspReceive_cons_of_movedChan_ne he, ih hes]

/-- Every line event of a phase is on its own channel. -/
theorem movedChan_phaseEvents {k j : Chan} (hj : j ≠ k) (t : Nat) (lvl : Bool) (bytes : List Byte) :
    ∀ e ∈ phaseEvents k t lvl bytes, movedChan e ≠ some j := by
  have hkj : k ≠ j := Ne.symm hj
  have start : ∀ e ∈ startEvents k t, movedChan e ≠ some j := by simp [startEvents, movedChan, hkj]
  have stop : ∀ e ∈ stopEvents k t, movedChan e ≠ some j := by simp [stopEvents, movedChan, hkj]
  have ack : ∀ e ∈ ackEvents k t lvl, movedChan e ≠ some j := by simp [ackEvents, movedChan, hkj]
  have bit : ∀ b, ∀ e ∈ dspBitEvents k t b, movedChan e ≠ some j := by
    intro b
    cases b <;> simp [dspBitEvents, movedChan, hkj]
  intro e he
  simp only [phaseEvents, dspByteEvents, List.mem_append, List.mem_flatMap] at he
  rcases he with (he | ⟨_, _, ⟨b, _, he⟩ | he⟩) | he
  · exact start e he
  · exact bit b e he
  · exact ack e he
  · exact stop e he

end Sys2Proof.Machine
end

section
/-! The obligations of 41_display_engine.md. -/

namespace Sys2Proof.Machine

open Sys2Proof

/-- Settles O35: `busOk_dpeStep` is the case with content; no other operation of a step but a reset moves a display
line. -/
theorem displayBusReturnsToIdle : Obligations.DisplayBusReturnsToIdle := by
  intro s s' hs h
  refine @step_keeps busOk ?hown ?hreset ?herr ?hpix ?hreg ?hcmd ?hevd ?hlfs ?hdpe ?henv ?hobs s s' hs h
  case hown => exact fun _ _ _ _ _ hu => hu
  case hreset => exact fun u _ => busOk_resetBlock u
  case herr => exact fun c w _ _ hu => busOk_raiseError c w hu
  case hpix => exact fun _ _ _ _ hu => hu
  case hreg => exact fun r v u hu => by rw [writeReg_eq]; exact hu
  case hcmd => exact fun _ _ _ _ he hu => busOk_exec he hu
  case hevd => exact fun p _ hu => busOk_evdStep p hu
  case hlfs => exact fun _ hu => busOk_lfsStep hu
  case hdpe => exact fun _ hu => busOk_dpeStep hu
  case henv => exact fun e _ hu => busOk_envApply e hu
  case hobs => exact fun _ _ hu => hu

/-- Settles O13: the acceptance, and a segment write of the SEGBUF bytes. -/
theorem dspSegsWritesThreePhases : Obligations.DspSegsWritesThreePhases := by
  refine ⟨rfl, fun ch addr len colon k s hch hlen hslot hdpe hevd => ?_⟩
  intro segs dcfg
  have hcount : segs.length = len.toNat := by simp [segs]
  have h := dpeSteps_of_accepted (.dspSegs ch addr len colon) (op := .segs k addr segs colon) (fun _ => rfl) hslot hdpe
    hevd
  rw [segsWritten, hcount] at h
  exact ⟨_, exec_dspSegs hch hlen hslot addr colon, rfl, h⟩

/-- Settles O14: a segment write of the four bytes of the rendered number, for the host and for the EVD. -/
theorem dspNumShowsTheNumber : Obligations.DspNumShowsTheNumber := by
  refine ⟨fun ch k s hch hv hslot hdpe hevd => ⟨_, exec_dspNum hch hslot, rfl, ?_⟩, fun k v s hdpe hreq hv => ?_⟩
  · have h := dpeSteps_of_accepted (.dspNum ch) (dpeActs_num hv s.par.segRom · k) hslot hdpe hevd
    rw [segsWritten, segPhases, map_withColon_false, renderNum_length] at h
    exact h
  · have h := dpeSteps_of_evdReq (dpeActs_num hv s.par.segRom · k) hdpe hreq
    rw [segsWritten, segPhases, map_withColon_false, renderNum_length] at h
    exact h

/-- Settles O16: a segment write of the four digits of the clock. -/
theorem dspClockShowsTheClock : Obligations.DspClockShowsTheClock := by
  intro ch colon k s hch hslot hdpe hevd
  have h := dpeSteps_of_accepted (.dspClock ch colon) (op := .clock k s.regs.arg colon) (fun _ => rfl) hslot hdpe hevd
  rw [segsWritten, convertToClock_length] at h
  exact ⟨_, exec_dspClock hch hslot colon, rfl, h⟩

/-- Settles O15: the operation is the one step that moves no line. -/
theorem dspNumOfANegativeNumberSendsNothing : Obligations.DspNumOfANegativeNumberSendsNothing := by
  refine ⟨fun ch k s hch hv hslot hdpe hevd => ⟨_, exec_dspNum hch hslot, rfl, ?_⟩, fun k v s hdpe hreq hv => ?_⟩
  · rw [dpeSteps_two, dpeStep_dspAccepted _ _ hdpe hevd, dpeActs_num_negative hv, dpeStep_skip, hslot, hdpe]
    rfl
  · rw [dpeSteps_two, dpeStep_start_evd hdpe hreq, dpeActs_num_negative hv, dpeStep_skip, hdpe]
    rfl

/-- Settles O53: the two micro-steps, and the fields of the DACK word. -/
theorem sampleAndRecordFollowTheRules : Obligations.SampleAndRecordFollowTheRules := by
  intro s r a rest hr
  refine ⟨fun ht => ?_, fun ht hlen => ?_⟩
  · intro lvl
    have hlvl : dioLevel s r.chan = lvl := dioLevel_eq s r.chan
    rw [dpeStep_of_sample hr ht, hlvl]
  · intro t
    have ht : t = complete r.owner { s with dpe := none, regs := recordAcks s.regs r.acks r.chan } :=
      dpeStep_of_record hr ht
    have hslot : t.hostSlot = if r.owner = .host then none else s.hostSlot := by rw [ht, complete_hostSlot]
    obtain ⟨x, hx⟩ := complete_eq r.owner { s with dpe := none, regs := recordAcks s.regs r.acks r.chan }
    have hregs : t.regs = recordAcks s.regs r.acks r.chan := by rw [ht, hx]
    have hdack : t.regs.dack = dackWord r.acks r.chan := by rw [hregs]; rfl
    refine ⟨by rw [ht, hx], fun i hi => ?_, ?_, ?_, by rw [hregs]; rfl, hslot, by rw [ht, hx], by rw [ht, hx]⟩
    · rw [hdack, dackWord_ack _ _ hi]
    · rw [hdack, dackWord_count, BitVec.toNat_ofNat, Nat.mod_eq_of_lt (by omega)]
    · rw [hdack, dackWord_chan]
      cases r.chan <;> rfl

/-- Settles O54: the digits are `decDigits`. -/
theorem numbersAreRenderedRightJustified : Obligations.NumbersAreRenderedRightJustified := by
  intro rom v
  refine ⟨renderNum_length rom v, fun hv => if_pos hv, fun hv => ?_⟩
  obtain ⟨hlt, hval, hne, hlead⟩ := decDigits_spec (v := v) (by omega)
  exact ⟨decDigits v, hlt, hval, hne, hlead, renderNum_of_lt rom hv⟩

/-- Settles O55: the digits are the quotients and remainders of the clamped seconds. -/
theorem clockIsClampedAndShowsFourDigits : Obligations.ClockIsClampedAndShowsFourDigits := by
  intro rom s
  refine ⟨fun h => ?_, fun h => ?_, fun h1 h2 => ?_⟩
  · rw [convertToClock, clampSeconds, if_pos h]
    rfl
  · rw [convertToClock, clampSeconds, if_neg (by omega), if_pos h]
  · refine ⟨s.toNat / 60 / 10, s.toNat / 60 % 10, s.toNat % 60 / 10, s.toNat % 60 % 10, by omega, by omega, by omega,
      by omega, by omega, ?_⟩
    rw [convertToClock, clampSeconds_of_range h1 h2]

/-- Settles O58: the start, then the bytes and the stop; every line event of the phase is on the phase's channel. -/
theorem displayReceivesThePhase : Obligations.DisplayReceivesThePhase := by
  intro k j t lvl bytes
  refine ⟨?_, fun hj => dspReceive_of_movedChan_ne (movedChan_phaseEvents hj t lvl bytes)⟩
  rw [phaseEvents, List.append_assoc, dspReceive_start, dspReceive_bytes_stop]
  rfl

end Sys2Proof.Machine
end

section
/-! SUPPORT. Turns of the EVD in a row, and what the numbered steps of the sensor handler make of the state while no
request of it is outstanding (42_event_dispatcher.md R226 to R231). -/

namespace Sys2Proof.Machine

open Sys2Proof

theorem evdSteps_add (p : Source) (a b : Nat) (s : State) :
    evdSteps p (a + b) s = evdSteps p b (evdSteps p a s) := by
  induction a generalizing s with
  | zero => rw [Nat.zero_add]; rfl
  | succ a ih => rw [Nat.succ_add]; exact ih (evdStep p s)

theorem evdSteps_one (p : Source) (s : State) : evdSteps p 1 s = evdStep p s := rfl

theorem evdSteps_two (p : Source) (s : State) : evdSteps p 2 s = evdStep p (evdStep p s) := rfl

theorem evdSteps_of_fixed {p : Source} {s : State} (h : evdStep p s = s) (k : Nat) : evdSteps p k s = s := by
  induction k with
  | zero => rfl
  | succ k ih => exact (congrArg (evdSteps p k) h).trans ih

theorem sensorIdle_iff (s : State) (h : Hoop) : sensorIdle s h = true ↔ s.env.sens.get h.bit = s.par.sensIdle :=
  beq_iff_eq

section
variable {p : Source} {s : State} {r : SensorRun}

/-- Input levels, registers and the handler's position have no part in whether a request is outstanding. -/
theorem evdBlocked_with (hb : evdBlocked s = false) (i : Inputs) (g : Regs) (e : Evd) :
    evdBlocked { s with env := i, regs := g, evd := e } = false := hb

/-- The end is a turn of its own (log 13). -/
theorem evdStep_finish_sensor (he : s.evd = .sensor r) (hpos : r.pos = .finish) (hb : evdBlocked s = false) :
    evdStep p s = { s with evd := .idle } := by
  rw [evdStep_sensor he hb]
  simp only [sensorStep, hpos, endHandler]

/-- Step 2: the entry tick, and the end next inside the settle window. -/
theorem evdStep_settle (he : s.evd = .sensor r) (hpos : r.pos = .settle) (hb : evdBlocked s = false) :
    evdStep p s = { s with evd := .sensor { r with
      tEntry := s.env.tick
      pos := if (s.env.tick - s.regs.tstart).toNat < s.par.settleMs then .finish else .await } } := by
  rw [evdStep_sensor he hb]
  by_cases hwin : (s.env.tick - s.regs.tstart).toNat < s.par.settleMs
  · simp only [sensorStep, hpos, tickNow, hwin, if_true]
  · simp only [sensorStep, hpos, tickNow, hwin, if_false]

/-- Step 3 with the sensor idle: the exit tick. -/
theorem evdStep_await_idle (he : s.evd = .sensor r) (hpos : r.pos = .await) (hb : evdBlocked s = false)
    (hs : s.env.sens.get r.hoop.bit = s.par.sensIdle) :
    evdStep p s = { s with evd := .sensor { r with tExit := s.env.tick, pos := .dwell } } := by
  rw [evdStep_sensor he hb]
  simp only [sensorStep, hpos, (sensorIdle_iff s r.hoop).mpr hs, if_true, tickNow]

/-- Step 3 is no step while the sensor is active (42_event_dispatcher.md R228, R233). -/
theorem evdStep_await_active (he : s.evd = .sensor r) (hpos : r.pos = .await)
    (hs : s.env.sens.get r.hoop.bit ≠ s.par.sensIdle) : evdStep p s = s := by
  cases hb : evdBlocked s with
  | true => exact evdStep_blocked (by rw [he]; nofun) hb
  | false =>
    rw [evdStep_sensor he hb]
    simp only [sensorStep, hpos, sensorIdle_iff, hs, if_false]

/-- Steps 1 and 2: the settle window decides whether the handler stands before its end or before step 3. -/
theorem evdSteps_entry (he : s.evd = .sensor r) (hpos : r.pos = .clear) (hb : evdBlocked s = false) :
    evdSteps p 2 s = { s with
      regs := clearPending s.regs (.sensor r.hoop)
      evd := .sensor { r with
        tEntry := s.env.tick
        pos := if (s.env.tick - s.regs.tstart).toNat < s.par.settleMs then .finish else .await } } := by
  rw [evdSteps_two, evdStep_clear_sensor he hpos hb]
  exact evdStep_settle (r := { r with pos := .settle }) rfl rfl (evdBlocked_with hb _ _ _)

/-- Steps 3 and 4 with the sensor idle: the dwell, kept and shown in LAST_DWELL. -/
theorem evdSteps_dwell (he : s.evd = .sensor r) (hpos : r.pos = .await) (hb : evdBlocked s = false)
    (hs : s.env.sens.get r.hoop.bit = s.par.sensIdle) :
    evdSteps p 2 s = { s with
      regs := { s.regs with lastDwell := s.env.tick - r.tEntry }
      evd := .sensor { r with tExit := s.env.tick, d := s.env.tick - r.tEntry, pos := .classify } } := by
  rw [evdSteps_two, evdStep_await_idle he hpos hb hs]
  exact evdStep_sensor rfl (evdBlocked_with hb _ _ _)

/-- The state after steps 1 to 4 outside the settle window, where ENV has made of the inputs `e` by step 3
(42_event_dispatcher.md R226 to R229). -/
def dwellTaken (r : SensorRun) (e : Inputs) (s : State) : State :=
  { s with
    env := e
    regs := { clearPending s.regs (.sensor r.hoop) with lastDwell := e.tick - s.env.tick }
    evd := .sensor { r with tEntry := s.env.tick, tExit := e.tick, d := e.tick - s.env.tick, pos := .classify } }

theorem evdSteps_dwellTaken (he : s.evd = .sensor r) (hpos : r.pos = .clear) (hb : evdBlocked s = false)
    (hwin : ¬ (s.env.tick - s.regs.tstart).toNat < s.par.settleMs) {e : Inputs}
    (hs : e.sens.get r.hoop.bit = s.par.sensIdle) :
    evdSteps p 2 { evdSteps p 2 s with env := e } = dwellTaken r e s := by
  rw [evdSteps_entry he hpos hb, if_neg hwin]
  exact evdSteps_dwell (r := { r with tEntry := s.env.tick, pos := .await }) rfl rfl (evdBlocked_with hb _ _ _) hs

/-- Step 5 on a dwell of no points, and the end. -/
theorem evdSteps_classify_zero (he : s.evd = .sensor r) (hpos : r.pos = .classify) (hb : evdBlocked s = false)
    (hpts : pointsOf r.d = .zero) : evdSteps p 2 s = { s with evd := .idle } := by
  have hclass : evdStep p s = { s with evd := .sensor { r with pts := .zero, pos := .finish } } := by
    rw [evdStep_sensor he hb]
    simp only [sensorStep, hpos, hpts, if_true]
  rw [evdSteps_two, hclass, evdStep_finish_sensor rfl rfl (evdBlocked_with hb _ _ _)]

/-- Steps 5 and 6 on a dwell of some points: the score of the hoop's team. -/
theorem evdSteps_classify_score (he : s.evd = .sensor r) (hpos : r.pos = .classify) (hb : evdBlocked s = false)
    (hpts : pointsOf r.d ≠ .zero) {v : Word}
    (hv : s.regs.score.get (teamOf s.regs r.hoop) + BitVec.ofNat 32 (pointsOf r.d).num = v) :
    evdSteps p 2 s = { s with
      regs := { s.regs with score := s.regs.score.set (teamOf s.regs r.hoop) v }
      evd := .sensor { r with pts := pointsOf r.d, v := v, pos := .tone } } := by
  have hclass : evdStep p s = { s with evd := .sensor { r with pts := pointsOf r.d, pos := .score } } := by
    rw [evdStep_sensor he hb]
    simp only [sensorStep, hpos, hpts, if_false]
  rw [evdSteps_two, hclass, ← hv]
  exact evdStep_sensor rfl (evdBlocked_with hb _ _ _)

end

/-! ### The classes of a dwell and the score they go to -/

theorem pointsOf_zero {d : Word} (h : d.toNat < 10) : pointsOf d = .zero := if_pos h

theorem pointsOf_two {d : Word} (h1 : 10 ≤ d.toNat) (h2 : d.toNat < 65) : pointsOf d = .two :=
  (if_neg (Nat.not_lt.mpr h1)).trans (if_pos h2)

theorem pointsOf_one {d : Word} (h : 65 ≤ d.toNat) : pointsOf d = .one :=
  (if_neg (Nat.not_lt.mpr (Nat.le_trans (by decide) h))).trans (if_neg (Nat.not_lt.mpr h))

theorem teamOf_eq (r : Regs) (h : Hoop) : teamOf r h = r.team.getLsbD (if h = .h0 then 0 else 1) := by
  cases h <;> rfl

theorem two_get_eq {α : Type} (p : Two α) (i : Bool) : p.get i = if i then p.x1 else p.x0 := by
  cases i <;> rfl

theorem two_set_eq {α : Type} (p : Two α) (i : Bool) (v : α) :
    p.set i v = if i then { p with x1 := v } else { p with x0 := v } := by
  cases i <;> rfl

end Sys2Proof.Machine
end

section
/-! SUPPORT. The team flip (42_event_dispatcher.md R237, R238, R241, R242). -/

namespace Sys2Proof.Machine

open Sys2Proof

/-- The registers after a team flip. -/
def flipTeams (g : Regs) : Regs := { g with team := g.team ^^^ 0x00000003#32 }

theorem timerStep_flip_regs {r : TimerRun} (hpos : r.pos = .flip) (s : State) :
    (timerStep r s).regs = flipTeams s.regs := by
  simp only [timerStep, hpos, flipTeams]

theorem teamOf_flipTeams (g : Regs) (h : Hoop) : teamOf (flipTeams g) h = !teamOf g h := by
  cases h <;> simp [teamOf, flipTeams]

theorem flipTeams_flipTeams (g : Regs) : flipTeams (flipTeams g) = g := by
  simp only [flipTeams, BitVec.xor_assoc, BitVec.xor_self, BitVec.xor_zero]

theorem stripColors_flipTeams (g : Regs) : stripColors (flipTeams g) = (stripColors g).swap := by
  simp only [stripColors, teamOf_flipTeams]
  cases teamOf g .h0 <;> rfl

end Sys2Proof.Machine
end

section
/-! The obligations of 42_event_dispatcher.md. -/

namespace Sys2Proof.Machine

open Sys2Proof

/-- Settles O46: the steps two by two, up to the dwell and from its class on. -/
theorem dwellScoresTheTeam : Obligations.DwellScoresTheTeam := by
  intro s r pick e he hpos hb hwin hs d t old scored u base
  have hteam : teamOf base r.hoop = t := teamOf_eq base r.hoop
  have hold : base.score.get t = old := two_get_eq s.regs.score t
  have hscored : ∀ v, base.score.set t v = scored v := two_set_eq s.regs.score t
  have hu : u = evdSteps pick 2 (dwellTaken r e s) :=
    (evdSteps_add pick 2 2 _).trans (congrArg _ (evdSteps_dwellTaken he hpos hb hwin hs))
  have hzero : pointsOf d = .zero → u = { dwellTaken r e s with evd := .idle } := fun hpts =>
    hu.trans (evdSteps_classify_zero rfl rfl hb hpts)
  have hsome : pointsOf d ≠ .zero → ∀ v, old + BitVec.ofNat 32 (pointsOf d).num = v → u = { dwellTaken r e s with
      regs := { base with score := scored v }
      evd := .sensor ⟨r.hoop, .tone, s.env.tick, e.tick, d, pointsOf d, v⟩ } := by
    intro hpts v hv
    rw [← hold, ← hteam] at hv
    rw [hu, evdSteps_classify_score (s := dwellTaken r e s) rfl rfl hb hpts hv, ← hscored, ← hteam]
    rfl
  refine ⟨fun h => ?_, fun h1 h2 => ?_, fun h => ?_, ?_⟩
  · rw [hzero (pointsOf_zero h)]
    exact ⟨rfl, rfl, rfl, rfl⟩
  · have hpts := pointsOf_two h1 h2
    rw [hsome (by rw [hpts]; nofun) _ rfl, hpts]
    exact ⟨rfl, rfl⟩
  · have hpts := pointsOf_one h
    rw [hsome (by rw [hpts]; nofun) _ rfl, hpts]
    exact ⟨rfl, rfl⟩
  · by_cases hpts : pointsOf d = .zero
    · rw [hzero hpts]
      exact ⟨rfl, rfl, rfl⟩
    · rw [hsome hpts _ rfl]
      exact ⟨rfl, rfl, rfl⟩

/-- Settles O45: a turn at step 3 with the sensor active changes nothing, so no number of them does. -/
theorem sensorHandlerWaitsForTheIdleLevel : Obligations.SensorHandlerWaitsForTheIdleLevel :=
  fun _ _ _ he hpos hs => evdSteps_of_fixed (evdStep_await_active he hpos hs)

/-- Settles O49: a flip is `flipTeams`, an involution that swaps the colours. -/
theorem twoFlipsRestoreTeamsAndColours : Obligations.TwoFlipsRestoreTeamsAndColours := by
  refine ⟨?_, fun s r q hr hq => ?_⟩
  · rintro t (rfl | rfl) <;> decide
  · intro once twice
    have honce : once.regs = flipTeams s.regs := timerStep_flip_regs hr s
    have htwice : twice.regs = s.regs := by
      rw [timerStep_flip_regs hq once, honce, flipTeams_flipTeams]
    rw [honce, htwice]
    exact ⟨teamOf_flipTeams s.regs, stripColors_flipTeams s.regs, rfl, rfl⟩

/-- Settles O44: the entry inside the window, and the end. -/
theorem settleWindowDiscardsTheEvent : Obligations.SettleWindowDiscardsTheEvent := by
  intro s r pick he hpos hb hwin
  rw [evdSteps_add pick 2 1, evdSteps_entry he hpos hb, if_pos hwin, evdSteps_one,
    evdStep_finish_sensor rfl rfl (evdBlocked_with hb _ _ _)]

end Sys2Proof.Machine
end

section
/-! SUPPORT. Dispatch (60_exceptions.md R272, R274, R275): which source the arbitration takes, and the handler it starts. -/

namespace Sys2Proof.Machine

open Sys2Proof

theorem dispatchable_iff (r : Regs) (x : Source) :
    dispatchable r x = true ↔ pending r x = true ∧ enabled r x = true ∧ gie r = true := by
  simp [dispatchable, and_assoc]

theorem enabled_of_lowBits_zero {r : Regs} (h : r.irqEn.extractLsb' 0 3 = 0#3) (x : Source) : enabled r x = false := by
  have hbit : enabled r x = (r.irqEn.extractLsb' 0 3).getLsbD (sourceNum x) := by
    rcases x with ⟨_ | _⟩ | _ <;> simp [enabled, sourceNum]
  rw [hbit, h, BitVec.getLsbD_zero]

/-- A dispatchable draw is the one taken (log 6). -/
theorem arbitrate_of_dispatchable {r : Regs} {pick : Source} (h : dispatchable r pick = true) :
    arbitrate r pick = some pick := if_pos h

theorem arbitrate_eq_none {r : Regs} (h : ∀ x, dispatchable r x = false) (pick : Source) : arbitrate r pick = none := by
  simp [arbitrate, h]

/-- With a source dispatchable the arbitration takes one, whatever is drawn. -/
theorem arbitrate_of_exists {r : Regs} {x : Source} (h : dispatchable r x = true) (pick : Source) :
    ∃ y, arbitrate r pick = some y := by
  cases ha : arbitrate r pick with
  | some y => exact ⟨y, rfl⟩
  | none => exact absurd h (by simp [arbitrate_none ha x])

theorem evdStep_of_arbitrate {pick : Source} {s : State} (he : s.evd = .idle) {x : Source}
    (h : arbitrate s.regs pick = some x) : evdStep pick s = dispatch x s := by
  simp [evdStep, he, h]

theorem evdStep_of_arbitrate_none {pick : Source} {s : State} (he : s.evd = .idle)
    (h : arbitrate s.regs pick = none) : evdStep pick s = s := by
  simp [evdStep, he, h]

theorem evdSource_handlerOf (x : Source) : evdSource (handlerOf x) = some x := by cases x <;> rfl

theorem evdAct_handlerOf (x : Source) : evdAct (handlerOf x) = true := by cases x <;> rfl

theorem evdSource_eq_none_iff (e : Evd) : evdSource e = none ↔ e = .idle := by
  cases e <;> simp [evdSource]

end Sys2Proof.Machine
end

section
/-! SUPPORT. Who moves the EVD (60_exceptions.md R275, R276): its own turn and a reset, no host access, no engine and no
other event of ENV. -/

namespace Sys2Proof.Machine

open Sys2Proof

/-! ### What leaves the EVD alone -/

@[simp] theorem raiseError_evd (c : ErrCode) (w : Word) (s : State) : (raiseError c w s).evd = s.evd := by
  rcases raiseError_cases c w s with ⟨-, e⟩ | ⟨-, e⟩ <;> rw [e]

@[simp] theorem writeReg_evd (r : RegName) (v : Word) (s : State) : (writeReg r v s).evd = s.evd := by rw [writeReg_eq]

theorem exec_evd {i : Instr} {s t : State} (h : exec i s = .next t) : t.evd = s.evd := by
  rcases exec_cases h with ⟨c, -, rfl⟩ | ⟨-, rfl | ⟨op, rfl⟩ | ⟨op, rfl⟩⟩
  · exact raiseError_evd c _ s
  · rfl
  · exact queueLfs_evd _ op _
  · exact queueDpe_evd _ op _

@[simp] theorem afterMemRead_evd (a : Addr) (s : State) : (afterMemRead a s).evd = s.evd := by
  rcases afterMemRead_cases a s with ⟨c, w, -, e⟩ | ⟨n, e⟩ <;> rw [e]
  exact raiseError_evd c w s

theorem memWrite_evd {a : Addr} {v : Word} {s t : State} (h : memWrite a v s = .next t) : t.evd = s.evd := by
  rcases memWrite_cases h with ⟨c, w, -, rfl⟩ | ⟨i, -, rfl⟩ | ⟨r, rfl⟩ | ⟨-, i, -, he⟩
  · exact raiseError_evd c w s
  · exact pixWrite_evd i v s
  · exact writeReg_evd r v s
  · exact exec_evd he

/-! ### What a step can make of it -/

/-- The EVD after a step from `s`: the handler that runs in `s`, if any, still runs; or the EVD is idle; or it was idle
and stands at the start of the handler of a source that is dispatchable in `s`. -/
def EvdMayBecome (s : State) (e : Evd) : Prop :=
  evdSource e = evdSource s.evd ∨ e = .idle ∨ (s.evd = .idle ∧ ∃ x, dispatchable s.regs x = true ∧ e = handlerOf x)

theorem evdMayBecome_of_eq {s : State} {e : Evd} (h : e = s.evd) : EvdMayBecome s e := .inl (congrArg evdSource h)

theorem evdMayBecome_idle (s : State) : EvdMayBecome s .idle := .inr (.inl rfl)

/-- A handler's own step goes on with it or ends it; only an idle EVD dispatches. -/
theorem evdMayBecome_evdStep (p : Source) (s : State) : EvdMayBecome s (evdStep p s).evd := by
  rcases evdStep_cases p s with e | ⟨x, hidle, hx, e⟩ | ⟨r, hr, -, e⟩ | ⟨r, hr, -, e⟩ <;> rw [e]
  · exact evdMayBecome_of_eq rfl
  · exact .inr (.inr ⟨hidle, x, hx, rfl⟩)
  · obtain ⟨g, e, t, q, es, h, hgo, -⟩ := sensorStep_eq hr
    rw [h]
    exact hgo.imp (fun hsame => by rw [hsame, hr]; rfl) .inl
  · obtain ⟨g, e, a, q, h, hgo, -⟩ := timerStep_eq r s
    rw [h]
    exact hgo.imp (fun hsame => by rw [hsame, hr]; rfl) .inl

theorem evdMayBecome_moveStep {m : Move} {s u : State} (h : moveStep m s = .next u) : EvdMayBecome s u.evd := by
  rcases moveStep_cases h with ⟨a, -, rfl⟩ | ⟨a, v, -, hw⟩ | ⟨p, -, rfl⟩ | ⟨-, rfl⟩ | ⟨-, rfl⟩ | ⟨-, rfl⟩
  · exact evdMayBecome_of_eq (afterMemRead_evd a s)
  · exact evdMayBecome_of_eq ((memWrite_evd hw).trans (emit_evd _ s))
  · exact evdMayBecome_evdStep p s
  · exact evdMayBecome_of_eq (lfsStep_evdInFlight s).2
  · exact evdMayBecome_of_eq (dpeStep_evdInFlight s).2
  · exact evdMayBecome_of_eq rfl

/-- ENV leaves the EVD alone, or resets it. -/
theorem evdMayBecome_endTurn {s : State} (es : List EnvEvent) {u : State} (h : EvdMayBecome s u.evd) :
    EvdMayBecome s (endTurn es u).evd := by
  refine endTurn_keeps (P := fun u => EvdMayBecome s u.evd) (fun e u hu => ?_) (fun _ _ hu => hu) es h
  rcases envApply_cases e u with ⟨-, he⟩ | ⟨i, g, x, t, evs, he, -⟩ <;> rw [he]
  · exact evdMayBecome_idle s
  · exact hu

theorem evdMayBecome_step {s s' : State} (h : step s = .next s') : EvdMayBecome s s'.evd := by
  obtain ⟨as, n, hp⟩ := popTurn_eq s
  rcases step_cases h with ⟨-, -, rfl⟩ | ⟨-, u, hu, rfl⟩
  · exact evdMayBecome_endTurn _ (evdMayBecome_idle s)
  · have hmove : EvdMayBecome (popTurn s) u.evd := evdMayBecome_moveStep hu
    rw [hp] at hmove
    exact evdMayBecome_endTurn _ hmove

/-- A handler that a step from an idle EVD leaves running is that of a source that was dispatchable. -/
theorem step_starts_dispatchable {s s' : State} (hidle : s.evd = .idle) (h : step s = .next s') (hrun : s'.evd ≠ .idle) :
    ∃ x, dispatchable s.regs x = true ∧ evdSource s'.evd = some x := by
  rcases evdMayBecome_step h with hsame | hend | ⟨-, x, hx, he⟩
  · exact absurd ((evdSource_eq_none_iff _).mp (by rw [hsame, hidle]; rfl)) hrun
  · exact absurd hend hrun
  · exact ⟨x, hx, by rw [he, evdSource_handlerOf]⟩

end Sys2Proof.Machine
end

section
/-! The obligations of 60_exceptions.md. -/

namespace Sys2Proof.Machine

open Sys2Proof

/-- Settles O7: every command is BUSY while the slot is full, and a recorded error is the definition of `raiseError`. -/
theorem commandWhileBusyIsDropped : Obligations.CommandWhileBusyIsDropped :=
  fun i _ _ hs => exec_of_full i (by rw [hs]; rfl)

/-- Settles O39: the EVD's turn dispatches what the arbitration takes, which is the draw if that is dispatchable. -/
theorem dispatchStartsADispatchableSource : Obligations.DispatchStartsADispatchableSource := by
  intro pick s hidle starts
  have started : ∀ x, arbitrate s.regs pick = some x → starts x := by
    intro x ha
    refine ⟨handlerOf x, evdStep_of_arbitrate hidle ha, evdAct_handlerOf x, evdSource_handlerOf x, ?_⟩
    cases x with
    | sensor h => exact ⟨_, rfl, rfl, rfl⟩
    | timer => exact ⟨_, rfl, rfl⟩
  refine ⟨fun x => ?_, fun hpick => started pick (arbitrate_of_dispatchable hpick), fun x hx => ?_, fun hnone => ?_⟩
  · rcases x with ⟨_ | _⟩ | _ <;> rfl
  · obtain ⟨y, hy⟩ := arbitrate_of_exists hx pick
    exact ⟨y, arbitrate_some hy, started y hy⟩
  · exact evdStep_of_arbitrate_none hidle (arbitrate_eq_none hnone pick)

/-- Settles O40: a handler that a step starts is that of a dispatchable source, whose three bits are 1. -/
theorem noHandlerStartsWhileDisabled : Obligations.NoHandlerStartsWhileDisabled := by
  intro s s' hidle h
  have bits : s'.evd ≠ .idle → ∃ x, evdSource s'.evd = some x ∧
      pending s.regs x = true ∧ enabled s.regs x = true ∧ gie s.regs = true := fun hrun => by
    obtain ⟨x, hx, hsrc⟩ := step_starts_dispatchable hidle h hrun
    exact ⟨x, hsrc, (dispatchable_iff s.regs x).mp hx⟩
  refine ⟨fun hrun => ?_, fun hgie => ?_, fun hen => ?_⟩
  · obtain ⟨x, hsrc, hbits⟩ := bits hrun
    exact ⟨x, hsrc, by rcases x with ⟨_ | _⟩ | _ <;> exact hbits⟩
  · by_contra hrun
    obtain ⟨x, -, -, -, hone⟩ := bits hrun
    simp [hgie] at hone
  · by_contra hrun
    obtain ⟨x, -, -, hone, -⟩ := bits hrun
    simp [enabled_of_lowBits_zero hen] at hone

/-- Settles O41: only an idle EVD starts a handler. -/
theorem runningHandlerIsNeverPreempted : Obligations.RunningHandlerIsNeverPreempted := by
  intro s s' x hx h
  rcases evdMayBecome_step h with hsame | hend | ⟨hidle, -⟩
  · exact .inl (hsame.trans hx)
  · exact .inr hend
  · rw [hidle] at hx
    cases hx

/-- Settles O24: the two cases of `raiseError_cases`. -/
theorem firstErrorIsKept : Obligations.FirstErrorIsKept := by
  intro c info s
  rcases raiseError_cases c info s with ⟨herr, e⟩ | ⟨herr, e⟩
  · exact ⟨fun h => by simp [h] at herr, fun _ => e⟩
  · exact ⟨fun _ => e, fun h => by simp [h] at herr⟩

end Sys2Proof.Machine
end

section
/-! SUPPORT. A block with nothing to do (70_reset_and_hazards.md R330), and turns while RST is asserted (R300, R302). -/

namespace Sys2Proof.Machine

open Sys2Proof

theorem dispatchable_eq_false_of_not_any {r : Regs} (h : anyDispatchable r = false) (x : Source) :
    dispatchable r x = false := by
  simp only [anyDispatchable, Bool.or_eq_false_iff] at h
  obtain ⟨⟨h0, h1⟩, ht⟩ := h
  rcases x with ⟨_ | _⟩ | _
  exacts [h0, h1, ht]

/-- What a quiescent block has no work in: each request slot, each engine, the EVD and the sources. -/
theorem quiescent_inv {s : State} (h : quiescent s = true) :
    s.lfsHostReq = none ∧ s.lfsEvdReq = none ∧ s.dpeHostReq = none ∧ s.dpeEvdReq = none ∧
      s.lfs = none ∧ s.dpe = none ∧ s.evd = .idle ∧ ∀ x, dispatchable s.regs x = false := by
  simp only [quiescent, Bool.and_eq_true, Option.isNone_iff_eq_none, Bool.not_eq_true'] at h
  obtain ⟨⟨⟨⟨⟨⟨⟨⟨-, hlh⟩, hle⟩, hdh⟩, hde⟩, hlfs⟩, hdpe⟩, hevd⟩, hany⟩ := h
  exact ⟨hlh, hle, hdh, hde, hlfs, hdpe, evd_idle_of_evdAct hevd, dispatchable_eq_false_of_not_any hany⟩

theorem lfsStep_of_noRequest {s : State} (h : s.lfs = none) (he : s.lfsEvdReq = none) (hh : s.lfsHostReq = none) :
    lfsStep s = s := by
  simp [lfsStep, h, he, hh]

theorem dpeStep_of_noRequest {s : State} (h : s.dpe = none) (he : s.dpeEvdReq = none) (hh : s.dpeHostReq = none) :
    dpeStep s = s := by
  simp [dpeStep, h, he, hh]

theorem runTurn_host_of_reset {s : State} (hr : s.env.rst = true) (acc : Access) (es : List EnvEvent) :
    runTurn ⟨.host acc, es⟩ s = .fault .hostAccessInReset := by
  simp [runTurn, hr, isHostMove]

/-- In reset the first observation of a turn sees nothing, so ENV's events come straight after the reset values. -/
theorem runTurn_unit_of_reset {s : State} (hr : s.env.rst = true) {m : Move} (hm : isHostMove m = false)
    (es : List EnvEvent) : runTurn ⟨m, es⟩ s = .next (envApplyAll es (resetBlock s)) := by
  have hobs : observeLines (resetBlock s) = resetBlock s := observeLines_of_reset hr
  simp [runTurn, hr, hm, endTurn, hobs]

end Sys2Proof.Machine
end

section
/-! The obligations of 70_reset_and_hazards.md. -/

namespace Sys2Proof.Machine

open Sys2Proof

/-- Settles O60: an idle engine with no request has no step, and neither has an idle EVD whose arbitration takes
nothing. -/
theorem quiescentBlockHasNoStep : Obligations.QuiescentBlockHasNoStep := by
  intro s m hq hm
  obtain ⟨hlh, hle, hdh, hde, hlfs, hdpe, hevd, hnone⟩ := quiescent_inv hq
  cases m with
  | host acc => cases hm
  | evd pick => exact congrArg _ (evdStep_of_arbitrate_none hevd (arbitrate_eq_none hnone pick))
  | lfs => exact congrArg _ (lfsStep_of_noRequest hlfs hle hlh)
  | dpe => exact congrArg _ (dpeStep_of_noRequest hdpe hde hdh)
  | env => rfl

/-- Settles O28: asserting RST is `resetBlock`, a turn in reset applies it again before ENV's events, and a release is
`releaseReset`. -/
theorem resetStopsEverythingAtOnce : Obligations.ResetStopsEverythingAtOnce :=
  fun _ => ⟨fun acc es hr => runTurn_host_of_reset hr acc es, rfl,
    fun _ es hr hm => runTurn_unit_of_reset hr hm es, fun hr => if_pos hr⟩

end Sys2Proof.Machine
end
